-- ==== Sys2Proof/Word.lean ====
section
/-! DEFINITION. The value types of the HS2 stream block (00_scope.md R10, 30_encoding.md R74). -/

namespace Sys2Proof

/-- A unit of a byte space (20_memory.md R51). -/
abbrev Byte := BitVec 8

/-- A command word, a register value or a control word: 32 bits (10_state.md R21, R25). -/
abbrev Word := BitVec 32

/-- A data-in or data-out word: 64 bits (10_state.md R21, R22). -/
abbrev DWord := BitVec 64

end Sys2Proof
end

