-- ==== Sys2Proof/Config.lean ====
section
/-! DEFINITION. What an implementation fixes (the OPEN parameters of 00_scope.md R8) and the model's one free value. -/

namespace Sys2Proof.Config

/-- The capacity of a memory space in units: "at least 1 and at most 2^20" (R8). -/
structure UnitCapacity where
  units : Nat
  atLeastOne : 1 ≤ units
  atMost : units ≤ 2 ^ 20
  deriving DecidableEq, Repr

/-- The capacity of the operation table: "at least 1 and at most 2^32 − 1" (R8). -/
structure OpCapacity where
  ops : Nat
  atLeastOne : 1 ≤ ops
  atMost : ops ≤ 2 ^ 32 - 1
  deriving DecidableEq, Repr

/-- The seven capacity parameters (R8), read by registers 0x15 to 0x1B (10_state.md R45). -/
structure Capacities where
  br : UnitCapacity
  bw : UnitCapacity
  mr : UnitCapacity
  mw : UnitCapacity
  dict : UnitCapacity
  ser : UnitCapacity
  optab : OpCapacity
  deriving DecidableEq, Repr

/-- The largest space capacity R8 allows. -/
def UnitCapacity.largest : UnitCapacity := ⟨2 ^ 20, by decide, by decide⟩

/-- The largest operation table R8 allows. -/
def OpCapacity.largest : OpCapacity := ⟨2 ^ 32 - 1, by decide, by decide⟩

/-- The capacities of the machine that State.reset stands for. DESIGN CHOICE (log entry 2, unsafe for a claim about
State.reset alone): R8 leaves them open; every other statement is about every legal choice, since State carries them. -/
def Capacities.largest : Capacities :=
  ⟨.largest, .largest, .largest, .largest, .largest, .largest, .largest⟩

/-- FREE VALUE (log entry 5): the type and parameter bits that ENC_SKIPOP holds after the n-th reset by command, which
70_reset_and_hazards.md R185 leaves undefined. Nothing can prove what it is. -/
opaque freeSkipop : Nat → BitVec 20

end Sys2Proof.Config
end

