-- ==== Sys2Proof/Syntax.lean ====
section
/-! DEFINITION. The commands of HS2-CMD version 1: one constructor per row of spec/opcode_table.json (30_encoding.md R81). -/

namespace Sys2Proof

/-- The eight control types (30_encoding.md R90). -/
inductive CtrlType where
  | s2 | m2 | m4 | m8 | m16 | skip | rep | unk
  deriving DecidableEq, Repr

/-- The registers 0x00 to 0x1C (10_state.md R26). -/
inductive Reg where
  | id | status | errA | errB | indexBits | directLimit | hTiles | brLen | brPos | bwBits
  | mrLen | mrPos | mwLen | dictLen | serLen | seqNops | seqDirect | seqBlocks | encPend | encCol
  | hopLimit | brCap | bwCap | mrCap | mwCap | dictCap | serCap | optabCap | seqIb
  deriving DecidableEq, Repr

/-- The six memory spaces (20_memory.md R51). -/
inductive Space where
  | br | bw | mr | mw | dict | ser
  deriving DecidableEq, Repr

/-- What the host hands to the command port: CMD and DIN (10_state.md R21). -/
structure Command where
  cmd : Word
  din : DWord
  deriving DecidableEq, Repr

/-- A command with its operands, as its format gives them (30_encoding.md R75 to R79). A signed width or amount is the
integer it stands for (R77); a PARAM, an offset, a word or a register value is the DIN field the format uses. -/
inductive Instr where
  | nop
  | regRd (reg : Reg)
  | regWr (reg : Reg) (value : Word)
  | memRd (space : Space) (addr : BitVec 20)
  | memWr (space : Space) (addr : BitVec 20) (value : Word)
  | softReset
  | bwWrite (n : Int) (value : Word)
  | bwClear
  | brRead (n : Int)
  | brAdvance (a : Int)
  | brExhausted
  | mwWrite (k : Int) (value : DWord)
  | mwClear
  | mrRead (k : Int)
  | maskWidth (type : CtrlType)
  | cwOf (count : BitVec 4) (type : CtrlType) (param : Word)
  | cwLong (offset : Word)
  | cwCount (w : Word)
  | cwType (w : Word)
  | cwParam (w : Word)
  | cwLongoff (w : Word)
  | cwIslong (w : Word)
  | cwPacked (times : Byte) (word : Word)
  | dictPack
  | dictUnpack
  | seqClear
  | seqAdd (type : CtrlType) (param : Word)
  | seqBuild
  | seqPath (type : CtrlType) (param : Word)
  | seqFrameBegin
  | seqEmit (type : CtrlType) (param : Word)
  | seqFrameEnd
  | cwResolve
  | streamNext
  deriving DecidableEq, Repr

end Sys2Proof
end

