-- ==== Sys2Proof/WellFormed.lean ====
section
/-! DEFINITION. Which instruction terms have an encoding: the operand ranges of 30_encoding.md R77 and R75. -/

namespace Sys2Proof

/-- Format W8 encodes a width from −128 to 127 (30_encoding.md R77). -/
def widthEncodable (n : Int) : Bool := -128 ≤ n && n ≤ 127

/-- Format A24 encodes an amount from −2^23 to 2^23 − 1 (30_encoding.md R77). -/
def amountEncodable (a : Int) : Bool := -(2 ^ 23) ≤ a && a ≤ 2 ^ 23 - 1

/-- MEM_WR takes DIN[7:0] for a byte space and DIN[31:0] for DICT (40_block_control.md R107). -/
def unitEncodable (sp : Space) (v : Word) : Bool := sp = .dict || v.toNat < 2 ^ 8

/-- An instruction term that some command word encodes. -/
def Instr.wf : Instr → Bool
  | .bwWrite n _ => widthEncodable n
  | .brRead n => widthEncodable n
  | .mwWrite k _ => widthEncodable k
  | .mrRead k => widthEncodable k
  | .brAdvance a => amountEncodable a
  | .memWr sp _ v => unitEncodable sp v
  | .nop | .regRd _ | .regWr _ _ | .memRd _ _ | .softReset | .bwClear | .brExhausted | .mwClear | .maskWidth _
  | .cwOf _ _ _ | .cwLong _ | .cwCount _ | .cwType _ | .cwParam _ | .cwLongoff _ | .cwIslong _ | .cwPacked _ _
  | .dictPack | .dictUnpack | .seqClear | .seqAdd _ _ | .seqBuild | .seqPath _ _ | .seqFrameBegin | .seqEmit _ _
  | .seqFrameEnd | .cwResolve | .streamNext => true

end Sys2Proof
end

