-- ==== Sys2Proof/Decode.lean ====
section
/-! DEFINITION. The command decoder, total and rejecting by name, and the encoder (30_encoding.md R74 to R83). -/

namespace Sys2Proof

/-! ## Numbers of the names -/

/-- The code of a control type (30_encoding.md R90). -/
def CtrlType.code : CtrlType → BitVec 3
  | .s2 => 0 | .m2 => 1 | .m4 => 2 | .m8 => 3 | .m16 => 4 | .skip => 5 | .rep => 6 | .unk => 7

/-- The control type a 3-bit field names; every value names one (30_encoding.md R90). -/
def CtrlType.ofCode (b : BitVec 3) : CtrlType :=
  match b.toNat with
  | 0 => .s2 | 1 => .m2 | 2 => .m4 | 3 => .m8 | 4 => .m16 | 5 => .skip | 6 => .rep | _ => .unk

/-- The registers in the order of their numbers (10_state.md R26). -/
def Reg.all : List Reg :=
  [.id, .status, .errA, .errB, .indexBits, .directLimit, .hTiles, .brLen, .brPos, .bwBits,
   .mrLen, .mrPos, .mwLen, .dictLen, .serLen, .seqNops, .seqDirect, .seqBlocks, .encPend, .encCol,
   .hopLimit, .brCap, .bwCap, .mrCap, .mwCap, .dictCap, .serCap, .optabCap, .seqIb]

/-- The number of a register (10_state.md R26). -/
def Reg.num (r : Reg) : Byte := BitVec.ofNat 8 (Reg.all.idxOf r)

/-- The register an 8-bit number names; 0x1D to 0xFF name none (10_state.md R25). -/
def Reg.ofNum (n : Byte) : Option Reg := Reg.all[n.toNat]?

/-- The spaces in the order of their numbers (20_memory.md R51). -/
def Space.all : List Space := [.br, .bw, .mr, .mw, .dict, .ser]

/-- The number of a memory space (20_memory.md R51). -/
def Space.num (sp : Space) : BitVec 4 := BitVec.ofNat 4 (Space.all.idxOf sp)

/-- The space a 4-bit number names; 6 to 15 name none (20_memory.md R51). -/
def Space.ofNum (n : BitVec 4) : Option Space := Space.all[n.toNat]?

/-! ## Decoding -/

/-- Why a command does not decode; each is the block's ILLEGAL_CMD (30_encoding.md R82, R83). -/
inductive Reject where
  /-- An OPC outside R81. -/
  | reservedOpcode (opc : Byte)
  /-- A non-zero field that R75 marks 0; the operand bits CMD[23:0] are given. -/
  | reservedField (operands : BitVec 24)
  /-- A REG naming 0x1D to 0xFF. -/
  | reservedRegister (num : Byte)
  /-- A SPACE naming 6 to 15. -/
  | reservedSpace (num : BitVec 4)
  deriving DecidableEq, Repr

/-- OPC = CMD[31:24] (30_encoding.md R74). -/
def opcodeField (cmd : Word) : Byte := cmd.extractLsb' 24 8

/-- The operand fields CMD[23:0] (30_encoding.md R74). -/
def operandField (cmd : Word) : BitVec 24 := cmd.extractLsb' 0 24

/-- DIN[31:0], the part of DIN that every format but MW_WRITE's uses (30_encoding.md R75, R80). -/
def dinWord (din : DWord) : Word := din.extractLsb' 0 32

/-- Formats Z and D: CMD[23:0] = 0. -/
def formatBare (f : BitVec 24) (i : Instr) : Except Reject Instr :=
  if f = 0 then .ok i else .error (.reservedField f)

/-- Formats R, W8 and P: an 8-bit operand CMD[7:0], with CMD[23:8] = 0. -/
def formatByte (f : BitVec 24) (k : Byte → Except Reject Instr) : Except Reject Instr :=
  if f.extractLsb' 8 16 = 0 then k (f.extractLsb' 0 8) else .error (.reservedField f)

/-- Format R: REG names one of the registers. -/
def formatReg (f : BitVec 24) (k : Reg → Instr) : Except Reject Instr :=
  formatByte f fun n =>
    match Reg.ofNum n with
    | some r => .ok (k r)
    | none => .error (.reservedRegister n)

/-- Format W8: the width sext_32(CMD[7:0]) (30_encoding.md R77). -/
def formatWidth (f : BitVec 24) (k : Int → Instr) : Except Reject Instr :=
  formatByte f fun n => .ok (k n.toInt)

/-- Format M: SPACE = CMD[23:20] names one of the spaces, ADDR = CMD[19:0]. -/
def formatMem (f : BitVec 24) (k : Space → BitVec 20 → Instr) : Except Reject Instr :=
  match Space.ofNum (f.extractLsb' 20 4) with
  | some sp => .ok (k sp (f.extractLsb' 0 20))
  | none => .error (.reservedSpace (f.extractLsb' 20 4))

/-- Formats O and T: TYPE = CMD[2:0], with CMD[23:3] = 0. -/
def formatType (f : BitVec 24) (k : CtrlType → Instr) : Except Reject Instr :=
  if f.extractLsb' 3 21 = 0 then .ok (k (.ofCode (f.extractLsb' 0 3))) else .error (.reservedField f)

/-- Format C: COUNT = CMD[23:20], TYPE = CMD[19:17], with CMD[16:0] = 0. -/
def formatControl (f : BitVec 24) (k : BitVec 4 → CtrlType → Instr) : Except Reject Instr :=
  if f.extractLsb' 0 17 = 0 then .ok (k (f.extractLsb' 20 4) (.ofCode (f.extractLsb' 17 3)))
  else .error (.reservedField f)

/-- The value MEM_WR stores: DIN[7:0] for a byte space, DIN[31:0] for DICT (40_block_control.md R107). -/
def memValue (sp : Space) (din : DWord) : Word :=
  if sp = .dict then dinWord din else (din.extractLsb' 0 8).setWidth 32

/-- The instruction a command stands for (30_encoding.md R81), or the reason it is reserved (R82, R83). -/
def decode (c : Command) : Except Reject Instr :=
  let f := operandField c.cmd
  let v := dinWord c.din
  match (opcodeField c.cmd).toNat with
  | 0x00 => formatBare f .nop
  | 0x01 => formatReg f .regRd
  | 0x02 => formatReg f (.regWr · v)
  | 0x03 => formatMem f .memRd
  | 0x04 => formatMem f fun sp a => .memWr sp a (memValue sp c.din)
  | 0x05 => formatBare f .softReset
  | 0x10 => formatWidth f (.bwWrite · v)
  | 0x11 => formatBare f .bwClear
  | 0x18 => formatWidth f .brRead
  | 0x19 => .ok (.brAdvance f.toInt)
  | 0x1A => formatBare f .brExhausted
  | 0x20 => formatWidth f (.mwWrite · c.din)
  | 0x21 => formatBare f .mwClear
  | 0x28 => formatWidth f .mrRead
  | 0x29 => formatType f .maskWidth
  | 0x30 => formatControl f (.cwOf · · v)
  | 0x31 => formatBare f (.cwLong v)
  | 0x32 => formatBare f (.cwCount v)
  | 0x33 => formatBare f (.cwType v)
  | 0x34 => formatBare f (.cwParam v)
  | 0x35 => formatBare f (.cwLongoff v)
  | 0x36 => formatBare f (.cwIslong v)
  | 0x37 => formatByte f fun n => .ok (.cwPacked n v)
  | 0x38 => formatBare f .dictPack
  | 0x39 => formatBare f .dictUnpack
  | 0x40 => formatBare f .seqClear
  | 0x41 => formatType f (.seqAdd · v)
  | 0x42 => formatBare f .seqBuild
  | 0x43 => formatType f (.seqPath · v)
  | 0x44 => formatBare f .seqFrameBegin
  | 0x45 => formatType f (.seqEmit · v)
  | 0x46 => formatBare f .seqFrameEnd
  | 0x48 => formatBare f .cwResolve
  | 0x49 => formatBare f .streamNext
  | _ => .error (.reservedOpcode (opcodeField c.cmd))

/-! ## Encoding -/

/-- OPC of an instruction (30_encoding.md R81). -/
def Instr.opcode : Instr → Byte
  | .nop => 0x00 | .regRd _ => 0x01 | .regWr _ _ => 0x02 | .memRd _ _ => 0x03 | .memWr _ _ _ => 0x04
  | .softReset => 0x05
  | .bwWrite _ _ => 0x10 | .bwClear => 0x11 | .brRead _ => 0x18 | .brAdvance _ => 0x19 | .brExhausted => 0x1A
  | .mwWrite _ _ => 0x20 | .mwClear => 0x21 | .mrRead _ => 0x28 | .maskWidth _ => 0x29
  | .cwOf _ _ _ => 0x30 | .cwLong _ => 0x31 | .cwCount _ => 0x32 | .cwType _ => 0x33 | .cwParam _ => 0x34
  | .cwLongoff _ => 0x35 | .cwIslong _ => 0x36 | .cwPacked _ _ => 0x37 | .dictPack => 0x38 | .dictUnpack => 0x39
  | .seqClear => 0x40 | .seqAdd _ _ => 0x41 | .seqBuild => 0x42 | .seqPath _ _ => 0x43 | .seqFrameBegin => 0x44
  | .seqEmit _ _ => 0x45 | .seqFrameEnd => 0x46 | .cwResolve => 0x48 | .streamNext => 0x49

/-- The operand fields CMD[23:0] of an instruction (30_encoding.md R75). -/
def Instr.operands : Instr → BitVec 24
  | .regRd r => 0#16 ++ r.num
  | .regWr r _ => 0#16 ++ r.num
  | .memRd sp a => sp.num ++ a
  | .memWr sp a _ => sp.num ++ a
  | .bwWrite n _ => 0#16 ++ BitVec.ofInt 8 n
  | .brRead n => 0#16 ++ BitVec.ofInt 8 n
  | .mwWrite k _ => 0#16 ++ BitVec.ofInt 8 k
  | .mrRead k => 0#16 ++ BitVec.ofInt 8 k
  | .brAdvance a => BitVec.ofInt 24 a
  | .maskWidth t => 0#21 ++ t.code
  | .seqAdd t _ => 0#21 ++ t.code
  | .seqPath t _ => 0#21 ++ t.code
  | .seqEmit t _ => 0#21 ++ t.code
  | .cwOf c t _ => c ++ t.code ++ 0#17
  | .cwPacked n _ => 0#16 ++ n
  | .nop | .softReset | .bwClear | .brExhausted | .mwClear | .cwLong _ | .cwCount _ | .cwType _ | .cwParam _
  | .cwLongoff _ | .cwIslong _ | .dictPack | .dictUnpack | .seqClear | .seqBuild | .seqFrameBegin | .seqFrameEnd
  | .cwResolve | .streamNext => 0

/-- DIN of an instruction, the bits its format does not use being 0 (30_encoding.md R75, R80). -/
def Instr.data : Instr → DWord
  | .regWr _ v => v.setWidth 64
  | .memWr _ _ v => v.setWidth 64
  | .bwWrite _ v => v.setWidth 64
  | .mwWrite _ v => v
  | .cwOf _ _ p => p.setWidth 64
  | .cwLong w => w.setWidth 64
  | .cwCount w => w.setWidth 64
  | .cwType w => w.setWidth 64
  | .cwParam w => w.setWidth 64
  | .cwLongoff w => w.setWidth 64
  | .cwIslong w => w.setWidth 64
  | .cwPacked _ w => w.setWidth 64
  | .seqAdd _ p => p.setWidth 64
  | .seqPath _ p => p.setWidth 64
  | .seqEmit _ p => p.setWidth 64
  | .nop | .regRd _ | .memRd _ _ | .softReset | .bwClear | .brRead _ | .brAdvance _ | .brExhausted | .mwClear
  | .mrRead _ | .maskWidth _ | .dictPack | .dictUnpack | .seqClear | .seqBuild | .seqFrameBegin | .seqFrameEnd
  | .cwResolve | .streamNext => 0

/-- The command word CMD of an instruction: OPC above the operand fields (30_encoding.md R74). -/
def Instr.cmdWord (i : Instr) : Word := i.opcode ++ i.operands

/-- The command that stands for an instruction. -/
def encode (i : Instr) : Command := ⟨i.cmdWord, i.data⟩

/-! ## Words numbered as spec/opcode_table.json numbers them -/

/-- A command as one number: CMD is bits 31..0 and DIN bits 95..32; only the low nbits bits count (log entry 10). -/
def commandOfTableWord (nbits w : Nat) : Command :=
  let v := w % 2 ^ nbits
  ⟨BitVec.ofNat 32 v, BitVec.ofNat 64 (v / 2 ^ 32)⟩

/-- The instruction the decoder reads from a table word, or none where it refuses. -/
def decodeTableWord (nbits w : Nat) : Option Instr :=
  match decode (commandOfTableWord nbits w) with
  | .ok i => some i
  | .error _ => none

end Sys2Proof
end

