-- ==== Sys2Proof/Machine/State.lean ====
section
/-! DEFINITION. The state of the block (10_state.md, 20_memory.md), its reset value, and the reasons a step can stop. -/

namespace Sys2Proof.Machine

open Sys2Proof

/-- The sequencer's phase (10_state.md R47). -/
inductive Phase where
  | accumulate | built
  deriving DecidableEq, Repr

/-- The outcome codes 0 to 13 (60_exceptions.md R171); codes 14 and 15 do not exist. -/
inductive ErrCode where
  | ok | contract | illegalCmd | paramRange | dictOverflow | bufferFull | counterOverflow | unknownOp
  | indexRange | hopLimit | unknownType | streamStopped | badPacked | halted
  deriving DecidableEq, Repr

/-- A tile colour operation: a control type and a parameter of 17 bits (30_encoding.md R88). -/
structure Op where
  type : CtrlType
  param : BitVec 17
  deriving DecidableEq, Repr

/-- The path of an op: an index fragment of ib bits, alone or followed by a 4-bit offset (44_sequencer.md R148). -/
inductive Path where
  | direct (index : BitVec 15) (ib : BitVec 4)
  | extended (index : BitVec 15) (ib : BitVec 4) (offset : BitVec 4)
  deriving DecidableEq, Repr

/-- A memory space: the units written since reset, as (address, value) pairs with strictly rising addresses
(20_memory.md R51, R59). An address that is not listed holds no value. -/
abbrev Memory (w : Nat) := List (Nat × BitVec w)

/-- The block. Field by field this is INVENTORY.md's list under State. -/
structure State where
  /-- MODEL's own: the commands the host has issued and the block has not yet taken (log entry 1). -/
  pending : List Command
  /-- DOUT, 64 bits (R22). -/
  dout : DWord
  /-- RESP (R22). -/
  resp : ErrCode
  /-- STATUS.FAULT (R28). -/
  fault : Bool
  /-- STATUS.STREAM_STOP (R28). -/
  streamStop : Bool
  /-- STATUS.ENC_OPEN (R28). -/
  encOpen : Bool
  /-- STATUS.LAST_ERR (R28). -/
  lastErr : ErrCode
  /-- ERR_A (R29). -/
  errA : Word
  /-- ERR_B (R29). -/
  errB : Word
  /-- INDEX_BITS (R30). -/
  indexBits : BitVec 4
  /-- DIRECT_LIMIT (R31). -/
  directLimit : BitVec 16
  /-- HTILES (R32). -/
  hTiles : BitVec 16
  /-- BR_LEN (R33). -/
  brLen : BitVec 21
  /-- BR_POS (R34). -/
  brPos : Word
  /-- BW_BITS (R35). -/
  bwBits : Word
  /-- MR_LEN (R36). -/
  mrLen : BitVec 21
  /-- MR_POS (R37). -/
  mrPos : Word
  /-- MW_LEN (R38). -/
  mwLen : BitVec 21
  /-- DICT_LEN (R39). -/
  dictLen : BitVec 21
  /-- SER_LEN (R40). -/
  serLen : BitVec 21
  /-- SEQ_DIRECT (R42). -/
  seqDirect : BitVec 16
  /-- SEQ_BLOCKS (R42). -/
  seqBlocks : BitVec 16
  /-- ENC_PEND (R43). -/
  encPend : BitVec 5
  /-- ENC_COL (R43). -/
  encCol : BitVec 16
  /-- SEQ_IB (R46). -/
  seqIb : BitVec 4
  /-- PHASE, shown as STATUS.SEQ_BUILT (R47). -/
  phase : Phase
  /-- OPT: op to frequency, in rising order of (param, type) (R47, log entry 7). -/
  opt : List (Op × Word)
  /-- PATHS: op to path, in rising order of (param, type) (R47, log entry 7). -/
  paths : List (Op × Path)
  /-- ENC_SKIPOP (R48), defined only while ENC_PEND > 0 (log entries 4, 5 and 21). -/
  encSkipop : Op
  /-- Space BR (R52). -/
  br : List Host.Cell
  /-- Space BW (R53). -/
  bw : List Host.Cell
  /-- Space MR (R54). -/
  mr : List Host.Cell
  /-- Space MW (R55). -/
  mw : List Host.Cell
  /-- Space DICT, whose units are 32-bit words without a byte order (R56, R63). -/
  dict : List (Nat × BitVec 32)
  /-- Space SER (R57). -/
  ser : List Host.Cell
  /-- The constants of registers 0x15 to 0x1B, which no command changes (R45, log entry 2). -/
  caps : Config.Capacities
  /-- MODEL's own: how many free values have been taken (log entry 5). -/
  freeCount : Nat
  deriving DecidableEq, Repr

/-- Why the machine stops. -/
inductive Fault where
  /-- A command read a unit of a space that nothing has written since reset: 20_memory.md R59 gives it no value and
  93_implementation_defined.md U3 says a model treats the read as a fault. Raised by every command that reads BR, MR,
  DICT or SER below a length register the host has raised. SAFE: the hardware goes on with some value. -/
  | unwrittenUnit (space : Space) (addr : Nat)
  deriving DecidableEq, Repr

/-- Why an instruction has no meaning. -/
inductive Refusal where
  /-- Not modelled; raised only by an arm of exec that has no meaning yet. SAFE: no claim about it can be proved. -/
  | notModelled (mnemonic : String)
  deriving DecidableEq, Repr

/-- The machine right after power-on (70_reset_and_hazards.md R185 to R187). The capacities are log entry 2's choice,
ENC_SKIPOP log entry 4's, freeCount log entry 5's; pending is empty because no command has been issued (R188). -/
def State.reset : State where
  pending := []
  dout := 0
  resp := .ok
  fault := false
  streamStop := false
  encOpen := false
  lastErr := .ok
  errA := 0
  errB := 0
  indexBits := 12
  directLimit := 4096
  hTiles := 0
  brLen := 0
  brPos := 0
  bwBits := 0
  mrLen := 0
  mrPos := 0
  mwLen := 0
  dictLen := 0
  serLen := 0
  seqDirect := 0
  seqBlocks := 0
  encPend := 0
  encCol := 0
  seqIb := 0
  phase := .accumulate
  opt := []
  paths := []
  encSkipop := ⟨.skip, 0⟩
  br := []
  bw := []
  mr := []
  mw := []
  dict := []
  ser := []
  caps := Config.Capacities.largest
  freeCount := 0

end Sys2Proof.Machine
end

