-- ==== Sys2Proof/Machine/Ops.lean ====
section
/-! DEFINITION. The shared operations: the hard-wired constants, reading and writing units of a space, raising an
error and completing a command (60_exceptions.md R173, R174; 40_block_control.md R102), and the reset action. -/

namespace Sys2Proof.Machine

open Sys2Proof

/-! ## Hard-wired constants (00_scope.md R6) -/

/-- MAX_BITS. -/
def maxBits : Nat := 32
/-- MAX_MASK_BYTES. -/
def maxMaskBytes : Nat := 8
/-- The largest 17-bit parameter (PARAM_BITS). -/
def maxParam : Word := 0x1FFFF
/-- The largest 20-bit long offset (LONG_BITS). -/
def maxLongOffset : Word := 0xFFFFF
/-- PACKED_TIMES_MAX. -/
def packedTimesMax : Nat := 255
/-- BLOCK_SLOTS. -/
def blockSlots : Nat := 16
/-- OFFSET_BITS. -/
def offsetBits : Nat := 4
/-- SKIP_LEN_BITS. -/
def skipLenBits : Nat := 5
/-- SKIP_MAX_RUN. -/
def skipMaxRun : Nat := 30
/-- SKIP_TO_ROW_END. -/
def skipToRowEnd : Nat := 31
/-- HOP_LIMIT. -/
def hopLimit : Nat := 100
/-- The largest value of a 32-bit cursor (41_bit_channel.md R116). -/
def cursorMax : Nat := 2 ^ 32 - 1
/-- The value of register ID (10_state.md R27). -/
def idValue : Word := 0x48533207

/-! ## Units of a space -/

/-- The value of the unit at an address, if anything has written it since reset (20_memory.md R59, R70). -/
def Memory.read {w : Nat} : List (Nat × BitVec w) → Nat → Option (BitVec w)
  | [], _ => none
  | (b, v) :: m, a => if b = a then some v else Memory.read m a

/-- Write one unit (00_scope.md R13, MemWrite), keeping the addresses strictly rising. -/
def Memory.write {w : Nat} : List (Nat × BitVec w) → Nat → BitVec w → List (Nat × BitVec w)
  | [], a, v => [(a, v)]
  | (b, x) :: m, a, v =>
    if a < b then (a, v) :: (b, x) :: m
    else if a = b then (a, v) :: m
    else (b, x) :: Memory.write m a v

/-- Write consecutive units, the first at the given address. -/
def Memory.writeAll {w : Nat} (m : List (Nat × BitVec w)) (a : Nat) : List (BitVec w) → List (Nat × BitVec w)
  | [] => m
  | v :: vs => Memory.writeAll (Memory.write m a v) (a + 1) vs

/-- The canonical form: addresses strictly rising. An unlisted address holds no value, so no entry can repeat what an
unlisted address reads as. -/
abbrev Memory.wf {w : Nat} (m : List (Nat × BitVec w)) : Prop := m.Pairwise fun x y => x.1 < y.1

/-! ## A command's attempt and its outcome -/

/-- How a command ends without a result. -/
inductive Abort where
  /-- The block's error E(a, b) (60_exceptions.md R173). -/
  | raise (e : ErrCode) (a b : Word)
  /-- The model's stop: a unit that nothing has written was read (93_implementation_defined.md U3). -/
  | unwritten (space : Space) (addr : Nat)
  deriving DecidableEq, Repr

/-- A command's pseudocode, which ends in a value or in an Abort. -/
abbrev Attempt (α : Type) := Except Abort α

/-- "raise E(a, b)" (00_scope.md R13). -/
def raise {α : Type} (e : ErrCode) (a b : Word) : Attempt α := .error (.raise e a b)

/-- MemRead of one unit; a unit that nothing has written stops the model (20_memory.md R59). -/
def fetchUnit {w : Nat} (sp : Space) (m : List (Nat × BitVec w)) (a : Nat) : Attempt (BitVec w) :=
  match Memory.read m a with
  | some v => .ok v
  | none => .error (.unwritten sp a)

/-- MemRead of n units starting at an address. -/
def fetchUnits {w : Nat} (sp : Space) (m : List (Nat × BitVec w)) (a : Nat) : Nat → Attempt (List (BitVec w))
  | 0 => .ok []
  | n + 1 => do
    let v ← fetchUnit sp m a
    let vs ← fetchUnits sp m (a + 1) n
    pure (v :: vs)

/-- The errors that set FAULT (60_exceptions.md R173, step 3). -/
def ErrCode.setsFault : ErrCode → Bool
  | .contract | .illegalCmd => true
  | .ok | .paramRange | .dictOverflow | .bufferFull | .counterOverflow | .unknownOp | .indexRange | .hopLimit
  | .unknownType | .streamStopped | .badPacked | .halted => false

/-- The errors that set STREAM_STOP (60_exceptions.md R173, step 4; 45_resolver.md R165). -/
def ErrCode.stopsStream : ErrCode → Bool
  | .indexRange | .hopLimit | .unknownType => true
  | .ok | .contract | .illegalCmd | .paramRange | .dictOverflow | .bufferFull | .counterOverflow | .unknownOp
  | .streamStopped | .badPacked | .halted => false

/-- TAKING AN ERROR: the state before the command with the error effects of 60_exceptions.md R173 and nothing else
changed (R174). HALTED leaves LAST_ERR, ERR_A and ERR_B (R175). -/
def State.raised (s : State) (e : ErrCode) (a b : Word) : State :=
  { s with
    resp := e
    dout := 0
    lastErr := if e = .halted then s.lastErr else e
    errA := if e = .halted then s.errA else a
    errB := if e = .halted then s.errB else b
    fault := s.fault || e.setsFault
    streamStop := s.streamStop || e.stopsStream }

/-- Completing with a result: DOUT and RESP 0 (40_block_control.md R102). -/
def State.completed (s : State) (v : DWord) : State := { s with dout := v, resp := .ok }

/-- The outcome of a command that started in s (40_block_control.md R102). -/
def finish (s : State) : Attempt (State × DWord) → Host.Outcome State Fault Refusal
  | .ok (t, v) => .next (t.completed v)
  | .error (.raise e a b) => .next (s.raised e a b)
  | .error (.unwritten sp a) => .fault (.unwrittenUnit sp a)

/-- A command that FAULT halts (30_encoding.md R87, check 1; 60_exceptions.md R175). -/
def command (s : State) (body : Attempt (State × DWord)) : Host.Outcome State Fault Refusal :=
  if s.fault then .next (s.raised .halted 0 0) else finish s body

/-- A command word that does not decode: HALTED if FAULT is set and OPC is neither REG_RD nor SOFT_RESET, else
ILLEGAL_CMD(CMD, 0) (30_encoding.md R87; 60_exceptions.md R171, R177). -/
def rejectCommand (cmd : Word) (s : State) : Host.Outcome State Fault Refusal :=
  if s.fault ∧ opcodeField cmd ≠ 0x01 ∧ opcodeField cmd ≠ 0x05 then .next (s.raised .halted 0 0)
  else .next (s.raised .illegalCmd cmd 0)

/-- RETURN TO SERVICE: the reset action of SOFT_RESET (70_reset_and_hazards.md R185). Registers, OPT, PHASE, PATHS,
DOUT and RESP take their reset values; the memories' contents become unspecified (R187), so nothing is listed any
more; ENC_SKIPOP becomes undefined, a free value (log entry 5). The capacities and the host's further commands stay. -/
def State.resetAction (s : State) : State :=
  let bits := Config.freeSkipop s.freeCount
  { State.reset with
    pending := s.pending
    caps := s.caps
    encSkipop := ⟨.ofCode (bits.extractLsb' 17 3), bits.extractLsb' 0 17⟩
    freeCount := s.freeCount + 1 }

/-- The host has issued a command, to be taken before those already pending (log entry 1). -/
def State.issue (s : State) (c : Command) : State := { s with pending := c :: s.pending }

end Sys2Proof.Machine
end

