-- ==== Sys2Proof/Machine/Operands.lean ====
section
/-! DEFINITION. The operand forms: signed widths, ops, control words, packed words, byte orders, spaces
(30_encoding.md R76 to R79, R88 to R94). -/

namespace Sys2Proof.Machine

open Sys2Proof

/-- A signed field as an info value: 32-bit two's complement (41_bit_channel.md R113). -/
def signedInfo (n : Int) : Word := BitVec.ofInt 32 n

/-- A count, size or index as a 32-bit value. -/
def natInfo (n : Nat) : Word := BitVec.ofNat 32 n

/-- A width that must lie in 0..limit, else CONTRACT(CMD, width) (41_bit_channel.md R113, 42_mask_channel.md R122). -/
def widthUpTo (limit : Nat) (cmd : Word) (n : Int) : Attempt Nat :=
  if n < 0 ∨ (limit : Int) < n then raise .contract cmd (signedInfo n) else .ok n.toNat

/-- The op (type, param), if the parameter is at most 17 bits wide (30_encoding.md R88). -/
def opOf (t : CtrlType) (p : Word) : Option Op :=
  if maxParam < p then none else some ⟨t, p.setWidth 17⟩

/-- A type as an info value (60_exceptions.md R171). -/
def typeInfo (t : CtrlType) : Word := t.code.setWidth 32

/-! ## Control words (30_encoding.md R89) -/

/-- {0, COUNT, TYPE, PARAM}: CW(c, t, p) of 44_sequencer.md R147 and CW_OF's result (43_control_word.md R128). -/
def controlWord (count : BitVec 4) (op : Op) : Word := 0#8 ++ count ++ op.type.code ++ op.param

/-- {0, LONG_OFFSET}: CW_LONG's result (43_control_word.md R129). -/
def longWord (offset : BitVec 20) : Word := 0#12 ++ offset

/-- COUNT = w[23:20]. -/
def countField (w : Word) : BitVec 4 := w.extractLsb' 20 4

/-- TYPE = w[19:17]. -/
def typeField (w : Word) : BitVec 3 := w.extractLsb' 17 3

/-- PARAM = w[16:0]. -/
def paramField (w : Word) : BitVec 17 := w.extractLsb' 0 17

/-- LONG_OFFSET = w[19:0]. -/
def longField (w : Word) : BitVec 20 := w.extractLsb' 0 20

/-- A long offset is a word with COUNT = 0 (30_encoding.md R91). -/
def isLong (w : Word) : Bool := countField w = 0

/-! ## Packed words (30_encoding.md R94) -/

/-- packed(w, times) = {times[7:0], w[23:0]}. -/
def packedWord (w : Word) (times : Byte) : Word := times ++ w.extractLsb' 0 24

/-- The repeat count of a packed word, bits [31:24]. -/
def packedTimes (p : Word) : Byte := p.extractLsb' 24 8

/-- The control word of a packed word: its low 24 bits, zero-extended (43_control_word.md R139). -/
def packedContent (p : Word) : Word := 0#8 ++ p.extractLsb' 0 24

/-! ## Byte order (20_memory.md R61, R62) -/

/-- The first k bytes of a value, least significant first. -/
def bytesLE {w : Nat} (v : BitVec w) (k : Nat) : List Byte :=
  (List.range k).map fun j => v.extractLsb' (8 * j) 8

/-- The number that bytes stand for, least significant first. -/
def natOfLE : List Byte → Nat
  | [] => 0
  | b :: bs => b.toNat + 2 ^ 8 * natOfLE bs

/-- LE32 of a word (43_control_word.md R137). -/
def le32 (w : Word) : List Byte := bytesLE w 4

/-! ## Spaces (20_memory.md R51) -/

/-- Bytes that hold n bits: ceil(n / 8). -/
def bytesFor (n : Nat) : Nat := (n + 7) / 8

/-- The capacity column of R51. -/
def State.capacity (s : State) : Space → Nat
  | .br => s.caps.br.units
  | .bw => s.caps.bw.units
  | .mr => s.caps.mr.units
  | .mw => s.caps.mw.units
  | .dict => s.caps.dict.units
  | .ser => s.caps.ser.units

/-- The length column of R51. -/
def State.length (s : State) : Space → Nat
  | .br => s.brLen.toNat
  | .bw => bytesFor s.bwBits.toNat
  | .mr => s.mrLen.toNat
  | .mw => s.mwLen.toNat
  | .dict => s.dictLen.toNat
  | .ser => s.serLen.toNat

/-- The unit of a space at an address, if anything has written it, as a 32-bit value. -/
def State.unitAt (s : State) (sp : Space) (a : Nat) : Option Word :=
  match sp with
  | .br => (Memory.read s.br a).map (·.setWidth 32)
  | .bw => (Memory.read s.bw a).map (·.setWidth 32)
  | .mr => (Memory.read s.mr a).map (·.setWidth 32)
  | .mw => (Memory.read s.mw a).map (·.setWidth 32)
  | .dict => Memory.read s.dict a
  | .ser => (Memory.read s.ser a).map (·.setWidth 32)

/-- MemWrite of one unit: the low byte in a byte space, the word in DICT (40_block_control.md R107). -/
def State.withUnit (s : State) (sp : Space) (a : Nat) (v : Word) : State :=
  match sp with
  | .br => { s with br := Memory.write s.br a (v.setWidth 8) }
  | .bw => { s with bw := Memory.write s.bw a (v.setWidth 8) }
  | .mr => { s with mr := Memory.write s.mr a (v.setWidth 8) }
  | .mw => { s with mw := Memory.write s.mw a (v.setWidth 8) }
  | .dict => { s with dict := Memory.write s.dict a v }
  | .ser => { s with ser := Memory.write s.ser a (v.setWidth 8) }

/-- A space number as an info value (60_exceptions.md R171). -/
def spaceInfo (sp : Space) : Word := sp.num.setWidth 32

/-- The number by which BUFFER_FULL names the operation table OPT (60_exceptions.md R171). -/
def optInfo : Word := 6

end Sys2Proof.Machine
end

