-- ==== Sys2Proof/Machine/Flags.lean ====
section
/-! DEFINITION. STATUS and the value every register reads as (10_state.md R26 to R46). -/

namespace Sys2Proof.Machine

open Sys2Proof

/-- The code of an outcome (60_exceptions.md R171). -/
def ErrCode.bits : ErrCode → BitVec 4
  | .ok => 0 | .contract => 1 | .illegalCmd => 2 | .paramRange => 3 | .dictOverflow => 4 | .bufferFull => 5
  | .counterOverflow => 6 | .unknownOp => 7 | .indexRange => 8 | .hopLimit => 9 | .unknownType => 10
  | .streamStopped => 11 | .badPacked => 12 | .halted => 13

/-- BR_EXH: BR_POS >= 8 × BR_LEN (10_state.md R28, 41_bit_channel.md R117). -/
def State.brExhausted (s : State) : Bool := 8 * s.brLen.toNat ≤ s.brPos.toNat

/-- SEQ_BUILT shows PHASE (10_state.md R47). -/
def State.seqBuilt (s : State) : Bool := s.phase = .built

/-- STATUS as it reads: LAST_ERR in [11:8], ENC_OPEN, SEQ_BUILT, BR_EXH, STREAM_STOP and FAULT in [4] to [0], the
reserved bits 0 (10_state.md R28). -/
def State.statusWord (s : State) : Word :=
  0#20 ++ s.lastErr.bits ++ 0#3 ++ BitVec.ofBool s.encOpen ++ BitVec.ofBool s.seqBuilt
    ++ BitVec.ofBool s.brExhausted ++ BitVec.ofBool s.streamStop ++ BitVec.ofBool s.fault

/-- What a register reads as, 32 bits (10_state.md R26). -/
def State.readReg (s : State) : Reg → Word
  | .id => idValue
  | .status => s.statusWord
  | .errA => s.errA
  | .errB => s.errB
  | .indexBits => s.indexBits.setWidth 32
  | .directLimit => s.directLimit.setWidth 32
  | .hTiles => s.hTiles.setWidth 32
  | .brLen => s.brLen.setWidth 32
  | .brPos => s.brPos
  | .bwBits => s.bwBits
  | .mrLen => s.mrLen.setWidth 32
  | .mrPos => s.mrPos
  | .mwLen => s.mwLen.setWidth 32
  | .dictLen => s.dictLen.setWidth 32
  | .serLen => s.serLen.setWidth 32
  | .seqNops => natInfo s.opt.length
  | .seqDirect => s.seqDirect.setWidth 32
  | .seqBlocks => s.seqBlocks.setWidth 32
  | .encPend => s.encPend.setWidth 32
  | .encCol => s.encCol.setWidth 32
  | .hopLimit => natInfo Machine.hopLimit
  | .brCap => natInfo s.caps.br.units
  | .bwCap => natInfo s.caps.bw.units
  | .mrCap => natInfo s.caps.mr.units
  | .mwCap => natInfo s.caps.mw.units
  | .dictCap => natInfo s.caps.dict.units
  | .serCap => natInfo s.caps.ser.units
  | .optabCap => natInfo s.caps.optab.ops
  | .seqIb => s.seqIb.setWidth 32

end Sys2Proof.Machine
end

