-- ==== Sys2Proof/Machine/BitChannel.lean ====
section
/-! DEFINITION. The bit channel: BW_WRITE, BW_CLEAR, BR_READ, BR_ADVANCE, BR_EXHAUSTED (41_bit_channel.md). -/

namespace Sys2Proof.Machine

open Sys2Proof

/-! ## The reader -/

/-- BitAt(i): stream bit i of the reader's buffer, 0 at and past its end (R109; numbering 00_scope.md R12). -/
def bitAt (s : State) (i : Nat) : Attempt Bool :=
  if i < 8 * s.brLen.toNat then do
    let b ← fetchUnit .br s.br (i / 8)
    pure (b.getLsbD (7 - i % 8))
  else .ok false

/-- The n stream bits from a position on, as an unsigned number, the first bit most significant (R110). -/
def peekFrom (s : State) (pos : Nat) : Nat → Attempt Nat
  | 0 => .ok 0
  | n + 1 => do
    let b ← bitAt s pos
    let r ← peekFrom s (pos + 1) n
    pure (b.toNat * 2 ^ n + r)

/-! ## The writer -/

/-- A byte with bit k set to b. -/
def setBit (x : Byte) (k : Nat) (b : Bool) : Byte :=
  (x &&& ~~~(1#8 <<< k)) ||| (if b then 1#8 <<< k else 0)

/-- The byte the next bit goes into; a new byte starts as zero (R111). -/
def openByte (s : State) : Attempt Byte :=
  if s.bwBits.toNat % 8 = 0 then .ok 0 else fetchUnit .bw s.bw (s.bwBits.toNat / 8)

/-- Append one bit (R111). -/
def appendBit (b : Bool) (s : State) : Attempt State := do
  let p := s.bwBits.toNat
  let byte ← openByte s
  pure { s with bw := Memory.write s.bw (p / 8) (setBit byte (7 - p % 8) b), bwBits := BitVec.ofNat 32 (p + 1) }

/-- AppendBits(n, v): the low n bits of v, most significant first (R111). -/
def appendBits : Nat → Nat → State → Attempt State
  | 0, _, s => .ok s
  | n + 1, v, s => do
    let t ← appendBit (v.testBit n) s
    appendBits n v t

/-- AppendBits with its capacity check (R113); Put(n, v) of 44_sequencer.md R151. -/
def putBits (n v : Nat) (s : State) : Attempt State :=
  if s.caps.bw.units < bytesFor (s.bwBits.toNat + n) then
    raise .bufferFull (spaceInfo .bw) (natInfo s.caps.bw.units)
  else appendBits n v s

/-! ## The commands -/

/-- BW_WRITE (R113). -/
def execBwWrite (n : Int) (value : Word) (s : State) : Host.Outcome State Fault Refusal :=
  command s do
    let k ← widthUpTo maxBits (Instr.bwWrite n value).cmdWord n
    let t ← putBits k (value.toNat % 2 ^ k) s
    pure (t, t.bwBits.setWidth 64)

/-- BW_CLEAR (R114): the bytes of BW stay in storage. -/
def execBwClear (s : State) : Host.Outcome State Fault Refusal :=
  command s (.ok ({ s with bwBits := 0 }, 0))

/-- BR_READ (R115): a peek, which changes no state. -/
def execBrRead (n : Int) (s : State) : Host.Outcome State Fault Refusal :=
  command s do
    let k ← widthUpTo maxBits (Instr.brRead n).cmdWord n
    let v ← peekFrom s s.brPos.toNat k
    pure (s, BitVec.ofNat 64 v)

/-- BR_ADVANCE (R116). -/
def execBrAdvance (a : Int) (s : State) : Host.Outcome State Fault Refusal :=
  command s
    (if a < 0 then raise .contract (Instr.brAdvance a).cmdWord (signedInfo a)
    else if cursorMax < s.brPos.toNat + a.toNat then
      raise .contract (Instr.brAdvance a).cmdWord (signedInfo a)
    else
      let pos := BitVec.ofNat 32 (s.brPos.toNat + a.toNat)
      .ok ({ s with brPos := pos }, pos.setWidth 64))

/-- BR_EXHAUSTED (R117). -/
def execBrExhausted (s : State) : Host.Outcome State Fault Refusal :=
  command s (.ok (s, if s.brExhausted then 1 else 0))

end Sys2Proof.Machine
end

