-- ==== Sys2Proof/Machine/BlockControl.lean ====
section
/-! DEFINITION. Block control: NOP, REG_RD, REG_WR, MEM_RD, MEM_WR, SOFT_RESET (40_block_control.md). -/

namespace Sys2Proof.Machine

open Sys2Proof

/-- NOP (R103). -/
def execNop (s : State) : Host.Outcome State Fault Refusal := command s (.ok (s, 0))

/-- REG_RD (R104): runs even while FAULT = 1. -/
def execRegRd (reg : Reg) (s : State) : Host.Outcome State Fault Refusal :=
  finish s (.ok (s, (s.readReg reg).setWidth 64))

/-- The effect of REG_WR on the state (R105), every check in the order listed. -/
def writeReg (cmd : Word) (reg : Reg) (v : Word) (s : State) : Attempt State :=
  match reg with
  | .status => .ok { s with lastErr := .ok, errA := 0, errB := 0 }
  | .indexBits =>
    if v.toNat < 1 ∨ 15 < v.toNat then raise .contract cmd v else .ok { s with indexBits := v.setWidth 4 }
  | .directLimit =>
    if 32768 < v.toNat then raise .contract cmd v else .ok { s with directLimit := v.setWidth 16 }
  | .hTiles =>
    if 65535 < v.toNat then raise .contract cmd v
    else if s.encOpen then raise .contract cmd v
    else .ok { s with hTiles := v.setWidth 16 }
  | .brLen =>
    if s.caps.br.units < v.toNat then raise .contract cmd v
    else .ok { s with brLen := v.setWidth 21, brPos := 0, streamStop := false }
  | .mrLen =>
    if s.caps.mr.units < v.toNat then raise .contract cmd v
    else .ok { s with mrLen := v.setWidth 21, mrPos := 0 }
  | .dictLen =>
    if s.caps.dict.units < v.toNat then raise .contract cmd v else .ok { s with dictLen := v.setWidth 21 }
  | .serLen =>
    if s.caps.ser.units < v.toNat then raise .contract cmd v else .ok { s with serLen := v.setWidth 21 }
  | .id | .errA | .errB | .brPos | .bwBits | .mrPos | .mwLen | .seqNops | .seqDirect | .seqBlocks | .encPend
  | .encCol | .hopLimit | .brCap | .bwCap | .mrCap | .mwCap | .dictCap | .serCap | .optabCap | .seqIb =>
    raise .contract cmd (reg.num.setWidth 32)

/-- REG_WR (R105). -/
def execRegWr (reg : Reg) (value : Word) (s : State) : Host.Outcome State Fault Refusal :=
  command s do
    let t ← writeReg (Instr.regWr reg value).cmdWord reg value s
    pure (t, value.setWidth 64)

/-- MEM_RD (R106), with the length window of 20_memory.md R58. -/
def execMemRd (space : Space) (addr : BitVec 20) (s : State) : Host.Outcome State Fault Refusal :=
  command s
    (if s.capacity space ≤ addr.toNat then
      raise .contract (Instr.memRd space addr).cmdWord (natInfo addr.toNat)
    else if s.length space ≤ addr.toNat then .ok (s, 0)
    else
      match s.unitAt space addr.toNat with
      | some v => .ok (s, v.setWidth 64)
      | none => .error (.unwritten space addr.toNat))

/-- MEM_WR (R107): no length register changes. -/
def execMemWr (space : Space) (addr : BitVec 20) (value : Word) (s : State) : Host.Outcome State Fault Refusal :=
  command s
    (if space = .bw ∨ space = .mw then
      raise .contract (Instr.memWr space addr value).cmdWord (spaceInfo space)
    else if s.capacity space ≤ addr.toNat then
      raise .contract (Instr.memWr space addr value).cmdWord (natInfo addr.toNat)
    else .ok (s.withUnit space addr.toNat value, 0))

/-- SOFT_RESET (R108): runs even while FAULT = 1, and is the only command that clears it. -/
def execSoftReset (s : State) : Host.Outcome State Fault Refusal := finish s (.ok (s.resetAction, 0))

end Sys2Proof.Machine
end

