-- ==== Sys2Proof/Machine/ControlWord.lean ====
section
/-! DEFINITION. The control-word unit: CW_OF to CW_PACKED, DICT_PACK, DICT_UNPACK (43_control_word.md). -/

namespace Sys2Proof.Machine

open Sys2Proof

/-! ## Constructors, accessors and the packed form -/

/-- CW_OF (R128). -/
def execCwOf (count : BitVec 4) (type : CtrlType) (param : Word) (s : State) : Host.Outcome State Fault Refusal :=
  command s
    (match opOf type param with
    | none => raise .contract (Instr.cwOf count type param).cmdWord param
    | some op => .ok (s, (controlWord count op).setWidth 64))

/-- CW_LONG (R129). -/
def execCwLong (offset : Word) (s : State) : Host.Outcome State Fault Refusal :=
  command s
    (if maxLongOffset < offset then raise .contract (Instr.cwLong offset).cmdWord offset
    else .ok (s, (longWord (offset.setWidth 20)).setWidth 64))

/-- CW_COUNT (R130). -/
def execCwCount (w : Word) (s : State) : Host.Outcome State Fault Refusal :=
  command s (.ok (s, (countField w).setWidth 64))

/-- CW_TYPE (R131). -/
def execCwType (w : Word) (s : State) : Host.Outcome State Fault Refusal :=
  command s (.ok (s, (typeField w).setWidth 64))

/-- CW_PARAM (R132). -/
def execCwParam (w : Word) (s : State) : Host.Outcome State Fault Refusal :=
  command s (.ok (s, (paramField w).setWidth 64))

/-- CW_LONGOFF (R133). -/
def execCwLongoff (w : Word) (s : State) : Host.Outcome State Fault Refusal :=
  command s (.ok (s, (longField w).setWidth 64))

/-- CW_ISLONG (R134). -/
def execCwIslong (w : Word) (s : State) : Host.Outcome State Fault Refusal :=
  command s (.ok (s, if isLong w then 1 else 0))

/-- CW_PACKED (R135). -/
def execCwPacked (times : Byte) (word : Word) (s : State) : Host.Outcome State Fault Refusal :=
  command s
    (if times = 0 then raise .contract (Instr.cwPacked times word).cmdWord 0
    else .ok (s, (packedWord word times).setWidth 64))

/-! ## Serializing the dictionary -/

/-- The runs of a word list whose current run is n words w (R136). -/
def runsFrom (w : Word) (n : Nat) : List Word → List (Word × Nat)
  | [] => [(w, n)]
  | d :: ds => if w = d ∧ n < packedTimesMax then runsFrom w (n + 1) ds else (w, n) :: runsFrom d 1 ds

/-- Runs(d): maximal groups of at most 255 consecutive words equal in all 32 bits, from the left (R136). -/
def runs : List Word → List (Word × Nat)
  | [] => []
  | d :: ds => runsFrom d 1 ds

/-- The serialization of a list of runs: LE32(3 × R), then one packed word per run (30_encoding.md R95). -/
def serialize (rs : List (Word × Nat)) : List Byte :=
  le32 (natInfo (3 * rs.length)) ++ rs.flatMap fun r => le32 (packedWord r.1 (BitVec.ofNat 8 r.2))

/-- DICT_PACK (R137). -/
def execDictPack (s : State) : Host.Outcome State Fault Refusal :=
  command s do
    let words ← fetchUnits .dict s.dict 0 s.dictLen.toNat
    let size := 4 + 4 * (runs words).length
    if s.caps.ser.units < size then raise .bufferFull (spaceInfo .ser) (natInfo s.caps.ser.units)
    else
      let len := BitVec.ofNat 21 size
      pure ({ s with ser := Memory.writeAll s.ser 0 (serialize (runs words)), serLen := len }, len.setWidth 64)

/-! ## Deserializing -/

/-- The LE32 value at a byte address of SER. -/
def serWord (s : State) (a : Nat) : Attempt Word := do
  let bs ← fetchUnits .ser s.ser a 4
  pure (BitVec.ofNat 32 (natOfLE bs))

/-- The count field of a serialization, after checks 1 to 3 (R138). -/
def serCount (s : State) : Attempt Nat :=
  if s.serLen.toNat < 4 then raise .badPacked 0 (natInfo s.serLen.toNat)
  else do
    let c ← serWord s 0
    if c.toNat % 3 ≠ 0 then raise .badPacked 0 c
    else if s.serLen.toNat < 4 + 4 * (c.toNat / 3) then raise .badPacked 0 c
    else pure (c.toNat / 3)

/-- The n packed words from a byte address on, each after check 4 (R138). -/
def serRuns (s : State) (a : Nat) : Nat → Attempt (List Word)
  | 0 => .ok []
  | n + 1 => do
    let p ← serWord s a
    if packedTimes p = 0 then raise .badPacked (natInfo a) p
    else
      let ps ← serRuns s (a + 4) n
      pure (p :: ps)

/-- The words a list of packed words stands for (R139). -/
def unpackWords (ps : List Word) : List Word :=
  ps.flatMap fun p => List.replicate (packedTimes p).toNat (packedContent p)

/-- DICT_UNPACK (R139). -/
def execDictUnpack (s : State) : Host.Outcome State Fault Refusal :=
  command s do
    let n ← serCount s
    let ps ← serRuns s 4 n
    let words := unpackWords ps
    if s.caps.dict.units < words.length then raise .bufferFull (spaceInfo .dict) (natInfo s.caps.dict.units)
    else
      let len := BitVec.ofNat 21 words.length
      pure ({ s with dict := Memory.writeAll s.dict 0 words, dictLen := len }, len.setWidth 64)

end Sys2Proof.Machine
end

