-- ==== Sys2Proof/Machine/MaskChannel.lean ====
section
/-! DEFINITION. The mask channel: MW_WRITE, MW_CLEAR, MR_READ, MASK_WIDTH (42_mask_channel.md). -/

namespace Sys2Proof.Machine

open Sys2Proof

/-- MRByte(i): byte i of the maskstream, 0 at and past its end (R119). -/
def maskByte (s : State) (i : Nat) : Attempt Byte :=
  if i < s.mrLen.toNat then fetchUnit .mr s.mr i else .ok 0

/-- The k maskstream bytes from a position on (R119). -/
def maskBytesFrom (s : State) (pos : Nat) : Nat → Attempt (List Byte)
  | 0 => .ok []
  | k + 1 => do
    let b ← maskByte s pos
    let bs ← maskBytesFrom s (pos + 1) k
    pure (b :: bs)

/-- MaskBytes(type): the mask entry width of a control type (R120). -/
def maskBytes : CtrlType → Nat
  | .m2 => 2
  | .m4 => 4
  | .m8 => 6
  | .m16 => 8
  | .s2 | .skip | .rep | .unk => 0

/-- MW_WRITE (R122). -/
def execMwWrite (k : Int) (value : DWord) (s : State) : Host.Outcome State Fault Refusal :=
  command s do
    let n ← widthUpTo maxMaskBytes (Instr.mwWrite k value).cmdWord k
    if s.caps.mw.units < s.mwLen.toNat + n then
      raise .bufferFull (spaceInfo .mw) (natInfo s.caps.mw.units)
    else
      let len := BitVec.ofNat 21 (s.mwLen.toNat + n)
      pure ({ s with mw := Memory.writeAll s.mw s.mwLen.toNat (bytesLE value n), mwLen := len }, len.setWidth 64)

/-- MW_CLEAR (R123): the bytes of MW stay in storage. -/
def execMwClear (s : State) : Host.Outcome State Fault Refusal :=
  command s (.ok ({ s with mwLen := 0 }, 0))

/-- MR_READ (R124): consumes the bytes it reads. -/
def execMrRead (k : Int) (s : State) : Host.Outcome State Fault Refusal :=
  command s do
    let n ← widthUpTo maxMaskBytes (Instr.mrRead k).cmdWord k
    if cursorMax < s.mrPos.toNat + n then raise .contract (Instr.mrRead k).cmdWord (signedInfo k)
    else
      let bs ← maskBytesFrom s s.mrPos.toNat n
      pure ({ s with mrPos := BitVec.ofNat 32 (s.mrPos.toNat + n) }, BitVec.ofNat 64 (natOfLE bs))

/-- MASK_WIDTH (R125): reads no state. -/
def execMaskWidth (type : CtrlType) (s : State) : Host.Outcome State Fault Refusal :=
  command s (.ok (s, BitVec.ofNat 64 (maskBytes type)))

end Sys2Proof.Machine
end

