-- ==== Sys2Proof/Machine/Resolver.lean ====
section
/-! DEFINITION. The path resolver and stream reader: CW_RESOLVE, STREAM_NEXT (45_resolver.md). -/

namespace Sys2Proof.Machine

open Sys2Proof

/-- The dictionary word at an index, or INDEX_RANGE at or past DICT_LEN (R160). -/
def dictWord (s : State) (idx : Nat) : Attempt Word :=
  if s.dictLen.toNat ≤ idx then raise .indexRange (natInfo idx) (natInfo s.dictLen.toNat)
  else fetchUnit .dict s.dict idx

/-- The cursor after n more bits, or CONTRACT(CMD, BR_POS) past 2^32 − 1 (R160). -/
def cursorPast (cmd : Word) (pos n : Nat) : Attempt Nat :=
  if cursorMax < pos + n then raise .contract cmd (natInfo pos) else .ok (pos + n)

/-- The loop of Resolve from the word w that the frag bits at pos selected at index idx. `left` hops may still be
followed. It answers the final word, the cursor after its own fragment, and the hops still unused (R160 to R162). -/
def chase (s : State) (cmd : Word) : Nat → Nat → Nat → Nat → Word → Attempt (Word × Nat × Nat)
  | 0, pos, _, idx, w =>
    if isLong w then raise .hopLimit (natInfo idx) (natInfo hopLimit)
    else do
      let pos' ← cursorPast cmd pos (countField w).toNat
      pure (w, pos', 0)
  | left + 1, pos, frag, _, w =>
    if isLong w then do
      let pos' ← cursorPast cmd pos frag
      let offset ← peekFrom s pos' offsetBits
      let idx' := (longField w).toNat + offset
      let w' ← dictWord s idx'
      chase s cmd left pos' offsetBits idx' w'
    else do
      let pos' ← cursorPast cmd pos (countField w).toNat
      pure (w, pos', left + 1)

/-- Resolve(): the selected word, the cursor after the path, and the number of pointers followed (R160). -/
def resolve (s : State) (cmd : Word) : Attempt (Word × Nat × Nat) := do
  let frag := s.indexBits.toNat
  let idx ← peekFrom s s.brPos.toNat frag
  let w ← dictWord s idx
  let r ← chase s cmd hopLimit s.brPos.toNat frag idx w
  pure (r.1, r.2.1, hopLimit - r.2.2)

/-- CW_RESOLVE (R163). -/
def execCwResolve (s : State) : Host.Outcome State Fault Refusal :=
  command s
    (if s.streamStop then raise .streamStopped 0 0
    else do
      let r ← resolve s (Instr.cwResolve).cmdWord
      pure ({ s with brPos := BitVec.ofNat 32 r.2.1 }, BitVec.ofNat 32 r.2.2 ++ r.1))

/-- The run length of a skip word, read at the cursor and consumed; 0 and nothing consumed for other words (R164). -/
def skipRun (s : State) (cmd : Word) (w : Word) (pos : Nat) : Attempt (Nat × Nat) :=
  if CtrlType.ofCode (typeField w) = .skip then do
    let len ← peekFrom s pos skipLenBits
    let pos' ← cursorPast cmd pos skipLenBits
    pure (len, pos')
  else .ok (0, pos)

/-- STREAM_NEXT (R164). -/
def execStreamNext (s : State) : Host.Outcome State Fault Refusal :=
  command s
    (if s.streamStop then raise .streamStopped 0 0
    else if s.brExhausted then .ok (s, 1#64 <<< 63)
    else do
      let r ← resolve s (Instr.streamNext).cmdWord
      if CtrlType.ofCode (typeField r.1) = .unk then raise .unknownType r.1 s.brPos
      else
        let l ← skipRun s (Instr.streamNext).cmdWord r.1 r.2.1
        pure ({ s with brPos := BitVec.ofNat 32 l.2 }, BitVec.ofNat 32 l.1 ++ r.1))

end Sys2Proof.Machine
end

