-- ==== Sys2Proof/Machine/Sequencer.lean ====
section
/-! DEFINITION. The sequencer and the frame encoder: SEQ_CLEAR, SEQ_ADD, SEQ_BUILD, SEQ_PATH, SEQ_FRAME_BEGIN,
SEQ_EMIT, SEQ_FRAME_END (44_sequencer.md). -/

namespace Sys2Proof.Machine

open Sys2Proof

/-! ## Finite maps from ops (10_state.md R47) -/

/-- The order of ops by ascending parameter, then ascending type (R145's tie break; log entry 7). -/
def Op.before (a b : Op) : Bool :=
  a.param < b.param || (a.param = b.param && a.type.code < b.type.code)

/-- The entry of an op. -/
def Table.find {α : Type} : List (Op × α) → Op → Option α
  | [], _ => none
  | (o, v) :: t, op => if o = op then some v else Table.find t op

/-- Set the entry of an op, keeping the ops in rising order. -/
def Table.set {α : Type} : List (Op × α) → Op → α → List (Op × α)
  | [], op, v => [(op, v)]
  | (o, x) :: t, op, v =>
    if op.before o then (op, v) :: (o, x) :: t
    else if op = o then (op, v) :: t
    else (o, x) :: Table.set t op v

/-- The canonical form of a map: its ops strictly rising. -/
abbrev Table.wf {α : Type} (t : List (Op × α)) : Prop := t.Pairwise fun x y => x.1.before y.1

/-! ## Order, capacity, layout and paths -/

/-- An op comes before another: higher frequency, then lower parameter, then lower type (R145). -/
def ranksBefore (a b : Op × Word) : Bool := b.2 < a.2 || (a.2 = b.2 && a.1.before b.1)

/-- Insert an op at its rank. -/
def insertRanked (e : Op × Word) : List (Op × Word) → List (Op × Word)
  | [] => [e]
  | x :: xs => if ranksBefore e x then e :: x :: xs else x :: insertRanked e xs

/-- The ops of OPT in rank order (R145). -/
def rankOrder : List (Op × Word) → List (Op × Word)
  | [] => []
  | e :: es => insertRanked e (rankOrder es)

/-- D = min(DIRECT_LIMIT, 2^IB) (R146). -/
def directSlots (ib limit : Nat) : Nat := min limit (2 ^ ib)

/-- Avail = D + 16 × (S − D) (R146). -/
def availableSlots (ib limit : Nat) : Nat :=
  directSlots ib limit + blockSlots * (2 ^ ib - directSlots ib limit)

/-- Dd, the number of direct words for n ops (R147). -/
def directCount (n d : Nat) : Nat := if n ≤ d then n else d

/-- P, the number of pointer words for n ops: ceil((n − d) / 16) past the direct slots (R147). -/
def blockCount (n d : Nat) : Nat := if n ≤ d then 0 else (n - d + (blockSlots - 1)) / blockSlots

/-- The dictionary for ops in rank order: direct words, pointer words, extension words (R147). -/
def layoutWords (ib : BitVec 4) (dd p : Nat) (ops : List Op) : List Word :=
  (ops.take dd).map (controlWord ib)
    ++ (List.range p).map (fun b => longWord (BitVec.ofNat 20 (dd + p + blockSlots * b)))
    ++ (ops.drop dd).map (controlWord (BitVec.ofNat 4 offsetBits))

/-- The path of the op of rank k (R148). -/
def pathOfRank (ib : BitVec 4) (dd k : Nat) : Path :=
  if k < dd then .direct (BitVec.ofNat 15 k) ib
  else .extended (BitVec.ofNat 15 (dd + (k - dd) / blockSlots)) ib (BitVec.ofNat 4 ((k - dd) % blockSlots))

/-- PATHS after a build: the path of each op's rank (R148). -/
def buildPaths (ib : BitVec 4) (dd : Nat) (opt : List (Op × Word)) : List (Op × Path) :=
  opt.map fun e => (e.1, pathOfRank ib dd (((rankOrder opt).map Prod.fst).idxOf e.1))

/-! ## The dictionary builder -/

/-- SEQ_CLEAR (R143). -/
def execSeqClear (s : State) : Host.Outcome State Fault Refusal :=
  command s
    (if s.encOpen then raise .contract (Instr.seqClear).cmdWord 0
    else .ok ({ s with opt := [], paths := [], phase := .accumulate, seqDirect := 0, seqBlocks := 0, seqIb := 0 }, 0))

/-- SEQ_ADD (R144). -/
def execSeqAdd (type : CtrlType) (param : Word) (s : State) : Host.Outcome State Fault Refusal :=
  command s
    (if s.phase = .built then raise .contract (Instr.seqAdd type param).cmdWord 0
    else
      match opOf type param with
      | none => raise .paramRange param maxParam
      | some op =>
        let known := Table.find s.opt op
        if known = none ∧ s.opt.length = s.caps.optab.ops then
          raise .bufferFull optInfo (natInfo s.caps.optab.ops)
        else
          let f := known.getD 0
          if f = 0xFFFFFFFF then raise .counterOverflow (typeInfo type) param
          else .ok ({ s with opt := Table.set s.opt op (f + 1) }, (f + 1).setWidth 64))

/-- SEQ_BUILD (R149). -/
def execSeqBuild (s : State) : Host.Outcome State Fault Refusal :=
  command s
    (if s.encOpen then raise .contract (Instr.seqBuild).cmdWord 0
    else
      let ib := s.indexBits
      let n := s.opt.length
      let d := directSlots ib.toNat s.directLimit.toNat
      let avail := availableSlots ib.toNat s.directLimit.toNat
      if avail < n then raise .dictOverflow (natInfo n) (natInfo avail)
      else
        let dd := directCount n d
        let p := blockCount n d
        let words := layoutWords ib dd p ((rankOrder s.opt).map Prod.fst)
        if s.caps.dict.units < words.length then raise .bufferFull (spaceInfo .dict) (natInfo s.caps.dict.units)
        else
          .ok ({ s with
            dict := Memory.writeAll s.dict 0 words
            dictLen := BitVec.ofNat 21 words.length
            paths := buildPaths ib dd s.opt
            phase := .built
            seqIb := ib
            seqDirect := BitVec.ofNat 16 dd
            seqBlocks := BitVec.ofNat 16 p }, BitVec.ofNat 64 words.length))

/-- A path as SEQ_PATH returns it (R150). -/
def pathResult : Path → DWord
  | .direct i _ => i.setWidth 64
  | .extended i _ o => 0#39 ++ 1#1 ++ 0#4 ++ o ++ 0#1 ++ i

/-- SEQ_PATH (R150). -/
def execSeqPath (type : CtrlType) (param : Word) (s : State) : Host.Outcome State Fault Refusal :=
  command s
    (if s.phase ≠ .built then raise .contract (Instr.seqPath type param).cmdWord 0
    else
      match (opOf type param).bind (Table.find s.paths) with
      | none => raise .unknownOp (typeInfo type) param
      | some path => .ok (s, pathResult path))

/-! ## The frame encoder -/

/-- The (value, width) fragments of a path, in order (R148). -/
def Path.frags : Path → List (Nat × Nat)
  | .direct i ib => [(i.toNat, ib.toNat)]
  | .extended i ib o => [(i.toNat, ib.toNat), (o.toNat, offsetBits)]

/-- Put each fragment in order (R151). -/
def putFrags : List (Nat × Nat) → State → Attempt State
  | [], s => .ok s
  | (v, n) :: fs, s => do
    let t ← putBits n v s
    putFrags fs t

/-- WritePath(op) (R151). Every op it is asked for has a path in a reachable state (log entry 8). -/
def writePath (op : Op) (s : State) : Attempt State :=
  match Table.find s.paths op with
  | none => raise .unknownOp (typeInfo op.type) (op.param.setWidth 32)
  | some path => putFrags path.frags s

/-- Marker(op, L): a skip op's path and its 5-bit run length (R151). -/
def marker (op : Op) (len : Nat) (s : State) : Attempt State := do
  let t ← writePath op s
  putBits skipLenBits len t

/-- SEQ_FRAME_BEGIN (R152). -/
def execSeqFrameBegin (s : State) : Host.Outcome State Fault Refusal :=
  command s
    (if s.phase ≠ .built ∨ s.encOpen then raise .contract (Instr.seqFrameBegin).cmdWord 0
    else .ok ({ s with bwBits := 0, encOpen := true, encPend := 0, encCol := 0 }, 0))

/-- SEQ_EMIT of a skip op: coalesced into markers (R153, R154), or one marker each while HTILES is unset (R155). Once a
marker has brought ENC_PEND back to 0, ENC_SKIPOP keeps the op of that run: DESIGN CHOICE (log entry 21), since
10_state.md R48 defines it only while ENC_PEND > 0. -/
def emitSkip (op : Op) (s : State) : Attempt State :=
  if s.hTiles = 0 then marker op 1 s
  else
    let t := { s with encSkipop := if s.encPend = 0 then op else s.encSkipop, encPend := s.encPend + 1 }
    if s.encCol.toNat = s.hTiles.toNat - 1 then do
      let u ← marker t.encSkipop skipToRowEnd t
      pure { u with encPend := 0 }
    else if t.encPend.toNat = skipMaxRun then do
      let u ← marker t.encSkipop skipMaxRun t
      pure { u with encPend := 0 }
    else .ok t

/-- Write the pending skips, if any, as one marker with L = their count (R153, R156). ENC_SKIPOP keeps its op (log
entry 21). -/
def flushSkips (s : State) : Attempt State :=
  if s.encPend = 0 then .ok s
  else do
    let t ← marker s.encSkipop s.encPend.toNat s
    pure { t with encPend := 0 }

/-- SEQ_EMIT of any other op: the pending skips, then the op's path (R153). -/
def emitOther (op : Op) (s : State) : Attempt State := do
  let t ← flushSkips s
  writePath op t

/-- ENC_COL moves to the next column of the tile row while HTILES is set (R153). -/
def advanceColumn (s : State) : State :=
  if s.hTiles = 0 then s
  else { s with encCol := BitVec.ofNat 16 ((s.encCol.toNat + 1) % s.hTiles.toNat) }

/-- What SEQ_EMIT writes for an op that has a path (R153). -/
def emitOp (op : Op) (s : State) : Attempt State := if op.type = .skip then emitSkip op s else emitOther op s

/-- SEQ_EMIT (R153). -/
def execSeqEmit (type : CtrlType) (param : Word) (s : State) : Host.Outcome State Fault Refusal :=
  command s
    (if !s.encOpen then raise .contract (Instr.seqEmit type param).cmdWord 0
    else
      match opOf type param with
      | none => raise .unknownOp (typeInfo type) param
      | some op =>
        if Table.find s.paths op = none then raise .unknownOp (typeInfo type) param
        else do
          let t ← emitOp op s
          pure (advanceColumn t, t.bwBits.setWidth 64))

/-- SEQ_FRAME_END (R156). -/
def execSeqFrameEnd (s : State) : Host.Outcome State Fault Refusal :=
  command s
    (if !s.encOpen then raise .contract (Instr.seqFrameEnd).cmdWord 0
    else do
      let t ← flushSkips s
      pure ({ t with encPend := 0, encCol := 0, encOpen := false }, t.bwBits.setWidth 64))

end Sys2Proof.Machine
end

