-- ==== Sys2Proof/Machine/Dispatch.lean ====
section
/-! DEFINITION. The meaning of each command: one arm per constructor of Instr. -/

namespace Sys2Proof.Machine

open Sys2Proof

def exec (i : Instr) (s : State) : Host.Outcome State Fault Refusal :=
  match i with
  | .nop => Sys2Proof.Machine.execNop s
  | .regRd reg => Sys2Proof.Machine.execRegRd reg s
  | .regWr reg value => Sys2Proof.Machine.execRegWr reg value s
  | .memRd space addr => Sys2Proof.Machine.execMemRd space addr s
  | .memWr space addr value => Sys2Proof.Machine.execMemWr space addr value s
  | .softReset => Sys2Proof.Machine.execSoftReset s
  | .bwWrite n value => Sys2Proof.Machine.execBwWrite n value s
  | .bwClear => Sys2Proof.Machine.execBwClear s
  | .brRead n => Sys2Proof.Machine.execBrRead n s
  | .brAdvance a => Sys2Proof.Machine.execBrAdvance a s
  | .brExhausted => Sys2Proof.Machine.execBrExhausted s
  | .mwWrite k value => Sys2Proof.Machine.execMwWrite k value s
  | .mwClear => Sys2Proof.Machine.execMwClear s
  | .mrRead k => Sys2Proof.Machine.execMrRead k s
  | .maskWidth type => Sys2Proof.Machine.execMaskWidth type s
  | .cwOf count type param => Sys2Proof.Machine.execCwOf count type param s
  | .cwLong offset => Sys2Proof.Machine.execCwLong offset s
  | .cwCount w => Sys2Proof.Machine.execCwCount w s
  | .cwType w => Sys2Proof.Machine.execCwType w s
  | .cwParam w => Sys2Proof.Machine.execCwParam w s
  | .cwLongoff w => Sys2Proof.Machine.execCwLongoff w s
  | .cwIslong w => Sys2Proof.Machine.execCwIslong w s
  | .cwPacked times word => Sys2Proof.Machine.execCwPacked times word s
  | .dictPack => Sys2Proof.Machine.execDictPack s
  | .dictUnpack => Sys2Proof.Machine.execDictUnpack s
  | .seqClear => Sys2Proof.Machine.execSeqClear s
  | .seqAdd type param => Sys2Proof.Machine.execSeqAdd type param s
  | .seqBuild => Sys2Proof.Machine.execSeqBuild s
  | .seqPath type param => Sys2Proof.Machine.execSeqPath type param s
  | .seqFrameBegin => Sys2Proof.Machine.execSeqFrameBegin s
  | .seqEmit type param => Sys2Proof.Machine.execSeqEmit type param s
  | .seqFrameEnd => Sys2Proof.Machine.execSeqFrameEnd s
  | .cwResolve => Sys2Proof.Machine.execCwResolve s
  | .streamNext => Sys2Proof.Machine.execStreamNext s

end Sys2Proof.Machine
end

