-- ==== Sys2Proof/Machine/Command.lean ====
section
/-! DEFINITION. What the block does with one command: Step(CMD, DIN) of 40_block_control.md R102. -/

namespace Sys2Proof.Machine

open Sys2Proof

/-- The decode checks of 30_encoding.md R87, then the command's own meaning (40_block_control.md R102). -/
def commandStep (c : Command) (s : State) : Host.Outcome State Fault Refusal :=
  match decode c with
  | .ok i => exec i s
  | .error _ => rejectCommand c.cmd s

end Sys2Proof.Machine
end

