-- ==== Sys2Proof/Machine/Step.lean ====
section
/-! DEFINITION. One step: the block takes the next command the host has issued (40_block_control.md R102). -/

namespace Sys2Proof.Machine

open Sys2Proof

/-- One step takes the first pending command and runs it; while none is pending nothing happens (10_state.md R20,
R24; log entry 1). -/
def step (s : State) : Host.Outcome State Fault Refusal :=
  match s.pending with
  | [] => .next s
  | c :: rest => commandStep c { s with pending := rest }

/-- The state in which the host has issued, as the next command, the one a table word stands for. -/
def State.withFetchWord (s : State) (nbits w : Nat) : State := s.issue (commandOfTableWord nbits w)

end Sys2Proof.Machine
end

