-- ==== Sys2Proof/Machine/Pseudo.lean ====
section
/-! DEFINITION. The host's pseudo-commands and their expansions (30_encoding.md R86). They are lists of commands beside
the machine, not commands of it. -/

namespace Sys2Proof.Machine

open Sys2Proof

/-- The pseudo-commands (R86). BR_CONSUME holds any integer; only one of format W8 has an encodable expansion (log
entry 23). -/
inductive PseudoCommand where
  | brLoad (bytes : List Byte)
  | mrLoad (bytes : List Byte)
  | dictLoad (words : List Word)
  | serLoad (bytes : List Byte)
  | brConsume (n : Int)
  | seqBitstream (ops : List (CtrlType × Word))
  | errClr
  deriving DecidableEq, Repr

/-- MEM_WR of each unit from address a on, then REG_WR of the length register. -/
def loadSpace (sp : Space) (lengthReg : Reg) (units : List Word) : List Instr :=
  units.zipIdx.map (fun u => Instr.memWr sp (BitVec.ofNat 20 u.2) u.1) ++ [.regWr lengthReg (natInfo units.length)]

/-- The expansion of a pseudo-command (R86). -/
def PseudoCommand.expand : PseudoCommand → List Instr
  | .brLoad bs => loadSpace .br .brLen (bs.map (·.setWidth 32))
  | .mrLoad bs => loadSpace .mr .mrLen (bs.map (·.setWidth 32))
  | .dictLoad ws => loadSpace .dict .dictLen ws
  | .serLoad bs => loadSpace .ser .serLen (bs.map (·.setWidth 32))
  | .brConsume n => [.brRead n, .brAdvance n]
  | .seqBitstream ops => .seqFrameBegin :: ops.map (fun o => Instr.seqEmit o.1 o.2) ++ [.seqFrameEnd]
  | .errClr => [.regWr .status 0]

/-- Commands in order, stopping at the first that fails: "An expansion stops at the first command that fails" (R86). -/
def runCommands : List Instr → State → Host.Outcome State Fault Refusal
  | [], s => .next s
  | i :: is, s =>
    match exec i s with
    | .next t => if t.resp = .ok then runCommands is t else .next t
    | .fault r => .fault r
    | .refused r => .refused r

/-- Run a pseudo-command. Where its expansion holds a term that no command word encodes (BR_CONSUME of a number outside
format W8), this is what exec gives that term and stands for no run of the block (log entry 23). -/
def PseudoCommand.run (p : PseudoCommand) (s : State) : Host.Outcome State Fault Refusal := runCommands p.expand s

end Sys2Proof.Machine
end

