-- ==== Sys2Proof/Safety.lean ====
section
/-! DEFINITION. The terms claims use: the legal states of the block, what a writer appended, what a reader sees, the
pointer chains of the resolver, the register table by number, and the reserved encodings by range. -/

namespace Sys2Proof.Machine

open Sys2Proof

/-! ## Legal states -/

/-- Every space is in canonical form. -/
def State.MemoriesCanonical (s : State) : Prop :=
  Memory.wf s.br ∧ Memory.wf s.bw ∧ Memory.wf s.mr ∧ Memory.wf s.mw ∧ Memory.wf s.dict ∧ Memory.wf s.ser

/-- Every listed unit lies below its space's capacity: "an unsigned index from 0 to capacity − 1" (20_memory.md R51). -/
def State.UnitsInRange (s : State) : Prop :=
  (∀ c ∈ s.br, c.1 < s.caps.br.units) ∧ (∀ c ∈ s.bw, c.1 < s.caps.bw.units) ∧
  (∀ c ∈ s.mr, c.1 < s.caps.mr.units) ∧ (∀ c ∈ s.mw, c.1 < s.caps.mw.units) ∧
  (∀ c ∈ s.dict, c.1 < s.caps.dict.units) ∧ (∀ c ∈ s.ser, c.1 < s.caps.ser.units)

/-- Every length is at most its space's capacity (10_state.md R33 to R40; 41_bit_channel.md R113). -/
def State.LengthsInRange (s : State) : Prop :=
  ∀ sp : Space, s.length sp ≤ s.capacity sp

/-- The configuration registers hold legal values (10_state.md R30, R31). -/
def State.ConfigLegal (s : State) : Prop :=
  1 ≤ s.indexBits.toNat ∧ s.directLimit.toNat ≤ 32768

/-- The bit writer's valid bytes have been written, and the bits of its last byte past BW_BITS are 0 (20_memory.md R53;
41_bit_channel.md R112). -/
def State.BitWriterLegal (s : State) : Prop :=
  (∀ a < bytesFor s.bwBits.toNat, (Memory.read s.bw a).isSome) ∧
  (s.bwBits.toNat % 8 ≠ 0 → ∀ b, Memory.read s.bw (s.bwBits.toNat / 8) = some b →
    ∀ k < 8 - s.bwBits.toNat % 8, b.getLsbD k = false)

/-- The mask writer's valid bytes have been written (20_memory.md R55). -/
def State.MaskWriterLegal (s : State) : Prop := ∀ a < s.mwLen.toNat, (Memory.read s.mw a).isSome

/-- A path's index fragment has the captured width and fits it (44_sequencer.md R148). -/
def Path.Fits (ib : BitVec 4) : Path → Prop
  | .direct i w => w = ib ∧ i.toNat < 2 ^ ib.toNat
  | .extended i w _ => w = ib ∧ i.toNat < 2 ^ ib.toNat

/-- The sequencer's tables and registers agree with its phase (10_state.md R42, R46, R47). -/
def State.SequencerLegal (s : State) : Prop :=
  Table.wf s.opt ∧ s.opt.length ≤ s.caps.optab.ops ∧
  (s.phase = .accumulate → s.paths = [] ∧ s.seqIb = 0 ∧ s.seqDirect = 0 ∧ s.seqBlocks = 0) ∧
  (s.phase = .built → s.paths.map Prod.fst = s.opt.map Prod.fst ∧ 1 ≤ s.seqIb.toNat ∧
    (∀ e ∈ s.paths, e.2.Fits s.seqIb) ∧ s.seqDirect.toNat ≤ 2 ^ s.seqIb.toNat)

/-- The frame encoder's registers (10_state.md R43, R48; 44_sequencer.md R142, R154, R155). -/
def State.EncoderLegal (s : State) : Prop :=
  (s.encOpen = true → s.phase = .built) ∧
  (s.encOpen = false → s.encPend = 0 ∧ s.encCol = 0) ∧
  s.encPend.toNat ≤ 29 ∧
  (s.hTiles = 0 → s.encPend = 0 ∧ s.encCol = 0) ∧
  (s.hTiles ≠ 0 → s.encCol.toNat < s.hTiles.toNat) ∧
  (s.encPend ≠ 0 → s.encSkipop.type = .skip ∧ (Table.find s.paths s.encSkipop).isSome)

/-- The outputs and the error record (10_state.md R22; 60_exceptions.md R173, R175). -/
def State.ErrorsLegal (s : State) : Prop :=
  (s.resp ≠ .ok → s.dout = 0) ∧ s.lastErr ≠ .halted ∧
  (s.fault = true → s.lastErr = .contract ∨ s.lastErr = .illegalCmd)

/-- The states of the block: every step keeps this, and reset has it. -/
structure State.Legal (s : State) : Prop where
  memories : s.MemoriesCanonical
  units : s.UnitsInRange
  lengths : s.LengthsInRange
  config : s.ConfigLegal
  bitWriter : s.BitWriterLegal
  maskWriter : s.MaskWriterLegal
  sequencer : s.SequencerLegal
  encoder : s.EncoderLegal
  errors : s.ErrorsLegal

/-- Every unit below BR_LEN has been written. -/
def State.ReaderLoaded (s : State) : Prop := ∀ a < s.brLen.toNat, (Memory.read s.br a).isSome

/-- Every unit below MR_LEN has been written. -/
def State.MaskLoaded (s : State) : Prop := ∀ a < s.mrLen.toNat, (Memory.read s.mr a).isSome

/-- Every unit below DICT_LEN has been written. -/
def State.DictLoaded (s : State) : Prop := ∀ a < s.dictLen.toNat, (Memory.read s.dict a).isSome

/-- Every unit below SER_LEN has been written. -/
def State.SerLoaded (s : State) : Prop := ∀ a < s.serLen.toNat, (Memory.read s.ser a).isSome

/-- The host has raised no length register over units it has not written, the condition of 20_memory.md R59 and
93_implementation_defined.md U3 under which no read is undefined. -/
def State.Loaded (s : State) : Prop := s.ReaderLoaded ∧ s.MaskLoaded ∧ s.DictLoaded ∧ s.SerLoaded

/-! ## Bits and fields of a stream -/

/-- Stream bit i of a byte buffer: bit 7 − (i mod 8) of byte i div 8 (00_scope.md R12). -/
def bufferBit (m : List Host.Cell) (i : Nat) : Bool :=
  match Memory.read m (i / 8) with
  | some b => b.getLsbD (7 - i % 8)
  | none => false

/-- Stream bit i as the bit reader sees it: 0 at and past the end (41_bit_channel.md R109). -/
def streamBit (s : State) (i : Nat) : Bool := decide (i < 8 * s.brLen.toNat) && bufferBit s.br i

/-- The n stream bits from pos on as a number, the first bit most significant (41_bit_channel.md R110). -/
def streamField (s : State) (pos : Nat) : Nat → Nat
  | 0 => 0
  | n + 1 => (streamBit s pos).toNat * 2 ^ n + streamField s (pos + 1) n

/-- The bits of (value, width) fields in stream order, each most significant bit first (20_memory.md R60). -/
def fieldBits (fs : List (Nat × Nat)) : List Bool :=
  fs.flatMap fun f => (List.range f.2).map fun k => f.1.testBit (f.2 - 1 - k)

/-- How many bits the fields take. -/
def fieldWidth (fs : List (Nat × Nat)) : Nat := (fs.map Prod.snd).sum

/-- From s to t the bit writer appended exactly these fields (41_bit_channel.md R111, R112): the count, the earlier
bits, the new bits, the zero pad bits, and every byte of BW outside those the append touches. -/
def Appended (s t : State) (fs : List (Nat × Nat)) : Prop :=
  t.bwBits.toNat = s.bwBits.toNat + fieldWidth fs ∧
  (∀ i < s.bwBits.toNat, bufferBit t.bw i = bufferBit s.bw i) ∧
  (∀ k < fieldWidth fs, bufferBit t.bw (s.bwBits.toNat + k) = (fieldBits fs).getD k false) ∧
  (∀ i, t.bwBits.toNat ≤ i → i < 8 * bytesFor t.bwBits.toNat → bufferBit t.bw i = false) ∧
  (∀ a < bytesFor t.bwBits.toNat, (Memory.read t.bw a).isSome) ∧
  (∀ a, a < s.bwBits.toNat / 8 ∨ bytesFor t.bwBits.toNat ≤ a → Memory.read t.bw a = Memory.read s.bw a)

/-- Fields of this many bits in all fit into BW (41_bit_channel.md R113). -/
def State.RoomFor (s : State) (bits : Nat) : Prop := bytesFor (s.bwBits.toNat + bits) ≤ s.caps.bw.units

/-! ## The resolver's chains -/

/-- The dictionary word at an index below DICT_LEN. -/
def dictAt (s : State) (idx : Nat) : Option Word :=
  if idx < s.dictLen.toNat then Memory.read s.dict idx else none

/-- Following h long-offset pointers from the fragment of `frag` bits at `pos` that selected index `idx` leads to the
fragment of `frag'` bits at `pos'` that selects index `idx'` (45_resolver.md R160, R161): each hop consumes the fragment
that selected the pointer and reads a 4-bit offset into the block the pointer names. -/
inductive Chain (s : State) : (h pos frag idx pos' frag' idx' : Nat) → Prop where
  | here (pos frag idx : Nat) : Chain s 0 pos frag idx pos frag idx
  | hop {h pos frag idx pos' frag' idx' : Nat} {w : Word} :
      dictAt s idx = some w → w.toNat / 2 ^ 20 % 2 ^ 4 = 0 → pos + frag ≤ cursorMax →
      Chain s h (pos + frag) 4 (w.toNat % 2 ^ 20 + streamField s (pos + frag) 4) pos' frag' idx' →
      Chain s (h + 1) pos frag idx pos' frag' idx'

/-- The chain of h pointers that a resolve at the cursor follows (45_resolver.md R160). -/
def ResolveChain (s : State) (h pos frag idx : Nat) : Prop :=
  Chain s h s.brPos.toNat s.indexBits.toNat (streamField s s.brPos.toNat s.indexBits.toNat) pos frag idx

/-! ## Registers by number, and reserved encodings by range -/

/-- STATUS as a sum of its fields (10_state.md R28). -/
def statusNat (s : State) : Nat :=
  s.fault.toNat + 2 * s.streamStop.toNat + 4 * (decide (8 * s.brLen.toNat ≤ s.brPos.toNat)).toNat
    + 8 * (decide (s.phase = .built)).toNat + 16 * s.encOpen.toNat + 2 ^ 8 * s.lastErr.bits.toNat

/-- What the registers 0x00 to 0x1C read as, in the order of their numbers (10_state.md R26). -/
def registerTable (s : State) : List Nat :=
  [0x48533207, statusNat s, s.errA.toNat, s.errB.toNat, s.indexBits.toNat, s.directLimit.toNat, s.hTiles.toNat,
   s.brLen.toNat, s.brPos.toNat, s.bwBits.toNat, s.mrLen.toNat, s.mrPos.toNat, s.mwLen.toNat, s.dictLen.toNat,
   s.serLen.toNat, s.opt.length % 2 ^ 32, s.seqDirect.toNat, s.seqBlocks.toNat, s.encPend.toNat, s.encCol.toNat, 100,
   s.caps.br.units, s.caps.bw.units, s.caps.mr.units, s.caps.mw.units, s.caps.dict.units, s.caps.ser.units,
   s.caps.optab.ops, s.seqIb.toNat]

/-- The "reset" column of the register map (10_state.md R26), the seven capacity registers reading their parameters. -/
def resetColumn (caps : Config.Capacities) : List Nat :=
  [0x48533207, 4, 0, 0, 12, 4096, 0, 0, 0, 0, 0, 0, 0, 0, 0, 0, 0, 0, 0, 0, 100,
   caps.br.units, caps.bw.units, caps.mr.units, caps.mw.units, caps.dict.units, caps.ser.units, caps.optab.ops, 0]

/-- The reserved OPC values (30_encoding.md R82). -/
def ReservedOpcode (o : Nat) : Prop :=
  (0x06 ≤ o ∧ o ≤ 0x0F) ∨ (0x12 ≤ o ∧ o ≤ 0x17) ∨ (0x1B ≤ o ∧ o ≤ 0x1F) ∨ (0x22 ≤ o ∧ o ≤ 0x27) ∨
  (0x2A ≤ o ∧ o ≤ 0x2F) ∨ (0x3A ≤ o ∧ o ≤ 0x3F) ∨ o = 0x47 ∨ (0x4A ≤ o ∧ o ≤ 0xFF)

/-- OPCs of formats Z and D, which have no operand field (30_encoding.md R75, R81). -/
def bareOpcodes : List Nat :=
  [0x00, 0x05, 0x11, 0x1A, 0x21, 0x31, 0x32, 0x33, 0x34, 0x35, 0x36, 0x38, 0x39, 0x40, 0x42, 0x44, 0x46, 0x48, 0x49]

/-- OPCs whose format uses no DIN bit (30_encoding.md R75, R81). -/
def dinlessOpcodes : List Nat :=
  [0x00, 0x01, 0x03, 0x05, 0x11, 0x18, 0x19, 0x1A, 0x21, 0x28, 0x29, 0x38, 0x39, 0x40, 0x42, 0x44, 0x46, 0x48, 0x49]

/-- A reserved field that is not zero, a reserved register number or a reserved space number, in the operand bits f of
a command with opcode o (30_encoding.md R75, R83). -/
def ReservedOperand (o f : Nat) : Prop :=
  (o ∈ bareOpcodes ∧ f ≠ 0) ∨
  (o ∈ [0x01, 0x02] ∧ (2 ^ 8 ≤ f ∨ 0x1D ≤ f)) ∨
  (o ∈ [0x03, 0x04] ∧ 6 ≤ f / 2 ^ 20) ∨
  (o ∈ [0x10, 0x18, 0x20, 0x28, 0x37] ∧ 2 ^ 8 ≤ f) ∨
  (o ∈ [0x29, 0x41, 0x43, 0x45] ∧ 2 ^ 3 ≤ f) ∨
  (o = 0x30 ∧ f % 2 ^ 17 ≠ 0)

/-- ILLEGAL_CMD(CMD, 0) and nothing else (60_exceptions.md R171, R173). -/
def illegalState (s : State) (cmd : Word) : State :=
  { s with resp := .illegalCmd, dout := 0, lastErr := .illegalCmd, errA := cmd, errB := 0, fault := true }

/-- CONTRACT(a, b) and nothing else (60_exceptions.md R171, R173). -/
def contractState (s : State) (a b : Word) : State :=
  { s with resp := .contract, dout := 0, lastErr := .contract, errA := a, errB := b, fault := true }

/-- An error that neither halts nor stops the stream, and nothing else (60_exceptions.md R171, R173). -/
def reportState (s : State) (e : ErrCode) (a b : Word) : State :=
  { s with resp := e, dout := 0, lastErr := e, errA := a, errB := b }

/-- A corrupt-stream error, which sets STREAM_STOP, and nothing else (45_resolver.md R165; 60_exceptions.md R173). -/
def corruptState (s : State) (e : ErrCode) (a b : Word) : State :=
  { s with resp := e, dout := 0, lastErr := e, errA := a, errB := b, streamStop := true }

/-- HALTED and nothing else (60_exceptions.md R175). -/
def haltedState (s : State) : State := { s with resp := .halted, dout := 0 }

end Sys2Proof.Machine
end

