-- ==== Sys2Proof/Certificates/Slice0/Obligations.lean ====
section
/-! DEFINITION. The statements for the provers. A command's own result is stated with STATUS.FAULT = 0 as premise;
`Obligations.FaultHaltsUntilReset` says what every command does while it is 1. -/

open Sys2Proof Sys2Proof.Machine

/-! ## Encoding and the command step -/

/-- Decode and encode agree (30_encoding.md E1 to E3): every well-formed instruction, with every operand value its
format admits, is read back from its encoding. -/
def Obligations.DecodeInvertsEncode : Prop :=
  ∀ i : Instr, i.wf = true → decode (encode i) = .ok i

/-- The decoder drops no bit of CMD: an accepted command word is the encoding of the instruction it is read as, and
that instruction is well formed. -/
def Obligations.AcceptedWordIsItsEncoding : Prop :=
  ∀ (c : Command) (i : Instr), decode c = .ok i → i.wf = true ∧ i.cmdWord = c.cmd

/-- A few command words, written from 30_encoding.md R75 and R81, are read as the instructions they stand for. How
a table word numbers the bits of CMD and DIN is the model's choice (log entry 10). -/
def Obligations.SampleWordsDecode : Prop :=
  decodeTableWord 32 0x00000000 = some .nop ∧
  decodeTableWord 32 0x01000001 = some (.regRd .status) ∧
  decodeTableWord 96 0x00000000000000A104600007 = none ∧
  decodeTableWord 96 0x00000000000000A104000007 = some (.memWr .br 7 0xA1) ∧
  decodeTableWord 32 0x100000FF = some (.bwWrite (-1) 0) ∧
  decodeTableWord 32 0x19FFFFFF = some (.brAdvance (-1)) ∧
  decodeTableWord 96 0x000000000000012330C40000 = some (.cwOf 12 .m4 0x123) ∧
  decodeTableWord 32 0x29000003 = some (.maskWidth .m8) ∧
  decodeTableWord 96 0x000000000000000845000001 = some (.seqEmit .m2 8) ∧
  decodeTableWord 32 0x47000000 = none

/-- A step takes the first pending command and runs the instruction it decodes to, or answers as `commandStep` does where
it decodes to none; with none pending nothing happens. The list of pending commands is the model's choice (log
entry 1). -/
def Obligations.StepRunsDecodedCommand : Prop :=
  (∀ (s : State) (c : Command) (rest : List Command) (i : Instr),
    s.pending = c :: rest → decode c = .ok i → step s = exec i { s with pending := rest }) ∧
  (∀ (s : State) (c : Command) (rest : List Command),
    s.pending = c :: rest → step s = commandStep c { s with pending := rest }) ∧
  (∀ s : State, s.pending = [] → step s = .next s)

/-- 30_encoding.md R82. The reserved OPC values are exactly those no command has, and each raises ILLEGAL_CMD with no
other effect (in a block that is not halted: R87 checks FAULT first). -/
def Obligations.ReservedOpcodeRaisesIllegalCmd : Prop :=
  (∀ o : Byte, ReservedOpcode o.toNat ↔ ∀ i : Instr, i.opcode ≠ o) ∧
  (∀ (s : State) (c : Command), s.fault = false → ReservedOpcode (c.cmd.toNat / 2 ^ 24) →
    commandStep c s = .next (illegalState s c.cmd))

/-- 30_encoding.md R83. A non-zero reserved field, a reserved register or a reserved space raises ILLEGAL_CMD with no
other effect; REG_RD and SOFT_RESET do so even while FAULT = 1 (R87). -/
def Obligations.ReservedOperandRaisesIllegalCmd : Prop :=
  ∀ (s : State) (c : Command),
    s.fault = false ∨ c.cmd.toNat / 2 ^ 24 = 0x01 ∨ c.cmd.toNat / 2 ^ 24 = 0x05 →
    ReservedOperand (c.cmd.toNat / 2 ^ 24) (c.cmd.toNat % 2 ^ 24) →
    commandStep c s = .next (illegalState s c.cmd)

/-- 30_encoding.md R80. DIN bits beyond those a format uses change nothing a command does: no bit for a command without
data, bits [63:32] for every command but MW_WRITE. For a MEM_WR into a byte space bits [63:8] change nothing either:
that is 40_block_control.md R107, as log entry 20 (DEDUCED) reads it. -/
def Obligations.UnusedDinBitsAreIgnored : Prop :=
  ∀ (s : State) (cmd : Word) (din din' : DWord),
    (cmd.toNat / 2 ^ 24 ∈ dinlessOpcodes) ∨
    (cmd.toNat / 2 ^ 24 ≠ 0x20 ∧ din.toNat % 2 ^ 32 = din'.toNat % 2 ^ 32) ∨
    (cmd.toNat / 2 ^ 24 = 0x04 ∧ cmd.toNat / 2 ^ 20 % 2 ^ 4 ≠ 4 ∧ din.toNat % 2 ^ 8 = din'.toNat % 2 ^ 8) →
    commandStep ⟨cmd, din⟩ s = commandStep ⟨cmd, din'⟩ s

/-! ## Errors, FAULT and STREAM_STOP -/

/-- 60_exceptions.md R174. A command that fails changes nothing but the error effects of R173. -/
def Obligations.FailedCommandHasOnlyErrorEffects : Prop :=
  ∀ (s t : State) (c : Command), commandStep c s = .next t → t.resp ≠ .ok →
    t = { s with
      resp := t.resp
      dout := 0
      lastErr := if t.resp = .halted then s.lastErr else t.resp
      errA := if t.resp = .halted then s.errA else t.errA
      errB := if t.resp = .halted then s.errB else t.errB
      fault := s.fault || decide (t.resp = .contract ∨ t.resp = .illegalCmd)
      streamStop := s.streamStop
        || decide (t.resp = .indexRange ∨ t.resp = .hopLimit ∨ t.resp = .unknownType) }

/-- 60_exceptions.md R175. While FAULT = 1 every command but REG_RD and SOFT_RESET raises HALTED, which has no other
effect; nothing but SOFT_RESET clears FAULT; REG_RD and SOFT_RESET run. -/
def Obligations.FaultHaltsUntilReset : Prop :=
  (∀ (s : State) (c : Command), s.fault = true → c.cmd.toNat / 2 ^ 24 ≠ 0x01 → c.cmd.toNat / 2 ^ 24 ≠ 0x05 →
    commandStep c s = .next (haltedState s)) ∧
  (∀ (s t : State) (c : Command), s.fault = true → commandStep c s = .next t → t.fault = false →
    decode c = .ok .softReset) ∧
  (∀ (s : State) (i : Instr), s.fault = true → i ≠ .softReset → (∀ r, i ≠ .regRd r) →
    exec i s = .next (haltedState s)) ∧
  (∀ s : State, ∃ t, exec .softReset s = .next t ∧ t.fault = false ∧ t.resp = .ok) ∧
  (∀ (s : State) (r : Reg), ∃ t, exec (.regRd r) s = .next t ∧ t.resp = .ok)

/-- 60_exceptions.md R176. A success keeps the error record unless it is a REG_WR to STATUS or a reset, and an error
that does not halt leaves FAULT as it was. -/
def Obligations.ErrorRecordIsKept : Prop :=
  ∀ (s t : State) (i : Instr), exec i s = .next t →
    (t.resp = .ok → i ≠ .softReset → (∀ v, i ≠ .regWr .status v) →
      t.lastErr = s.lastErr ∧ t.errA = s.errA ∧ t.errB = s.errB) ∧
    (t.resp = .ok → (∃ v, i = .regWr .status v) → t.lastErr = .ok ∧ t.errA = 0 ∧ t.errB = 0) ∧
    (t.resp ≠ .ok → t.resp ≠ .halted → t.lastErr = t.resp) ∧
    (t.resp ≠ .contract → t.resp ≠ .illegalCmd → i ≠ .softReset → t.fault = s.fault)

/-- 45_resolver.md R165. STREAM_STOP is set by the three corrupt-stream errors, which only CW_RESOLVE and STREAM_NEXT
raise; while it is 1 both raise STREAM_STOPPED and change nothing else; only a REG_WR to BR_LEN and reset clear it. -/
def Obligations.StreamStopLifecycle : Prop :=
  (∀ (s t : State) (i : Instr), exec i s = .next t → s.streamStop = false →
    (t.streamStop = true ↔ t.resp = .indexRange ∨ t.resp = .hopLimit ∨ t.resp = .unknownType)) ∧
  (∀ (s t : State) (i : Instr), exec i s = .next t →
    t.resp = .indexRange ∨ t.resp = .hopLimit ∨ t.resp = .unknownType → i = .cwResolve ∨ i = .streamNext) ∧
  (∀ s : State, s.fault = false → s.streamStop = true →
    exec .cwResolve s = .next (reportState s .streamStopped 0 0) ∧
    exec .streamNext s = .next (reportState s .streamStopped 0 0)) ∧
  (∀ (s t : State) (i : Instr), exec i s = .next t → s.streamStop = true → t.streamStop = false →
    i = .softReset ∨ ∃ v, i = .regWr .brLen v)

/-! ## What may change what -/

/-- 20_memory.md R51 (its column "written by"), 10_state.md R33, R34, R36, R37 and R45: a space changes only by its
writers, BR_POS and MR_POS only by the commands that move them, the capacities never. That a command leaves the pending
commands as they are is the model's choice (log entry 1). A reset leaves the spaces unspecified: that it unlists them is
the model's choice (log entry 3). -/
def Obligations.StateChangesOnlyByItsCommands : Prop :=
  ∀ (s t : State) (i : Instr), exec i s = .next t → i ≠ .softReset →
    (t.br ≠ s.br → ∃ a v, i = .memWr .br a v) ∧
    (t.bw ≠ s.bw → (∃ n v, i = .bwWrite n v) ∨ (∃ ty p, i = .seqEmit ty p) ∨ i = .seqFrameEnd) ∧
    (t.mr ≠ s.mr → ∃ a v, i = .memWr .mr a v) ∧
    (t.mw ≠ s.mw → ∃ k v, i = .mwWrite k v) ∧
    (t.dict ≠ s.dict → (∃ a v, i = .memWr .dict a v) ∨ i = .seqBuild ∨ i = .dictUnpack) ∧
    (t.ser ≠ s.ser → (∃ a v, i = .memWr .ser a v) ∨ i = .dictPack) ∧
    (t.brPos ≠ s.brPos → (∃ a, i = .brAdvance a) ∨ i = .cwResolve ∨ i = .streamNext ∨ ∃ v, i = .regWr .brLen v) ∧
    (t.mrPos ≠ s.mrPos → (∃ k, i = .mrRead k) ∨ ∃ v, i = .regWr .mrLen v) ∧
    t.caps = s.caps ∧ t.pending = s.pending

/-- 43_control_word.md, its opening: CW_OF to CW_PACKED read and write no state. From any two states that are not
halted they give the same DOUT and RESP, and they change nothing but the outputs and, where they fail, the error record
and FAULT. -/
def Obligations.ControlWordCommandsReadNoState : Prop :=
  ∀ (i : Instr) (s s' : State), 0x30 ≤ i.opcode.toNat → i.opcode.toNat ≤ 0x37 → s.fault = false → s'.fault = false →
    ∃ t t', exec i s = .next t ∧ exec i s' = .next t' ∧ t.dout = t'.dout ∧ t.resp = t'.resp ∧
      (t.resp ≠ .ok → t.errA = t'.errA ∧ t.errB = t'.errB) ∧
      t = { s with dout := t.dout, resp := t.resp, lastErr := t.lastErr, errA := t.errA, errB := t.errB,
                   fault := t.fault }

/-! ## Reset -/

/-- 70_reset_and_hazards.md R185, R186: the registers, tables and outputs right after power-on. The capacity registers
read their parameters (log entry 2). -/
def Obligations.PowerOnResetValues : Prop :=
  (∀ r : Reg, some (State.reset.readReg r).toNat = (resetColumn State.reset.caps)[r.num.toNat]?) ∧
  State.reset.opt = [] ∧ State.reset.phase = .accumulate ∧ State.reset.paths = [] ∧
  State.reset.dout = 0 ∧ State.reset.resp = .ok

/-- 40_block_control.md SOFT_RESET and 70_reset_and_hazards.md I1: from every state, halted or not, SOFT_RESET gives every
register its reset value, empties OPT and PATHS, and clears the outputs. That no unit of a space holds a value
afterwards is the model's reading of "unspecified" (log entry 3); that further pending commands stay is log entry 1. -/
def Obligations.SoftResetRestoresResetState : Prop :=
  ∀ s : State, ∃ t, exec .softReset s = .next t ∧
    (∀ r : Reg, some (t.readReg r).toNat = (resetColumn s.caps)[r.num.toNat]?) ∧
    t.opt = [] ∧ t.phase = .accumulate ∧ t.paths = [] ∧ t.dout = 0 ∧ t.resp = .ok ∧
    (∀ (sp : Space) (a : Nat), t.unitAt sp a = none) ∧ t.caps = s.caps ∧ t.pending = s.pending

/-! ## Block control -/

/-- 40_block_control.md NOP: it completes with DOUT 0 and changes nothing else. -/
def Obligations.NopDoesNothing : Prop :=
  ∀ s : State, s.fault = false → exec .nop s = .next { s with dout := 0, resp := .ok }

/-- 40_block_control.md REG_RD and the register map of 10_state.md: from every state, halted or not, REG_RD completes
with the register's value, zero-extended, and changes nothing else. -/
def Obligations.RegRdReturnsRegister : Prop :=
  ∀ (s : State) (r : Reg), ∃ v, (registerTable s)[r.num.toNat]? = some v ∧ v < 2 ^ 32 ∧
    exec (.regRd r) s = .next { s with dout := BitVec.ofNat 64 v, resp := .ok }

/-- 40_block_control.md REG_WR of the configuration registers: the legal values are stored, any other raises
CONTRACT(CMD, V), and HTILES is refused while a frame is open. -/
def Obligations.RegWrConfiguration : Prop :=
  ∀ (s : State) (v : Word), s.fault = false →
    (1 ≤ v.toNat → v.toNat ≤ 15 →
      exec (.regWr .indexBits v) s =
        .next { s with indexBits := BitVec.ofNat 4 v.toNat, dout := BitVec.ofNat 64 v.toNat, resp := .ok }) ∧
    (v.toNat < 1 ∨ 15 < v.toNat → exec (.regWr .indexBits v) s = .next (contractState s 0x02000004 v)) ∧
    (v.toNat ≤ 32768 →
      exec (.regWr .directLimit v) s =
        .next { s with directLimit := BitVec.ofNat 16 v.toNat, dout := BitVec.ofNat 64 v.toNat, resp := .ok }) ∧
    (32768 < v.toNat → exec (.regWr .directLimit v) s = .next (contractState s 0x02000005 v)) ∧
    (v.toNat ≤ 65535 → s.encOpen = false →
      exec (.regWr .hTiles v) s =
        .next { s with hTiles := BitVec.ofNat 16 v.toNat, dout := BitVec.ofNat 64 v.toNat, resp := .ok }) ∧
    (65535 < v.toNat ∨ s.encOpen = true → exec (.regWr .hTiles v) s = .next (contractState s 0x02000006 v))

/-- 40_block_control.md REG_WR of the length registers: BR_LEN rewinds the reader and clears STREAM_STOP, MR_LEN rewinds
the mask reader; a value above the capacity raises CONTRACT(CMD, V). -/
def Obligations.RegWrLengths : Prop :=
  ∀ (s : State) (v : Word), s.fault = false →
    (v.toNat ≤ s.caps.br.units →
      exec (.regWr .brLen v) s =
        .next { s with brLen := BitVec.ofNat 21 v.toNat, brPos := 0, streamStop := false,
                       dout := BitVec.ofNat 64 v.toNat, resp := .ok }) ∧
    (s.caps.br.units < v.toNat → exec (.regWr .brLen v) s = .next (contractState s 0x02000007 v)) ∧
    (v.toNat ≤ s.caps.mr.units →
      exec (.regWr .mrLen v) s =
        .next { s with mrLen := BitVec.ofNat 21 v.toNat, mrPos := 0, dout := BitVec.ofNat 64 v.toNat, resp := .ok }) ∧
    (s.caps.mr.units < v.toNat → exec (.regWr .mrLen v) s = .next (contractState s 0x0200000A v)) ∧
    (v.toNat ≤ s.caps.dict.units →
      exec (.regWr .dictLen v) s =
        .next { s with dictLen := BitVec.ofNat 21 v.toNat, dout := BitVec.ofNat 64 v.toNat, resp := .ok }) ∧
    (s.caps.dict.units < v.toNat → exec (.regWr .dictLen v) s = .next (contractState s 0x0200000D v)) ∧
    (v.toNat ≤ s.caps.ser.units →
      exec (.regWr .serLen v) s =
        .next { s with serLen := BitVec.ofNat 21 v.toNat, dout := BitVec.ofNat 64 v.toNat, resp := .ok }) ∧
    (s.caps.ser.units < v.toNat → exec (.regWr .serLen v) s = .next (contractState s 0x0200000E v))

/-- 40_block_control.md REG_WR of STATUS and of the read-only and constant registers: the first clears the error record
and nothing else, the others raise CONTRACT(CMD, REG). -/
def Obligations.RegWrStatusAndReadOnly : Prop :=
  ∀ (s : State) (v : Word), s.fault = false →
    exec (.regWr .status v) s =
      .next { s with lastErr := .ok, errA := 0, errB := 0, dout := BitVec.ofNat 64 v.toNat, resp := .ok } ∧
    ∀ r : Reg, r.num.toNat ∉ [0x01, 0x04, 0x05, 0x06, 0x07, 0x0A, 0x0D, 0x0E] →
      exec (.regWr r v) s =
        .next (contractState s (BitVec.ofNat 32 (0x02000000 + r.num.toNat)) (BitVec.ofNat 32 r.num.toNat))

/-- What REG_WR stores, REG_RD returns (40_block_control.md): after a successful write of any register but STATUS,
reading it gives the whole value written. -/
def Obligations.RegWrThenRegRd : Prop :=
  ∀ (s t : State) (r : Reg) (v : Word), r ≠ .status → exec (.regWr r v) s = .next t → t.resp = .ok →
    exec (.regRd r) t = .next { t with dout := BitVec.ofNat 64 v.toNat, resp := .ok }

/-- 40_block_control.md MEM_RD with the length window: CONTRACT(CMD, ADDR) at or past the capacity, 0 from the length
register to the capacity, the unit's value below the length register. A unit there that nothing has written stops the
model (20_memory.md R59, 93_implementation_defined.md U3); that an unlisted unit is such a unit is log entry 3. -/
def Obligations.MemRdReadsWindow : Prop :=
  ∀ (s : State) (sp : Space) (a : BitVec 20), s.fault = false →
    (s.capacity sp ≤ a.toNat →
      exec (.memRd sp a) s =
        .next (contractState s (BitVec.ofNat 32 (0x03000000 + sp.num.toNat * 2 ^ 20 + a.toNat))
          (BitVec.ofNat 32 a.toNat))) ∧
    (a.toNat < s.capacity sp → s.length sp ≤ a.toNat →
      exec (.memRd sp a) s = .next { s with dout := 0, resp := .ok }) ∧
    (∀ v : Word, a.toNat < s.capacity sp → a.toNat < s.length sp → s.unitAt sp a.toNat = some v →
      exec (.memRd sp a) s = .next { s with dout := BitVec.ofNat 64 v.toNat, resp := .ok }) ∧
    (a.toNat < s.capacity sp → a.toNat < s.length sp → s.unitAt sp a.toNat = none →
      exec (.memRd sp a) s = .fault (.unwrittenUnit sp a.toNat))

/-- 40_block_control.md MEM_WR: it stores one unit (the low byte in a byte space), leaves every other unit of every
space, every length register and everything else unchanged, and refuses BW, MW and addresses at or past the capacity. -/
def Obligations.MemWrStoresOneUnit : Prop :=
  ∀ (s : State) (sp : Space) (a : BitVec 20) (v : Word), s.fault = false →
    (sp ≠ .bw → sp ≠ .mw → a.toNat < s.capacity sp →
      ∃ t, exec (.memWr sp a v) s = .next t ∧
        t.unitAt sp a.toNat = some (if sp = .dict then v else BitVec.ofNat 32 (v.toNat % 2 ^ 8)) ∧
        (∀ sp' b, sp' ≠ sp ∨ b ≠ a.toNat → t.unitAt sp' b = s.unitAt sp' b) ∧
        t = { s with br := t.br, mr := t.mr, dict := t.dict, ser := t.ser, dout := 0, resp := .ok }) ∧
    (sp = .bw ∨ sp = .mw →
      exec (.memWr sp a v) s =
        .next (contractState s (BitVec.ofNat 32 (0x04000000 + sp.num.toNat * 2 ^ 20 + a.toNat))
          (BitVec.ofNat 32 sp.num.toNat))) ∧
    (sp ≠ .bw → sp ≠ .mw → s.capacity sp ≤ a.toNat →
      exec (.memWr sp a v) s =
        .next (contractState s (BitVec.ofNat 32 (0x04000000 + sp.num.toNat * 2 ^ 20 + a.toNat))
          (BitVec.ofNat 32 a.toNat)))

/-! ## Bit channel -/

/-- 41_bit_channel.md BW_WRITE: a legal width with room appends the low n bits of DIN, most significant first, returns
the new BW_BITS and changes nothing else. -/
def Obligations.BwWriteAppendsField : Prop :=
  ∀ (s : State) (n : Nat) (v : Word), s.fault = false → n ≤ 32 → s.BitWriterLegal → s.RoomFor n →
    ∃ t, exec (.bwWrite n v) s = .next t ∧ Appended s t [(v.toNat, n)] ∧
      t = { s with bw := t.bw, bwBits := t.bwBits, dout := BitVec.ofNat 64 t.bwBits.toNat, resp := .ok }

/-- 41_bit_channel.md BW_WRITE: a negative or over-wide width raises CONTRACT(CMD, n), a field without room
BUFFER_FULL(1, BW_CAP). -/
def Obligations.BwWriteRefusals : Prop :=
  ∀ (s : State) (n : Int) (v : Word), s.fault = false → -128 ≤ n → n ≤ 127 →
    (n < 0 ∨ 32 < n →
      exec (.bwWrite n v) s =
        .next (contractState s (BitVec.ofNat 32 (0x10000000 + (n % 256).toNat)) (BitVec.ofInt 32 n))) ∧
    (0 ≤ n → n ≤ 32 → ¬ s.RoomFor n.toNat →
      exec (.bwWrite n v) s = .next (reportState s .bufferFull 1 (BitVec.ofNat 32 s.caps.bw.units)))

/-- 41_bit_channel.md BR_READ: the next n bits, zeros past the end, without consuming them; an illegal width raises
CONTRACT(CMD, n). -/
def Obligations.BrReadPeeksField : Prop :=
  ∀ s : State, s.fault = false →
    (∀ n : Nat, n ≤ 32 → s.ReaderLoaded →
      ∃ v : DWord, exec (.brRead n) s = .next { s with dout := v, resp := .ok } ∧ v.toNat < 2 ^ n ∧
        ∀ k < n, v.getLsbD (n - 1 - k) = streamBit s (s.brPos.toNat + k)) ∧
    (∀ n : Int, -128 ≤ n → n ≤ 127 → n < 0 ∨ 32 < n →
      exec (.brRead n) s =
        .next (contractState s (BitVec.ofNat 32 (0x18000000 + (n % 256).toNat)) (BitVec.ofInt 32 n)))

/-- 41_bit_channel.md BR_ADVANCE: the cursor moves forward, past the end too; a negative amount or a cursor past
2^32 − 1 raises CONTRACT(CMD, a). -/
def Obligations.BrAdvanceMovesCursor : Prop :=
  ∀ (s : State) (a : Int), s.fault = false → -(2 ^ 23) ≤ a → a < 2 ^ 23 →
    (0 ≤ a → s.brPos.toNat + a.toNat < 2 ^ 32 →
      exec (.brAdvance a) s =
        .next { s with brPos := BitVec.ofNat 32 (s.brPos.toNat + a.toNat),
                       dout := BitVec.ofNat 64 (s.brPos.toNat + a.toNat), resp := .ok }) ∧
    (a < 0 ∨ 2 ^ 32 ≤ s.brPos.toNat + a.toNat →
      exec (.brAdvance a) s =
        .next (contractState s (BitVec.ofNat 32 (0x19000000 + (a % 2 ^ 24).toNat)) (BitVec.ofInt 32 a)))

/-- 41_bit_channel.md BW_CLEAR and BR_EXHAUSTED: BW_CLEAR empties the writer and changes no byte of storage;
BR_EXHAUSTED gives 1 exactly when BR_POS ≥ 8 × BR_LEN, as STATUS.BR_EXH shows, and changes nothing else. -/
def Obligations.BwClearAndBrExhausted : Prop :=
  ∀ s : State, s.fault = false →
    exec .bwClear s = .next { s with bwBits := 0, dout := 0, resp := .ok } ∧
    exec .brExhausted s =
      .next { s with dout := if 8 * s.brLen.toNat ≤ s.brPos.toNat then 1 else 0, resp := .ok } ∧
    s.statusWord.getLsbD 2 = decide (8 * s.brLen.toNat ≤ s.brPos.toNat)

/-- 41_bit_channel.md, its round trip: the fields that BW_WRITEs append to an empty writer all complete, and a reader
loaded with the writer's bytes peeks each of them at its cursor, masked to its width. -/
def Obligations.BitFieldsRoundTrip : Prop :=
  ∀ (s : State) (fs : List (Word × Nat)),
    s.fault = false → s.bwBits = 0 → (∀ f ∈ fs, f.2 ≤ 32) → s.RoomFor (fs.map Prod.snd).sum →
    ∃ t, runCommands (fs.map fun f => Instr.bwWrite f.2 f.1) s = .next t ∧
      t.bwBits.toNat = (fs.map Prod.snd).sum ∧
      ∀ (pre post : List (Word × Nat)) (v : Word) (n : Nat) (u : State),
        fs = pre ++ (v, n) :: post → u.fault = false → u.brLen.toNat = bytesFor t.bwBits.toNat →
        (∀ a < bytesFor t.bwBits.toNat, Memory.read u.br a = Memory.read t.bw a) →
        u.brPos.toNat = (pre.map Prod.snd).sum →
        exec (.brRead n) u = .next { u with dout := BitVec.ofNat 64 (v.toNat % 2 ^ n), resp := .ok }

/-! ## Mask channel -/

/-- 42_mask_channel.md MW_WRITE: a legal count with room appends the low k bytes of DIN, least significant first, and
changes nothing else; an illegal count raises CONTRACT(CMD, k), a value without room BUFFER_FULL(3, MW_CAP). -/
def Obligations.MwWriteAppendsBytes : Prop :=
  ∀ (s : State) (v : DWord), s.fault = false →
    (∀ k : Nat, k ≤ 8 → s.mwLen.toNat + k ≤ s.caps.mw.units →
      ∃ t, exec (.mwWrite k v) s = .next t ∧
        t.mwLen.toNat = s.mwLen.toNat + k ∧
        (∀ j < k, Memory.read t.mw (s.mwLen.toNat + j) = some (BitVec.ofNat 8 (v.toNat / 2 ^ (8 * j)))) ∧
        (∀ a, a < s.mwLen.toNat ∨ s.mwLen.toNat + k ≤ a → Memory.read t.mw a = Memory.read s.mw a) ∧
        t = { s with mw := t.mw, mwLen := t.mwLen, dout := BitVec.ofNat 64 t.mwLen.toNat, resp := .ok }) ∧
    (∀ k : Int, -128 ≤ k → k ≤ 127 → k < 0 ∨ 8 < k →
      exec (.mwWrite k v) s =
        .next (contractState s (BitVec.ofNat 32 (0x20000000 + (k % 256).toNat)) (BitVec.ofInt 32 k))) ∧
    (∀ k : Nat, k ≤ 8 → s.caps.mw.units < s.mwLen.toNat + k →
      exec (.mwWrite k v) s = .next (reportState s .bufferFull 3 (BitVec.ofNat 32 s.caps.mw.units)))

/-- 42_mask_channel.md MW_CLEAR and MASK_WIDTH: the writer is empty and no byte of storage changes; the widths are 2, 4,
6, 8 for M2, M4, M8, M16 and 0 for every other type. -/
def Obligations.MwClearAndMaskWidth : Prop :=
  ∀ s : State, s.fault = false →
    exec .mwClear s = .next { s with mwLen := 0, dout := 0, resp := .ok } ∧
    ∀ ty : CtrlType, exec (.maskWidth ty) s =
      .next { s with
        dout := if 1 ≤ ty.code.toNat ∧ ty.code.toNat ≤ 4 then BitVec.ofNat 64 (2 * ty.code.toNat) else 0
        resp := .ok }

/-- 42_mask_channel.md MR_READ: the next k bytes, least significant first and zeros past the end, are returned and
consumed; an illegal count, or a cursor past 2^32 − 1, raises CONTRACT(CMD, k). -/
def Obligations.MrReadConsumesBytes : Prop :=
  ∀ s : State, s.fault = false →
    (∀ k : Nat, k ≤ 8 → s.mrPos.toNat + k < 2 ^ 32 → s.MaskLoaded →
      ∃ v : DWord, exec (.mrRead k) s =
          .next { s with mrPos := BitVec.ofNat 32 (s.mrPos.toNat + k), dout := v, resp := .ok } ∧
        v.toNat < 2 ^ (8 * k) ∧
        ∀ j < k, some (BitVec.ofNat 8 (v.toNat / 2 ^ (8 * j))) =
          if s.mrPos.toNat + j < s.mrLen.toNat then Memory.read s.mr (s.mrPos.toNat + j) else some 0) ∧
    (∀ k : Int, -128 ≤ k → k ≤ 127 → k < 0 ∨ 8 < k ∨ 2 ^ 32 ≤ s.mrPos.toNat + k.toNat →
      exec (.mrRead k) s =
        .next (contractState s (BitVec.ofNat 32 (0x28000000 + (k % 256).toNat)) (BitVec.ofInt 32 k)))

/-- 42_mask_channel.md, its round trip: MW_WRITE k, v into an empty writer, its bytes loaded into a mask reader, and
MR_READ k give v with bytes k to 7 zeroed. -/
def Obligations.MaskValueRoundTrip : Prop :=
  ∀ (s : State) (k : Nat) (v : DWord), s.fault = false → s.mwLen = 0 → k ≤ 8 → k ≤ s.caps.mw.units →
    ∃ t, exec (.mwWrite k v) s = .next t ∧
      ∀ u : State, u.fault = false → u.mrPos = 0 → u.mrLen.toNat = k →
        (∀ a < k, Memory.read u.mr a = Memory.read t.mw a) →
        exec (.mrRead k) u =
          .next { u with mrPos := BitVec.ofNat 32 k, dout := BitVec.ofNat 64 (v.toNat % 2 ^ (8 * k)), resp := .ok }

/-! ## Control words and packing -/

/-- 43_control_word.md CW_OF, CW_LONG and CW_PACKED: the words they build and the operands they refuse. -/
def Obligations.CwConstructors : Prop :=
  ∀ (s : State) (w : Word), s.fault = false →
    (∀ (c : BitVec 4) (ty : CtrlType), w.toNat < 2 ^ 17 →
      exec (.cwOf c ty w) s =
        .next { s with dout := BitVec.ofNat 64 (c.toNat * 2 ^ 20 + ty.code.toNat * 2 ^ 17 + w.toNat), resp := .ok }) ∧
    (∀ (c : BitVec 4) (ty : CtrlType), 2 ^ 17 ≤ w.toNat →
      exec (.cwOf c ty w) s =
        .next (contractState s (BitVec.ofNat 32 (0x30000000 + c.toNat * 2 ^ 20 + ty.code.toNat * 2 ^ 17)) w)) ∧
    (w.toNat < 2 ^ 20 →
      exec (.cwLong w) s = .next { s with dout := BitVec.ofNat 64 w.toNat, resp := .ok }) ∧
    (2 ^ 20 ≤ w.toNat → exec (.cwLong w) s = .next (contractState s 0x31000000 w)) ∧
    (∀ n : Byte, n ≠ 0 →
      exec (.cwPacked n w) s =
        .next { s with dout := BitVec.ofNat 64 (n.toNat * 2 ^ 24 + w.toNat % 2 ^ 24), resp := .ok }) ∧
    exec (.cwPacked 0 w) s = .next (contractState s 0x37000000 0)

/-- 43_control_word.md CW_COUNT, CW_TYPE, CW_PARAM, CW_LONGOFF and CW_ISLONG: the fields of any word, whatever its bits
[31:24], with no other effect. -/
def Obligations.CwAccessors : Prop :=
  ∀ (s : State) (w : Word), s.fault = false →
    exec (.cwCount w) s = .next { s with dout := BitVec.ofNat 64 (w.toNat / 2 ^ 20 % 2 ^ 4), resp := .ok } ∧
    exec (.cwType w) s = .next { s with dout := BitVec.ofNat 64 (w.toNat / 2 ^ 17 % 2 ^ 3), resp := .ok } ∧
    exec (.cwParam w) s = .next { s with dout := BitVec.ofNat 64 (w.toNat % 2 ^ 17), resp := .ok } ∧
    exec (.cwLongoff w) s = .next { s with dout := BitVec.ofNat 64 (w.toNat % 2 ^ 20), resp := .ok } ∧
    exec (.cwIslong w) s = .next { s with dout := if w.toNat / 2 ^ 20 % 2 ^ 4 = 0 then 1 else 0, resp := .ok }

/-- 43_control_word.md R136. The runs of a word list, spelled out, are the list; each holds 1 to 255 words; and a run is
followed by a run of the same word only when it is full. -/
def Obligations.RunsAreMaximalGroups : Prop :=
  ∀ d : List Word,
    (runs d).flatMap (fun r => List.replicate r.2 r.1) = d ∧
    (∀ r ∈ runs d, 1 ≤ r.2 ∧ r.2 ≤ 255) ∧
    (∀ (pre post : List (Word × Nat)) (a b : Word × Nat),
      runs d = pre ++ a :: b :: post → a.1 = b.1 → a.2 = 255)

/-- 43_control_word.md DICT_PACK with the format of 30_encoding.md: SER holds the little-endian count 3 × R and one packed
word per run, SER_LEN is 4 + 4R, nothing else changes; without room BUFFER_FULL(5, SER_CAP). -/
def Obligations.DictPackWritesSerialization : Prop :=
  ∀ (s : State) (d : List Word), s.fault = false → d.length = s.dictLen.toNat →
    (∀ k (h : k < d.length), Memory.read s.dict k = some d[k]) →
    (4 + 4 * (runs d).length ≤ s.caps.ser.units →
      ∃ t, exec .dictPack s = .next t ∧
        t.serLen.toNat = 4 + 4 * (runs d).length ∧
        (∀ j < 4, Memory.read t.ser j = some (BitVec.ofNat 8 (3 * (runs d).length / 2 ^ (8 * j)))) ∧
        (∀ r (h : r < (runs d).length), ∀ j < 4, Memory.read t.ser (4 + 4 * r + j) =
          some (BitVec.ofNat 8 (((runs d)[r].2 * 2 ^ 24 + (runs d)[r].1.toNat % 2 ^ 24) / 2 ^ (8 * j)))) ∧
        (∀ a, 4 + 4 * (runs d).length ≤ a → Memory.read t.ser a = Memory.read s.ser a) ∧
        t = { s with ser := t.ser, serLen := t.serLen, dout := BitVec.ofNat 64 t.serLen.toNat, resp := .ok }) ∧
    (s.caps.ser.units < 4 + 4 * (runs d).length →
      exec .dictPack s = .next (reportState s .bufferFull 5 (BitVec.ofNat 32 s.caps.ser.units)))

/-- The four bytes of a little-endian word stand at an address of SER. -/
def SerHolds (s : State) (a w : Nat) : Prop :=
  ∀ j < 4, Memory.read s.ser (a + j) = some (BitVec.ofNat 8 (w / 2 ^ (8 * j)))

/-- 43_control_word.md DICT_UNPACK: a well-formed serialization of the packed words ps, with any bytes after it, becomes
the dictionary of its spelled-out runs, bits [31:24] zero; nothing else changes; without room BUFFER_FULL(4, DICT_CAP). -/
def Obligations.DictUnpackReadsSerialization : Prop :=
  ∀ (s : State) (ps : List Word), s.fault = false → SerHolds s 0 (3 * ps.length) →
    (∀ k (h : k < ps.length), SerHolds s (4 + 4 * k) ps[k].toNat ∧ 2 ^ 24 ≤ ps[k].toNat) →
    4 + 4 * ps.length ≤ s.serLen.toNat →
    ∀ d : List Word,
      d = ps.flatMap (fun p => List.replicate (p.toNat / 2 ^ 24) (BitVec.ofNat 32 (p.toNat % 2 ^ 24))) →
      (d.length ≤ s.caps.dict.units →
        ∃ t, exec .dictUnpack s = .next t ∧
          t.dictLen.toNat = d.length ∧ (∀ k (h : k < d.length), Memory.read t.dict k = some d[k]) ∧
          (∀ a, d.length ≤ a → Memory.read t.dict a = Memory.read s.dict a) ∧
          t = { s with dict := t.dict, dictLen := t.dictLen, dout := BitVec.ofNat 64 t.dictLen.toNat, resp := .ok }) ∧
      (s.caps.dict.units < d.length →
        exec .dictUnpack s = .next (reportState s .bufferFull 4 (BitVec.ofNat 32 s.caps.dict.units)))

/-- 43_control_word.md R138. The checks of a serialization, in their order, and the BAD_PACKED each raises. -/
def Obligations.MalformedSerializationIsReported : Prop :=
  ∀ s : State, s.fault = false →
    (s.serLen.toNat < 4 →
      exec .dictUnpack s = .next (reportState s .badPacked 0 (BitVec.ofNat 32 s.serLen.toNat))) ∧
    (∀ c < 2 ^ 32, 4 ≤ s.serLen.toNat → SerHolds s 0 c → c % 3 ≠ 0 ∨ s.serLen.toNat < 4 + 4 * (c / 3) →
      exec .dictUnpack s = .next (reportState s .badPacked 0 (BitVec.ofNat 32 c))) ∧
    (∀ (R r : Nat) (p : Nat → Nat), SerHolds s 0 (3 * R) → 4 + 4 * R ≤ s.serLen.toNat → r < R →
      (∀ k ≤ r, SerHolds s (4 + 4 * k) (p k) ∧ p k < 2 ^ 32) → (∀ k < r, 2 ^ 24 ≤ p k) → p r < 2 ^ 24 →
      exec .dictUnpack s =
        .next (reportState s .badPacked (BitVec.ofNat 32 (4 + 4 * r)) (BitVec.ofNat 32 (p r))))

/-- 43_control_word.md, its properties: DICT_PACK and then DICT_UNPACK restore every word of the dictionary with bits
[31:24] cleared, and DICT_LEN; both complete when the dictionary has been written and SER has room. -/
def Obligations.PackThenUnpackRestoresDictionary : Prop :=
  ∀ (s : State) (d : List Word), s.fault = false → s.LengthsInRange → d.length = s.dictLen.toNat →
    (∀ k (h : k < d.length), Memory.read s.dict k = some d[k]) →
    4 + 4 * (runs d).length ≤ s.caps.ser.units →
    ∃ t u, exec .dictPack s = .next t ∧ t.resp = .ok ∧ exec .dictUnpack t = .next u ∧ u.resp = .ok ∧
      u.dictLen = s.dictLen ∧
      ∀ k (h : k < d.length), Memory.read u.dict k = some (BitVec.ofNat 32 (d[k].toNat % 2 ^ 24))

/-! ## Sequencer -/

/-- The command is refused in the sequencer's phase (44_sequencer.md R142). -/
def RefusedInPhase (s : State) : Instr → Prop
  | .seqClear => s.encOpen = true
  | .seqBuild => s.encOpen = true
  | .seqAdd _ _ => s.phase = .built
  | .seqPath _ _ => s.phase = .accumulate
  | .seqFrameBegin => s.phase = .accumulate ∨ s.encOpen = true
  | .seqEmit _ _ => s.encOpen = false
  | .seqFrameEnd => s.encOpen = false
  | _ => False

/-- 44_sequencer.md R142. Each sequencer command raises CONTRACT(CMD, 0) exactly in the phases that refuse it; ENC_OPEN
is 1 only in phase BUILT, which every step keeps; reset and SEQ_CLEAR give ACCUMULATE with an empty OPT. -/
def Obligations.PhasesAllowTheirCommands : Prop :=
  (∀ (s t : State) (i : Instr), 0x40 ≤ i.opcode.toNat → i.opcode.toNat ≤ 0x46 → s.fault = false →
    (RefusedInPhase s i → exec i s = .next (contractState s i.cmdWord 0)) ∧
    (exec i s = .next t → t.resp = .contract → RefusedInPhase s i)) ∧
  (∀ s t : State, (s.encOpen = true → s.phase = .built) → step s = .next t → t.encOpen = true → t.phase = .built) ∧
  (State.reset.phase = .accumulate ∧ State.reset.opt = [] ∧ State.reset.encOpen = false) ∧
  (∀ (s t : State) (i : Instr), i = .seqClear ∨ i = .softReset → exec i s = .next t → t.resp = .ok →
    t.phase = .accumulate ∧ t.opt = [])

/-- 44_sequencer.md SEQ_CLEAR with no frame open: the tables and the SEQ_ registers are cleared, DICT and DICT_LEN and
everything else stay. -/
def Obligations.SeqClearEmptiesSequencer : Prop :=
  ∀ s : State, s.fault = false → s.encOpen = false →
    exec .seqClear s =
      .next { s with opt := [], paths := [], phase := .accumulate, seqDirect := 0, seqBlocks := 0, seqIb := 0,
                     dout := 0, resp := .ok }

/-- 44_sequencer.md SEQ_ADD in phase ACCUMULATE: it counts one use of the op, returns the new frequency, leaves every
other op's and everything else; it refuses a wide parameter, a full table and a frequency of 2^32 − 1. The sorted form of
OPT is the model's (log entry 7). -/
def Obligations.SeqAddCountsUse : Prop :=
  ∀ (s : State) (ty : CtrlType) (p : Word), s.fault = false → s.phase = .accumulate →
    (2 ^ 17 ≤ p.toNat → exec (.seqAdd ty p) s = .next (reportState s .paramRange p 0x1FFFF)) ∧
    (∀ op : Op, op = ⟨ty, BitVec.ofNat 17 p.toNat⟩ → p.toNat < 2 ^ 17 →
      (Table.find s.opt op = none → s.opt.length = s.caps.optab.ops →
        exec (.seqAdd ty p) s = .next (reportState s .bufferFull 6 (BitVec.ofNat 32 s.caps.optab.ops))) ∧
      (Table.find s.opt op = some 0xFFFFFFFF →
        exec (.seqAdd ty p) s =
          .next (reportState s .counterOverflow (BitVec.ofNat 32 ty.code.toNat) p)) ∧
      (∀ f : Nat, Table.wf s.opt → f = ((Table.find s.opt op).getD 0).toNat → f < 2 ^ 32 - 1 →
        (Table.find s.opt op = none → s.opt.length ≠ s.caps.optab.ops) →
        ∃ t, exec (.seqAdd ty p) s = .next t ∧
          Table.find t.opt op = some (BitVec.ofNat 32 (f + 1)) ∧
          (∀ o, o ≠ op → Table.find t.opt o = Table.find s.opt o) ∧
          t.opt.length = s.opt.length + (if Table.find s.opt op = none then 1 else 0) ∧
          t = { s with opt := t.opt, dout := BitVec.ofNat 64 (f + 1), resp := .ok }))

/-- 44_sequencer.md R145. The rank order holds the entries of OPT, by descending frequency, then ascending parameter, then
ascending type; as no two entries have the same op, the order is total. -/
def Obligations.RankOrderSortsByUse : Prop :=
  ∀ opt : List (Op × Word), (opt.map Prod.fst).Nodup →
    (rankOrder opt).Perm opt ∧
    (rankOrder opt).Pairwise (fun a b =>
      b.2.toNat < a.2.toNat ∨
      (a.2.toNat = b.2.toNat ∧
        (a.1.param.toNat < b.1.param.toNat ∨
          (a.1.param.toNat = b.1.param.toNat ∧ a.1.type.code.toNat < b.1.type.code.toNat))))

/-- The direct slots D of a build (44_sequencer.md R146). -/
def BuildDirect (s : State) : Nat := min s.directLimit.toNat (2 ^ s.indexBits.toNat)

/-- The words of a control word (44_sequencer.md R147): CW(c, t, p). -/
def CwNat (c : Nat) (op : Op) : Nat := c * 2 ^ 20 + op.type.code.toNat * 2 ^ 17 + op.param.toNat

/-- 44_sequencer.md SEQ_BUILD with no frame open and R146: too many ops raise DICT_OVERFLOW(N, Avail) and change nothing;
otherwise a dictionary that does not fit raises BUFFER_FULL(4, DICT_CAP), where Len = Dd + P + (N − Dd). -/
def Obligations.SeqBuildCapacity : Prop :=
  ∀ (s : State) (n d : Nat), s.fault = false → s.encOpen = false → n = s.opt.length → d = BuildDirect s →
    (d + 16 * (2 ^ s.indexBits.toNat - d) < n →
      exec .seqBuild s =
        .next (reportState s .dictOverflow (BitVec.ofNat 32 n)
          (BitVec.ofNat 32 (d + 16 * (2 ^ s.indexBits.toNat - d))))) ∧
    (n ≤ d + 16 * (2 ^ s.indexBits.toNat - d) → s.caps.dict.units < n + (n - d + 15) / 16 →
      exec .seqBuild s = .next (reportState s .bufferFull 4 (BitVec.ofNat 32 s.caps.dict.units)))

/-- 44_sequencer.md SEQ_BUILD, R147 and R148: with room it completes; DICT holds the direct words, the pointer words and
the extension words of the ops in rank order at the stated indices, PATHS the stated paths, the SEQ_ registers the
build's figures, and nothing else changes. The sorted form of OPT is the model's (log entry 7). -/
def Obligations.SeqBuildLaysOutDictionary : Prop :=
  ∀ (s : State) (n d dd p : Nat) (ops : List Op), s.fault = false → s.encOpen = false →
    Table.wf s.opt → n = s.opt.length → d = BuildDirect s → dd = min n d → p = (n - d + 15) / 16 →
    ops = (rankOrder s.opt).map Prod.fst →
    n ≤ d + 16 * (2 ^ s.indexBits.toNat - d) → n + p ≤ s.caps.dict.units →
    ∃ t, exec .seqBuild s = .next t ∧
      t.dictLen.toNat = n + p ∧
      (∀ k (h : k < ops.length), k < dd →
        Memory.read t.dict k = some (BitVec.ofNat 32 (CwNat s.indexBits.toNat ops[k]))) ∧
      (∀ b < p, Memory.read t.dict (dd + b) = some (BitVec.ofNat 32 (dd + p + 16 * b))) ∧
      (∀ k (h : k < ops.length), dd ≤ k →
        Memory.read t.dict (p + k) = some (BitVec.ofNat 32 (CwNat 4 ops[k]))) ∧
      (∀ a, n + p ≤ a → Memory.read t.dict a = Memory.read s.dict a) ∧
      (∀ k (h : k < ops.length), Table.find t.paths ops[k] = some (
        if k < dd then .direct (BitVec.ofNat 15 k) s.indexBits
        else .extended (BitVec.ofNat 15 (dd + (k - dd) / 16)) s.indexBits (BitVec.ofNat 4 ((k - dd) % 16)))) ∧
      (∀ op, op ∉ ops → Table.find t.paths op = none) ∧
      t.seqDirect.toNat = dd ∧ t.seqBlocks.toNat = p ∧
      t = { s with dict := t.dict, dictLen := t.dictLen, paths := t.paths, phase := .built, seqIb := s.indexBits,
                   seqDirect := t.seqDirect, seqBlocks := t.seqBlocks, dout := BitVec.ofNat 64 (n + p),
                   resp := .ok }

/-- 44_sequencer.md SEQ_PATH in phase BUILT: the path's fragments in their places of DOUT, or UNKNOWN_OP(TYPE, PARAM) for
an op without a path, a wide parameter included; nothing else changes. -/
def Obligations.SeqPathReturnsPath : Prop :=
  ∀ (s : State) (ty : CtrlType) (p : Word), s.fault = false → s.phase = .built →
    (∀ i ib, p.toNat < 2 ^ 17 → Table.find s.paths ⟨ty, BitVec.ofNat 17 p.toNat⟩ = some (.direct i ib) →
      exec (.seqPath ty p) s = .next { s with dout := BitVec.ofNat 64 i.toNat, resp := .ok }) ∧
    (∀ i ib o, p.toNat < 2 ^ 17 → Table.find s.paths ⟨ty, BitVec.ofNat 17 p.toNat⟩ = some (.extended i ib o) →
      exec (.seqPath ty p) s =
        .next { s with dout := BitVec.ofNat 64 (2 ^ 24 + o.toNat * 2 ^ 16 + i.toNat), resp := .ok }) ∧
    (2 ^ 17 ≤ p.toNat ∨ Table.find s.paths ⟨ty, BitVec.ofNat 17 p.toNat⟩ = none →
      exec (.seqPath ty p) s = .next (reportState s .unknownOp (BitVec.ofNat 32 ty.code.toNat) p))

/-- 44_sequencer.md R148 and R158: after a successful build every op of OPT has a path, and every resolver that reads
that path's fragments from any stream, over the built dictionary and the captured index width, returns the op's word and
consumes exactly the path's bits. -/
def Obligations.BuiltPathResolvesToItsOp : Prop :=
  ∀ (s t : State) (op : Op) (f : Word),
    s.Legal → exec .seqBuild s = .next t → t.resp = .ok → Table.find s.opt op = some f →
    ∃ path : Path, Table.find t.paths op = some path ∧
      ∀ u : State, u.fault = false → u.streamStop = false → u.ReaderLoaded →
        u.dict = t.dict → u.dictLen = t.dictLen → u.indexBits = t.seqIb →
        u.brPos.toNat + fieldWidth path.frags < 2 ^ 32 →
        (∀ k < fieldWidth path.frags, streamBit u (u.brPos.toNat + k) = (fieldBits path.frags).getD k false) →
        ∃ w : State, exec .cwResolve u = .next w ∧ w.resp = .ok ∧
          w.brPos.toNat = u.brPos.toNat + fieldWidth path.frags ∧
          w.dout.toNat % 2 ^ 20 = CwNat 0 op ∧
          w.dout.toNat / 2 ^ 20 = (path.frags.getLastD (0, 0)).2 + (path.frags.length - 1) * 2 ^ 12

/-- 44_sequencer.md SEQ_FRAME_BEGIN in phase BUILT with no frame open: the writer is emptied, the frame opens. -/
def Obligations.FrameBeginOpensFrame : Prop :=
  ∀ s : State, s.fault = false → s.phase = .built → s.encOpen = false →
    exec .seqFrameBegin s =
      .next { s with bwBits := 0, encOpen := true, encPend := 0, encCol := 0, dout := 0, resp := .ok }

/-- 44_sequencer.md SEQ_FRAME_END with a frame open: the pending skips, if any, are written as one marker with L = their
count, the frame closes, BW_BITS is returned, and nothing else changes. That ENC_SKIPOP then still holds the op of the
last run is the model's choice (log entry 21). -/
def Obligations.FrameEndFlushesAndCloses : Prop :=
  ∀ (s : State) (path : Path) (fs : List (Nat × Nat)), s.Legal → s.fault = false → s.encOpen = true →
    (s.encPend = 0 → fs = []) →
    (s.encPend ≠ 0 → Table.find s.paths s.encSkipop = some path ∧ fs = path.frags ++ [(s.encPend.toNat, 5)]) →
    s.RoomFor (fieldWidth fs) →
    ∃ t, exec .seqFrameEnd s = .next t ∧ Appended s t fs ∧
      t = { s with bw := t.bw, bwBits := t.bwBits, encPend := 0, encCol := 0, encOpen := false,
                   dout := BitVec.ofNat 64 t.bwBits.toNat, resp := .ok }

/-- The column after one more op (44_sequencer.md R153). -/
def NextColumn (s : State) : Nat :=
  if s.hTiles.toNat = 0 then s.encCol.toNat else (s.encCol.toNat + 1) % s.hTiles.toNat

/-- 44_sequencer.md SEQ_EMIT of an op that is no skip: the pending skips, if any, as one marker, then the op's path. That
ENC_SKIPOP then still holds the op of the last run is the model's choice (log entry 21). -/
def Obligations.EmitWritesPendingThenPath : Prop :=
  ∀ (s : State) (ty : CtrlType) (p : Word) (path skipPath : Path) (fs : List (Nat × Nat)),
    s.Legal → s.fault = false → s.encOpen = true → ty ≠ .skip → p.toNat < 2 ^ 17 →
    Table.find s.paths ⟨ty, BitVec.ofNat 17 p.toNat⟩ = some path →
    (s.encPend = 0 → fs = path.frags) →
    (s.encPend ≠ 0 → Table.find s.paths s.encSkipop = some skipPath ∧
      fs = skipPath.frags ++ [(s.encPend.toNat, 5)] ++ path.frags) →
    s.RoomFor (fieldWidth fs) →
    ∃ t, exec (.seqEmit ty p) s = .next t ∧ Appended s t fs ∧
      t = { s with bw := t.bw, bwBits := t.bwBits, encPend := 0, encCol := BitVec.ofNat 16 (NextColumn s),
                   dout := BitVec.ofNat 64 t.bwBits.toNat, resp := .ok }

/-- 44_sequencer.md R154 and R155, SEQ_EMIT of a skip op: with HTILES unset one marker with L = 1; with it set, a run that
reaches the row end is written with L = 31, else a run of 30 with L = 30, else the skip stays pending. A run's marker
uses the path of its first skip op. What ENC_SKIPOP holds once no skip is pending is the model's choice (log
entry 21). -/
def Obligations.EmitCoalescesSkips : Prop :=
  ∀ (s : State) (p : Word) (first : Op) (path : Path) (fs : List (Nat × Nat)) (pend : Nat),
    s.Legal → s.fault = false → s.encOpen = true → p.toNat < 2 ^ 17 →
    (Table.find s.paths ⟨.skip, BitVec.ofNat 17 p.toNat⟩).isSome →
    first = (if s.encPend = 0 then ⟨.skip, BitVec.ofNat 17 p.toNat⟩ else s.encSkipop) →
    Table.find s.paths first = some path →
    (s.hTiles = 0 ∧ fs = path.frags ++ [(1, 5)] ∧ pend = 0) ∨
    (s.hTiles ≠ 0 ∧ s.encCol.toNat + 1 = s.hTiles.toNat ∧ fs = path.frags ++ [(31, 5)] ∧ pend = 0) ∨
    (s.hTiles ≠ 0 ∧ s.encCol.toNat + 1 ≠ s.hTiles.toNat ∧ s.encPend.toNat = 29 ∧
      fs = path.frags ++ [(30, 5)] ∧ pend = 0) ∨
    (s.hTiles ≠ 0 ∧ s.encCol.toNat + 1 ≠ s.hTiles.toNat ∧ s.encPend.toNat ≠ 29 ∧ fs = [] ∧
      pend = s.encPend.toNat + 1) →
    s.RoomFor (fieldWidth fs) →
    ∃ t, exec (.seqEmit .skip p) s = .next t ∧ Appended s t fs ∧
      t = { s with bw := t.bw, bwBits := t.bwBits, encPend := BitVec.ofNat 5 pend,
                   encCol := BitVec.ofNat 16 (NextColumn s),
                   encSkipop := if s.hTiles = 0 then s.encSkipop else first,
                   dout := BitVec.ofNat 64 t.bwBits.toNat, resp := .ok }

/-- 44_sequencer.md SEQ_EMIT and SEQ_FRAME_END, their refusals: an op without a path raises UNKNOWN_OP(TYPE, PARAM), and
a bitstream that no longer fits raises BUFFER_FULL(1, BW_CAP) with nothing written. What must fit is the op's path, after
the marker of the pending skips if there are any; the one marker of a skip that is alone, ends its row or is the 30th of
its run; and the marker that SEQ_FRAME_END writes. -/
def Obligations.EncoderRefusals : Prop :=
  ∀ (s : State) (ty : CtrlType) (p : Word) (path skipPath : Path), s.Legal → s.fault = false → s.encOpen = true →
    (2 ^ 17 ≤ p.toNat ∨ Table.find s.paths ⟨ty, BitVec.ofNat 17 p.toNat⟩ = none →
      exec (.seqEmit ty p) s = .next (reportState s .unknownOp (BitVec.ofNat 32 ty.code.toNat) p)) ∧
    (ty ≠ .skip → p.toNat < 2 ^ 17 → s.encPend = 0 →
      Table.find s.paths ⟨ty, BitVec.ofNat 17 p.toNat⟩ = some path → ¬ s.RoomFor (fieldWidth path.frags) →
      exec (.seqEmit ty p) s = .next (reportState s .bufferFull 1 (BitVec.ofNat 32 s.caps.bw.units))) ∧
    (ty ≠ .skip → p.toNat < 2 ^ 17 → s.encPend ≠ 0 → Table.find s.paths s.encSkipop = some skipPath →
      Table.find s.paths ⟨ty, BitVec.ofNat 17 p.toNat⟩ = some path →
      ¬ s.RoomFor (fieldWidth skipPath.frags + 5 + fieldWidth path.frags) →
      exec (.seqEmit ty p) s = .next (reportState s .bufferFull 1 (BitVec.ofNat 32 s.caps.bw.units))) ∧
    (∀ first : Op, p.toNat < 2 ^ 17 → (Table.find s.paths ⟨.skip, BitVec.ofNat 17 p.toNat⟩).isSome →
      first = (if s.encPend = 0 then ⟨.skip, BitVec.ofNat 17 p.toNat⟩ else s.encSkipop) →
      Table.find s.paths first = some skipPath →
      s.hTiles = 0 ∨ s.encCol.toNat + 1 = s.hTiles.toNat ∨ s.encPend.toNat = 29 →
      ¬ s.RoomFor (fieldWidth skipPath.frags + 5) →
      exec (.seqEmit .skip p) s = .next (reportState s .bufferFull 1 (BitVec.ofNat 32 s.caps.bw.units))) ∧
    (s.encPend ≠ 0 → Table.find s.paths s.encSkipop = some skipPath → ¬ s.RoomFor (fieldWidth skipPath.frags + 5) →
      exec .seqFrameEnd s = .next (reportState s .bufferFull 1 (BitVec.ofNat 32 s.caps.bw.units)))

/-! ## Resolver -/

/-- 45_resolver.md R160 to R162, CW_RESOLVE: a chain of at most 100 pointers to an operation word resolves, returns the
word as stored and the number of pointers followed, and consumes the path; nothing else changes. -/
def Obligations.CwResolveFollowsChain : Prop :=
  ∀ (s : State) (h pos frag idx : Nat) (w : Word), s.fault = false → s.streamStop = false → s.ReaderLoaded →
    ResolveChain s h pos frag idx → h ≤ 100 → dictAt s idx = some w → w.toNat / 2 ^ 20 % 2 ^ 4 ≠ 0 →
    pos + w.toNat / 2 ^ 20 % 2 ^ 4 < 2 ^ 32 →
    exec .cwResolve s =
      .next { s with brPos := BitVec.ofNat 32 (pos + w.toNat / 2 ^ 20 % 2 ^ 4),
                     dout := BitVec.ofNat 64 (h * 2 ^ 32 + w.toNat), resp := .ok }

/-- 45_resolver.md R160 and R162, the ways a resolve fails in CW_RESOLVE, and in STREAM_NEXT before the end of the
stream: an index at or past DICT_LEN raises INDEX_RANGE, the 101st pointer raises HOP_LIMIT with its index, a cursor
past 2^32 − 1 raises CONTRACT(CMD, BR_POS so far); BR_POS itself stays. -/
def Obligations.CorruptPathIsReported : Prop :=
  ∀ (s : State) (i : Instr) (cmd : Word) (h pos frag idx : Nat),
    s.fault = false → s.streamStop = false → s.ReaderLoaded →
    (i = .cwResolve ∧ cmd = 0x48000000) ∨
      (i = .streamNext ∧ cmd = 0x49000000 ∧ s.brPos.toNat < 8 * s.brLen.toNat) →
    ResolveChain s h pos frag idx →
    (h ≤ 100 → s.dictLen.toNat ≤ idx →
      exec i s = .next (corruptState s .indexRange (BitVec.ofNat 32 idx) (BitVec.ofNat 32 s.dictLen.toNat))) ∧
    (∀ w, h = 100 → dictAt s idx = some w → w.toNat / 2 ^ 20 % 2 ^ 4 = 0 →
      exec i s = .next (corruptState s .hopLimit (BitVec.ofNat 32 idx) 100)) ∧
    (∀ w, h ≤ 100 → dictAt s idx = some w → w.toNat / 2 ^ 20 % 2 ^ 4 ≠ 0 →
      2 ^ 32 ≤ pos + w.toNat / 2 ^ 20 % 2 ^ 4 →
      exec i s = .next (contractState s cmd (BitVec.ofNat 32 pos))) ∧
    (∀ w, h < 100 → dictAt s idx = some w → w.toNat / 2 ^ 20 % 2 ^ 4 = 0 → 2 ^ 32 ≤ pos + frag →
      exec i s = .next (contractState s cmd (BitVec.ofNat 32 pos)))

/-- 45_resolver.md STREAM_NEXT: END at the end of the stream, changing nothing; otherwise one element, a skip with its
5-bit run length, a word of unknown type refused with BR_POS kept. -/
def Obligations.StreamNextReadsElement : Prop :=
  ∀ s : State, s.fault = false → s.streamStop = false →
    (8 * s.brLen.toNat ≤ s.brPos.toNat →
      exec .streamNext s = .next { s with dout := BitVec.ofNat 64 (2 ^ 63), resp := .ok }) ∧
    (∀ (h pos frag idx e : Nat) (w : Word), s.brPos.toNat < 8 * s.brLen.toNat → s.ReaderLoaded →
      ResolveChain s h pos frag idx → h ≤ 100 → dictAt s idx = some w → w.toNat / 2 ^ 20 % 2 ^ 4 ≠ 0 →
      e = pos + w.toNat / 2 ^ 20 % 2 ^ 4 →
      (w.toNat / 2 ^ 17 % 2 ^ 3 = 5 → e + 5 < 2 ^ 32 →
        exec .streamNext s =
          .next { s with brPos := BitVec.ofNat 32 (e + 5),
                         dout := BitVec.ofNat 64 (streamField s e 5 * 2 ^ 32 + w.toNat), resp := .ok }) ∧
      (w.toNat / 2 ^ 17 % 2 ^ 3 = 7 → e < 2 ^ 32 →
        exec .streamNext s = .next (corruptState s .unknownType w s.brPos)) ∧
      (w.toNat / 2 ^ 17 % 2 ^ 3 ≠ 5 → w.toNat / 2 ^ 17 % 2 ^ 3 ≠ 7 → e < 2 ^ 32 →
        exec .streamNext s =
          .next { s with brPos := BitVec.ofNat 32 e, dout := BitVec.ofNat 64 w.toNat, resp := .ok }))

/-! ## The whole machine -/

/-- The block right after power-on is legal, and no length covers an unwritten unit. Its capacities are log entry 2, the
canonical form of its spaces and tables log entries 3 and 7. -/
def Obligations.ResetIsLegal : Prop := State.reset.Legal ∧ State.reset.Loaded

/-- Every step keeps the canonical form of every space. The form is the model's choice (log entry 3). -/
def Obligations.StepKeepsMemoriesCanonical : Prop :=
  ∀ s t : State, s.MemoriesCanonical → step s = .next t → t.MemoriesCanonical

/-- Every step of a legal block leads to a legal block: lengths within capacities, legal configuration, zero pad bits,
tables that agree with the phase, at most 29 pending skips, a column inside the row, DOUT 0 whenever RESP is not 0. That a
legal block's spaces and tables are in canonical form is the model's choice of form (log entries 3 and 7). -/
def Obligations.StepKeepsLegal : Prop :=
  ∀ s t : State, s.Legal → step s = .next t → t.Legal

/-- 20_memory.md R59 and 93_implementation_defined.md U3 (log entry 3): the model stops only where a command reads a
unit below a length register that nothing has written. A legal block with every such unit written always takes a step, a
stop names such a unit, and no command is refused. Conversely BR_READ stops when one of its bits, MR_READ when one of its
bytes, DICT_PACK when a word of the dictionary, CW_RESOLVE and STREAM_NEXT when the word their path selects, and
DICT_UNPACK when a byte of the count is such a unit (MEM_RD: `Obligations.MemRdReadsWindow`). -/
def Obligations.LoadedBlockNeverStops : Prop :=
  (∀ s : State, s.Legal → s.Loaded → ∃ t, step s = .next t) ∧
  (∀ (s : State) (sp : Space) (a : Nat), step s = .fault (.unwrittenUnit sp a) →
    a < s.length sp ∧ s.unitAt sp a = none) ∧
  (∀ (s : State) (r : Refusal), step s ≠ .refused r) ∧
  (∀ (s : State) (n k : Nat), s.fault = false → n ≤ 32 → k < n → s.brPos.toNat + k < 8 * s.brLen.toNat →
    Memory.read s.br ((s.brPos.toNat + k) / 8) = none →
    ∃ a < s.brLen.toNat, Memory.read s.br a = none ∧ exec (.brRead n) s = .fault (.unwrittenUnit .br a)) ∧
  (∀ (s : State) (k j : Nat), s.fault = false → k ≤ 8 → s.mrPos.toNat + k < 2 ^ 32 → j < k →
    s.mrPos.toNat + j < s.mrLen.toNat → Memory.read s.mr (s.mrPos.toNat + j) = none →
    ∃ a < s.mrLen.toNat, Memory.read s.mr a = none ∧ exec (.mrRead k) s = .fault (.unwrittenUnit .mr a)) ∧
  (∀ (s : State) (i : Instr) (h pos frag idx : Nat), s.fault = false → s.streamStop = false → s.ReaderLoaded →
    i = .cwResolve ∨ (i = .streamNext ∧ s.brPos.toNat < 8 * s.brLen.toNat) →
    ResolveChain s h pos frag idx → h ≤ 100 → idx < s.dictLen.toNat → Memory.read s.dict idx = none →
    exec i s = .fault (.unwrittenUnit .dict idx)) ∧
  (∀ (s : State) (k : Nat), s.fault = false → k < s.dictLen.toNat → Memory.read s.dict k = none →
    ∃ a < s.dictLen.toNat, Memory.read s.dict a = none ∧ exec .dictPack s = .fault (.unwrittenUnit .dict a)) ∧
  (∀ (s : State) (k : Nat), s.fault = false → 4 ≤ s.serLen.toNat → k < 4 → Memory.read s.ser k = none →
    ∃ a < s.serLen.toNat, Memory.read s.ser a = none ∧ exec .dictUnpack s = .fault (.unwrittenUnit .ser a))
end

