-- ==== Sys2Proof/Laws/State.lean ====
section
/-! SUPPORT. What each named update of the state does to each field. -/

namespace Sys2Proof.Machine

open Sys2Proof

/-! ## State.completed -/

@[simp] theorem State.completed_pending (s : State) (v : DWord) : (s.completed v).pending = s.pending := rfl
@[simp] theorem State.completed_dout (s : State) (v : DWord) : (s.completed v).dout = v := rfl
@[simp] theorem State.completed_resp (s : State) (v : DWord) : (s.completed v).resp = .ok := rfl
@[simp] theorem State.completed_fault (s : State) (v : DWord) : (s.completed v).fault = s.fault := rfl
@[simp] theorem State.completed_streamStop (s : State) (v : DWord) : (s.completed v).streamStop = s.streamStop := rfl
@[simp] theorem State.completed_encOpen (s : State) (v : DWord) : (s.completed v).encOpen = s.encOpen := rfl
@[simp] theorem State.completed_lastErr (s : State) (v : DWord) : (s.completed v).lastErr = s.lastErr := rfl
@[simp] theorem State.completed_errA (s : State) (v : DWord) : (s.completed v).errA = s.errA := rfl
@[simp] theorem State.completed_errB (s : State) (v : DWord) : (s.completed v).errB = s.errB := rfl
@[simp] theorem State.completed_indexBits (s : State) (v : DWord) : (s.completed v).indexBits = s.indexBits := rfl
@[simp] theorem State.completed_directLimit (s : State) (v : DWord) : (s.completed v).directLimit = s.directLimit := rfl
@[simp] theorem State.completed_hTiles (s : State) (v : DWord) : (s.completed v).hTiles = s.hTiles := rfl
@[simp] theorem State.completed_brLen (s : State) (v : DWord) : (s.completed v).brLen = s.brLen := rfl
@[simp] theorem State.completed_brPos (s : State) (v : DWord) : (s.completed v).brPos = s.brPos := rfl
@[simp] theorem State.completed_bwBits (s : State) (v : DWord) : (s.completed v).bwBits = s.bwBits := rfl
@[simp] theorem State.completed_mrLen (s : State) (v : DWord) : (s.completed v).mrLen = s.mrLen := rfl
@[simp] theorem State.completed_mrPos (s : State) (v : DWord) : (s.completed v).mrPos = s.mrPos := rfl
@[simp] theorem State.completed_mwLen (s : State) (v : DWord) : (s.completed v).mwLen = s.mwLen := rfl
@[simp] theorem State.completed_dictLen (s : State) (v : DWord) : (s.completed v).dictLen = s.dictLen := rfl
@[simp] theorem State.completed_serLen (s : State) (v : DWord) : (s.completed v).serLen = s.serLen := rfl
@[simp] theorem State.completed_seqDirect (s : State) (v : DWord) : (s.completed v).seqDirect = s.seqDirect := rfl
@[simp] theorem State.completed_seqBlocks (s : State) (v : DWord) : (s.completed v).seqBlocks = s.seqBlocks := rfl
@[simp] theorem State.completed_encPend (s : State) (v : DWord) : (s.completed v).encPend = s.encPend := rfl
@[simp] theorem State.completed_encCol (s : State) (v : DWord) : (s.completed v).encCol = s.encCol := rfl
@[simp] theorem State.completed_seqIb (s : State) (v : DWord) : (s.completed v).seqIb = s.seqIb := rfl
@[simp] theorem State.completed_phase (s : State) (v : DWord) : (s.completed v).phase = s.phase := rfl
@[simp] theorem State.completed_opt (s : State) (v : DWord) : (s.completed v).opt = s.opt := rfl
@[simp] theorem State.completed_paths (s : State) (v : DWord) : (s.completed v).paths = s.paths := rfl
@[simp] theorem State.completed_encSkipop (s : State) (v : DWord) : (s.completed v).encSkipop = s.encSkipop := rfl
@[simp] theorem State.completed_br (s : State) (v : DWord) : (s.completed v).br = s.br := rfl
@[simp] theorem State.completed_bw (s : State) (v : DWord) : (s.completed v).bw = s.bw := rfl
@[simp] theorem State.completed_mr (s : State) (v : DWord) : (s.completed v).mr = s.mr := rfl
@[simp] theorem State.completed_mw (s : State) (v : DWord) : (s.completed v).mw = s.mw := rfl
@[simp] theorem State.completed_dict (s : State) (v : DWord) : (s.completed v).dict = s.dict := rfl
@[simp] theorem State.completed_ser (s : State) (v : DWord) : (s.completed v).ser = s.ser := rfl
@[simp] theorem State.completed_caps (s : State) (v : DWord) : (s.completed v).caps = s.caps := rfl
@[simp] theorem State.completed_freeCount (s : State) (v : DWord) : (s.completed v).freeCount = s.freeCount := rfl

/-! ## State.raised -/

@[simp] theorem State.raised_pending (s : State) (e : ErrCode) (a b : Word) : (s.raised e a b).pending = s.pending := rfl
@[simp] theorem State.raised_dout (s : State) (e : ErrCode) (a b : Word) : (s.raised e a b).dout = 0 := rfl
@[simp] theorem State.raised_resp (s : State) (e : ErrCode) (a b : Word) : (s.raised e a b).resp = e := rfl
@[simp] theorem State.raised_fault (s : State) (e : ErrCode) (a b : Word) : (s.raised e a b).fault = (s.fault || e.setsFault) := rfl
@[simp] theorem State.raised_streamStop (s : State) (e : ErrCode) (a b : Word) : (s.raised e a b).streamStop = (s.streamStop || e.stopsStream) := rfl
@[simp] theorem State.raised_encOpen (s : State) (e : ErrCode) (a b : Word) : (s.raised e a b).encOpen = s.encOpen := rfl
@[simp] theorem State.raised_lastErr (s : State) (e : ErrCode) (a b : Word) : (s.raised e a b).lastErr = if e = .halted then s.lastErr else e := rfl
@[simp] theorem State.raised_errA (s : State) (e : ErrCode) (a b : Word) : (s.raised e a b).errA = if e = .halted then s.errA else a := rfl
@[simp] theorem State.raised_errB (s : State) (e : ErrCode) (a b : Word) : (s.raised e a b).errB = if e = .halted then s.errB else b := rfl
@[simp] theorem State.raised_indexBits (s : State) (e : ErrCode) (a b : Word) : (s.raised e a b).indexBits = s.indexBits := rfl
@[simp] theorem State.raised_directLimit (s : State) (e : ErrCode) (a b : Word) : (s.raised e a b).directLimit = s.directLimit := rfl
@[simp] theorem State.raised_hTiles (s : State) (e : ErrCode) (a b : Word) : (s.raised e a b).hTiles = s.hTiles := rfl
@[simp] theorem State.raised_brLen (s : State) (e : ErrCode) (a b : Word) : (s.raised e a b).brLen = s.brLen := rfl
@[simp] theorem State.raised_brPos (s : State) (e : ErrCode) (a b : Word) : (s.raised e a b).brPos = s.brPos := rfl
@[simp] theorem State.raised_bwBits (s : State) (e : ErrCode) (a b : Word) : (s.raised e a b).bwBits = s.bwBits := rfl
@[simp] theorem State.raised_mrLen (s : State) (e : ErrCode) (a b : Word) : (s.raised e a b).mrLen = s.mrLen := rfl
@[simp] theorem State.raised_mrPos (s : State) (e : ErrCode) (a b : Word) : (s.raised e a b).mrPos = s.mrPos := rfl
@[simp] theorem State.raised_mwLen (s : State) (e : ErrCode) (a b : Word) : (s.raised e a b).mwLen = s.mwLen := rfl
@[simp] theorem State.raised_dictLen (s : State) (e : ErrCode) (a b : Word) : (s.raised e a b).dictLen = s.dictLen := rfl
@[simp] theorem State.raised_serLen (s : State) (e : ErrCode) (a b : Word) : (s.raised e a b).serLen = s.serLen := rfl
@[simp] theorem State.raised_seqDirect (s : State) (e : ErrCode) (a b : Word) : (s.raised e a b).seqDirect = s.seqDirect := rfl
@[simp] theorem State.raised_seqBlocks (s : State) (e : ErrCode) (a b : Word) : (s.raised e a b).seqBlocks = s.seqBlocks := rfl
@[simp] theorem State.raised_encPend (s : State) (e : ErrCode) (a b : Word) : (s.raised e a b).encPend = s.encPend := rfl
@[simp] theorem State.raised_encCol (s : State) (e : ErrCode) (a b : Word) : (s.raised e a b).encCol = s.encCol := rfl
@[simp] theorem State.raised_seqIb (s : State) (e : ErrCode) (a b : Word) : (s.raised e a b).seqIb = s.seqIb := rfl
@[simp] theorem State.raised_phase (s : State) (e : ErrCode) (a b : Word) : (s.raised e a b).phase = s.phase := rfl
@[simp] theorem State.raised_opt (s : State) (e : ErrCode) (a b : Word) : (s.raised e a b).opt = s.opt := rfl
@[simp] theorem State.raised_paths (s : State) (e : ErrCode) (a b : Word) : (s.raised e a b).paths = s.paths := rfl
@[simp] theorem State.raised_encSkipop (s : State) (e : ErrCode) (a b : Word) : (s.raised e a b).encSkipop = s.encSkipop := rfl
@[simp] theorem State.raised_br (s : State) (e : ErrCode) (a b : Word) : (s.raised e a b).br = s.br := rfl
@[simp] theorem State.raised_bw (s : State) (e : ErrCode) (a b : Word) : (s.raised e a b).bw = s.bw := rfl
@[simp] theorem State.raised_mr (s : State) (e : ErrCode) (a b : Word) : (s.raised e a b).mr = s.mr := rfl
@[simp] theorem State.raised_mw (s : State) (e : ErrCode) (a b : Word) : (s.raised e a b).mw = s.mw := rfl
@[simp] theorem State.raised_dict (s : State) (e : ErrCode) (a b : Word) : (s.raised e a b).dict = s.dict := rfl
@[simp] theorem State.raised_ser (s : State) (e : ErrCode) (a b : Word) : (s.raised e a b).ser = s.ser := rfl
@[simp] theorem State.raised_caps (s : State) (e : ErrCode) (a b : Word) : (s.raised e a b).caps = s.caps := rfl
@[simp] theorem State.raised_freeCount (s : State) (e : ErrCode) (a b : Word) : (s.raised e a b).freeCount = s.freeCount := rfl

/-! ## State.issue -/

@[simp] theorem State.issue_pending (s : State) (c : Command) : (s.issue c).pending = c :: s.pending := rfl
@[simp] theorem State.issue_dout (s : State) (c : Command) : (s.issue c).dout = s.dout := rfl
@[simp] theorem State.issue_resp (s : State) (c : Command) : (s.issue c).resp = s.resp := rfl
@[simp] theorem State.issue_fault (s : State) (c : Command) : (s.issue c).fault = s.fault := rfl
@[simp] theorem State.issue_streamStop (s : State) (c : Command) : (s.issue c).streamStop = s.streamStop := rfl
@[simp] theorem State.issue_encOpen (s : State) (c : Command) : (s.issue c).encOpen = s.encOpen := rfl
@[simp] theorem State.issue_lastErr (s : State) (c : Command) : (s.issue c).lastErr = s.lastErr := rfl
@[simp] theorem State.issue_errA (s : State) (c : Command) : (s.issue c).errA = s.errA := rfl
@[simp] theorem State.issue_errB (s : State) (c : Command) : (s.issue c).errB = s.errB := rfl
@[simp] theorem State.issue_indexBits (s : State) (c : Command) : (s.issue c).indexBits = s.indexBits := rfl
@[simp] theorem State.issue_directLimit (s : State) (c : Command) : (s.issue c).directLimit = s.directLimit := rfl
@[simp] theorem State.issue_hTiles (s : State) (c : Command) : (s.issue c).hTiles = s.hTiles := rfl
@[simp] theorem State.issue_brLen (s : State) (c : Command) : (s.issue c).brLen = s.brLen := rfl
@[simp] theorem State.issue_brPos (s : State) (c : Command) : (s.issue c).brPos = s.brPos := rfl
@[simp] theorem State.issue_bwBits (s : State) (c : Command) : (s.issue c).bwBits = s.bwBits := rfl
@[simp] theorem State.issue_mrLen (s : State) (c : Command) : (s.issue c).mrLen = s.mrLen := rfl
@[simp] theorem State.issue_mrPos (s : State) (c : Command) : (s.issue c).mrPos = s.mrPos := rfl
@[simp] theorem State.issue_mwLen (s : State) (c : Command) : (s.issue c).mwLen = s.mwLen := rfl
@[simp] theorem State.issue_dictLen (s : State) (c : Command) : (s.issue c).dictLen = s.dictLen := rfl
@[simp] theorem State.issue_serLen (s : State) (c : Command) : (s.issue c).serLen = s.serLen := rfl
@[simp] theorem State.issue_seqDirect (s : State) (c : Command) : (s.issue c).seqDirect = s.seqDirect := rfl
@[simp] theorem State.issue_seqBlocks (s : State) (c : Command) : (s.issue c).seqBlocks = s.seqBlocks := rfl
@[simp] theorem State.issue_encPend (s : State) (c : Command) : (s.issue c).encPend = s.encPend := rfl
@[simp] theorem State.issue_encCol (s : State) (c : Command) : (s.issue c).encCol = s.encCol := rfl
@[simp] theorem State.issue_seqIb (s : State) (c : Command) : (s.issue c).seqIb = s.seqIb := rfl
@[simp] theorem State.issue_phase (s : State) (c : Command) : (s.issue c).phase = s.phase := rfl
@[simp] theorem State.issue_opt (s : State) (c : Command) : (s.issue c).opt = s.opt := rfl
@[simp] theorem State.issue_paths (s : State) (c : Command) : (s.issue c).paths = s.paths := rfl
@[simp] theorem State.issue_encSkipop (s : State) (c : Command) : (s.issue c).encSkipop = s.encSkipop := rfl
@[simp] theorem State.issue_br (s : State) (c : Command) : (s.issue c).br = s.br := rfl
@[simp] theorem State.issue_bw (s : State) (c : Command) : (s.issue c).bw = s.bw := rfl
@[simp] theorem State.issue_mr (s : State) (c : Command) : (s.issue c).mr = s.mr := rfl
@[simp] theorem State.issue_mw (s : State) (c : Command) : (s.issue c).mw = s.mw := rfl
@[simp] theorem State.issue_dict (s : State) (c : Command) : (s.issue c).dict = s.dict := rfl
@[simp] theorem State.issue_ser (s : State) (c : Command) : (s.issue c).ser = s.ser := rfl
@[simp] theorem State.issue_caps (s : State) (c : Command) : (s.issue c).caps = s.caps := rfl
@[simp] theorem State.issue_freeCount (s : State) (c : Command) : (s.issue c).freeCount = s.freeCount := rfl

/-! ## State.resetAction -/

@[simp] theorem State.resetAction_pending (s : State) : s.resetAction.pending = s.pending := rfl
@[simp] theorem State.resetAction_dout (s : State) : s.resetAction.dout = 0 := rfl
@[simp] theorem State.resetAction_resp (s : State) : s.resetAction.resp = .ok := rfl
@[simp] theorem State.resetAction_fault (s : State) : s.resetAction.fault = false := rfl
@[simp] theorem State.resetAction_streamStop (s : State) : s.resetAction.streamStop = false := rfl
@[simp] theorem State.resetAction_encOpen (s : State) : s.resetAction.encOpen = false := rfl
@[simp] theorem State.resetAction_lastErr (s : State) : s.resetAction.lastErr = .ok := rfl
@[simp] theorem State.resetAction_errA (s : State) : s.resetAction.errA = 0 := rfl
@[simp] theorem State.resetAction_errB (s : State) : s.resetAction.errB = 0 := rfl
@[simp] theorem State.resetAction_indexBits (s : State) : s.resetAction.indexBits = 12 := rfl
@[simp] theorem State.resetAction_directLimit (s : State) : s.resetAction.directLimit = 4096 := rfl
@[simp] theorem State.resetAction_hTiles (s : State) : s.resetAction.hTiles = 0 := rfl
@[simp] theorem State.resetAction_brLen (s : State) : s.resetAction.brLen = 0 := rfl
@[simp] theorem State.resetAction_brPos (s : State) : s.resetAction.brPos = 0 := rfl
@[simp] theorem State.resetAction_bwBits (s : State) : s.resetAction.bwBits = 0 := rfl
@[simp] theorem State.resetAction_mrLen (s : State) : s.resetAction.mrLen = 0 := rfl
@[simp] theorem State.resetAction_mrPos (s : State) : s.resetAction.mrPos = 0 := rfl
@[simp] theorem State.resetAction_mwLen (s : State) : s.resetAction.mwLen = 0 := rfl
@[simp] theorem State.resetAction_dictLen (s : State) : s.resetAction.dictLen = 0 := rfl
@[simp] theorem State.resetAction_serLen (s : State) : s.resetAction.serLen = 0 := rfl
@[simp] theorem State.resetAction_seqDirect (s : State) : s.resetAction.seqDirect = 0 := rfl
@[simp] theorem State.resetAction_seqBlocks (s : State) : s.resetAction.seqBlocks = 0 := rfl
@[simp] theorem State.resetAction_encPend (s : State) : s.resetAction.encPend = 0 := rfl
@[simp] theorem State.resetAction_encCol (s : State) : s.resetAction.encCol = 0 := rfl
@[simp] theorem State.resetAction_seqIb (s : State) : s.resetAction.seqIb = 0 := rfl
@[simp] theorem State.resetAction_phase (s : State) : s.resetAction.phase = .accumulate := rfl
@[simp] theorem State.resetAction_opt (s : State) : s.resetAction.opt = [] := rfl
@[simp] theorem State.resetAction_paths (s : State) : s.resetAction.paths = [] := rfl
@[simp] theorem State.resetAction_br (s : State) : s.resetAction.br = [] := rfl
@[simp] theorem State.resetAction_bw (s : State) : s.resetAction.bw = [] := rfl
@[simp] theorem State.resetAction_mr (s : State) : s.resetAction.mr = [] := rfl
@[simp] theorem State.resetAction_mw (s : State) : s.resetAction.mw = [] := rfl
@[simp] theorem State.resetAction_dict (s : State) : s.resetAction.dict = [] := rfl
@[simp] theorem State.resetAction_ser (s : State) : s.resetAction.ser = [] := rfl
@[simp] theorem State.resetAction_caps (s : State) : s.resetAction.caps = s.caps := rfl
@[simp] theorem State.resetAction_freeCount (s : State) : s.resetAction.freeCount = s.freeCount + 1 := rfl

/-! ## State.withUnit -/

@[simp] theorem State.withUnit_pending (s : State) (sp : Space) (a : Nat) (v : Word) :
    (s.withUnit sp a v).pending = s.pending := by cases sp <;> rfl
@[simp] theorem State.withUnit_dout (s : State) (sp : Space) (a : Nat) (v : Word) :
    (s.withUnit sp a v).dout = s.dout := by cases sp <;> rfl
@[simp] theorem State.withUnit_resp (s : State) (sp : Space) (a : Nat) (v : Word) :
    (s.withUnit sp a v).resp = s.resp := by cases sp <;> rfl
@[simp] theorem State.withUnit_fault (s : State) (sp : Space) (a : Nat) (v : Word) :
    (s.withUnit sp a v).fault = s.fault := by cases sp <;> rfl
@[simp] theorem State.withUnit_streamStop (s : State) (sp : Space) (a : Nat) (v : Word) :
    (s.withUnit sp a v).streamStop = s.streamStop := by cases sp <;> rfl
@[simp] theorem State.withUnit_encOpen (s : State) (sp : Space) (a : Nat) (v : Word) :
    (s.withUnit sp a v).encOpen = s.encOpen := by cases sp <;> rfl
@[simp] theorem State.withUnit_lastErr (s : State) (sp : Space) (a : Nat) (v : Word) :
    (s.withUnit sp a v).lastErr = s.lastErr := by cases sp <;> rfl
@[simp] theorem State.withUnit_errA (s : State) (sp : Space) (a : Nat) (v : Word) :
    (s.withUnit sp a v).errA = s.errA := by cases sp <;> rfl
@[simp] theorem State.withUnit_errB (s : State) (sp : Space) (a : Nat) (v : Word) :
    (s.withUnit sp a v).errB = s.errB := by cases sp <;> rfl
@[simp] theorem State.withUnit_indexBits (s : State) (sp : Space) (a : Nat) (v : Word) :
    (s.withUnit sp a v).indexBits = s.indexBits := by cases sp <;> rfl
@[simp] theorem State.withUnit_directLimit (s : State) (sp : Space) (a : Nat) (v : Word) :
    (s.withUnit sp a v).directLimit = s.directLimit := by cases sp <;> rfl
@[simp] theorem State.withUnit_hTiles (s : State) (sp : Space) (a : Nat) (v : Word) :
    (s.withUnit sp a v).hTiles = s.hTiles := by cases sp <;> rfl
@[simp] theorem State.withUnit_brLen (s : State) (sp : Space) (a : Nat) (v : Word) :
    (s.withUnit sp a v).brLen = s.brLen := by cases sp <;> rfl
@[simp] theorem State.withUnit_brPos (s : State) (sp : Space) (a : Nat) (v : Word) :
    (s.withUnit sp a v).brPos = s.brPos := by cases sp <;> rfl
@[simp] theorem State.withUnit_bwBits (s : State) (sp : Space) (a : Nat) (v : Word) :
    (s.withUnit sp a v).bwBits = s.bwBits := by cases sp <;> rfl
@[simp] theorem State.withUnit_mrLen (s : State) (sp : Space) (a : Nat) (v : Word) :
    (s.withUnit sp a v).mrLen = s.mrLen := by cases sp <;> rfl
@[simp] theorem State.withUnit_mrPos (s : State) (sp : Space) (a : Nat) (v : Word) :
    (s.withUnit sp a v).mrPos = s.mrPos := by cases sp <;> rfl
@[simp] theorem State.withUnit_mwLen (s : State) (sp : Space) (a : Nat) (v : Word) :
    (s.withUnit sp a v).mwLen = s.mwLen := by cases sp <;> rfl
@[simp] theorem State.withUnit_dictLen (s : State) (sp : Space) (a : Nat) (v : Word) :
    (s.withUnit sp a v).dictLen = s.dictLen := by cases sp <;> rfl
@[simp] theorem State.withUnit_serLen (s : State) (sp : Space) (a : Nat) (v : Word) :
    (s.withUnit sp a v).serLen = s.serLen := by cases sp <;> rfl
@[simp] theorem State.withUnit_seqDirect (s : State) (sp : Space) (a : Nat) (v : Word) :
    (s.withUnit sp a v).seqDirect = s.seqDirect := by cases sp <;> rfl
@[simp] theorem State.withUnit_seqBlocks (s : State) (sp : Space) (a : Nat) (v : Word) :
    (s.withUnit sp a v).seqBlocks = s.seqBlocks := by cases sp <;> rfl
@[simp] theorem State.withUnit_encPend (s : State) (sp : Space) (a : Nat) (v : Word) :
    (s.withUnit sp a v).encPend = s.encPend := by cases sp <;> rfl
@[simp] theorem State.withUnit_encCol (s : State) (sp : Space) (a : Nat) (v : Word) :
    (s.withUnit sp a v).encCol = s.encCol := by cases sp <;> rfl
@[simp] theorem State.withUnit_seqIb (s : State) (sp : Space) (a : Nat) (v : Word) :
    (s.withUnit sp a v).seqIb = s.seqIb := by cases sp <;> rfl
@[simp] theorem State.withUnit_phase (s : State) (sp : Space) (a : Nat) (v : Word) :
    (s.withUnit sp a v).phase = s.phase := by cases sp <;> rfl
@[simp] theorem State.withUnit_opt (s : State) (sp : Space) (a : Nat) (v : Word) :
    (s.withUnit sp a v).opt = s.opt := by cases sp <;> rfl
@[simp] theorem State.withUnit_paths (s : State) (sp : Space) (a : Nat) (v : Word) :
    (s.withUnit sp a v).paths = s.paths := by cases sp <;> rfl
@[simp] theorem State.withUnit_encSkipop (s : State) (sp : Space) (a : Nat) (v : Word) :
    (s.withUnit sp a v).encSkipop = s.encSkipop := by cases sp <;> rfl
@[simp] theorem State.withUnit_caps (s : State) (sp : Space) (a : Nat) (v : Word) :
    (s.withUnit sp a v).caps = s.caps := by cases sp <;> rfl
@[simp] theorem State.withUnit_freeCount (s : State) (sp : Space) (a : Nat) (v : Word) :
    (s.withUnit sp a v).freeCount = s.freeCount := by cases sp <;> rfl

/-! ## advanceColumn -/

@[simp] theorem advanceColumn_pending (s : State) : (advanceColumn s).pending = s.pending := by
  unfold advanceColumn; split <;> rfl
@[simp] theorem advanceColumn_dout (s : State) : (advanceColumn s).dout = s.dout := by
  unfold advanceColumn; split <;> rfl
@[simp] theorem advanceColumn_resp (s : State) : (advanceColumn s).resp = s.resp := by
  unfold advanceColumn; split <;> rfl
@[simp] theorem advanceColumn_fault (s : State) : (advanceColumn s).fault = s.fault := by
  unfold advanceColumn; split <;> rfl
@[simp] theorem advanceColumn_streamStop (s : State) : (advanceColumn s).streamStop = s.streamStop := by
  unfold advanceColumn; split <;> rfl
@[simp] theorem advanceColumn_encOpen (s : State) : (advanceColumn s).encOpen = s.encOpen := by
  unfold advanceColumn; split <;> rfl
@[simp] theorem advanceColumn_lastErr (s : State) : (advanceColumn s).lastErr = s.lastErr := by
  unfold advanceColumn; split <;> rfl
@[simp] theorem advanceColumn_errA (s : State) : (advanceColumn s).errA = s.errA := by
  unfold advanceColumn; split <;> rfl
@[simp] theorem advanceColumn_errB (s : State) : (advanceColumn s).errB = s.errB := by
  unfold advanceColumn; split <;> rfl
@[simp] theorem advanceColumn_indexBits (s : State) : (advanceColumn s).indexBits = s.indexBits := by
  unfold advanceColumn; split <;> rfl
@[simp] theorem advanceColumn_directLimit (s : State) : (advanceColumn s).directLimit = s.directLimit := by
  unfold advanceColumn; split <;> rfl
@[simp] theorem advanceColumn_hTiles (s : State) : (advanceColumn s).hTiles = s.hTiles := by
  unfold advanceColumn; split <;> rfl
@[simp] theorem advanceColumn_brLen (s : State) : (advanceColumn s).brLen = s.brLen := by
  unfold advanceColumn; split <;> rfl
@[simp] theorem advanceColumn_brPos (s : State) : (advanceColumn s).brPos = s.brPos := by
  unfold advanceColumn; split <;> rfl
@[simp] theorem advanceColumn_bwBits (s : State) : (advanceColumn s).bwBits = s.bwBits := by
  unfold advanceColumn; split <;> rfl
@[simp] theorem advanceColumn_mrLen (s : State) : (advanceColumn s).mrLen = s.mrLen := by
  unfold advanceColumn; split <;> rfl
@[simp] theorem advanceColumn_mrPos (s : State) : (advanceColumn s).mrPos = s.mrPos := by
  unfold advanceColumn; split <;> rfl
@[simp] theorem advanceColumn_mwLen (s : State) : (advanceColumn s).mwLen = s.mwLen := by
  unfold advanceColumn; split <;> rfl
@[simp] theorem advanceColumn_dictLen (s : State) : (advanceColumn s).dictLen = s.dictLen := by
  unfold advanceColumn; split <;> rfl
@[simp] theorem advanceColumn_serLen (s : State) : (advanceColumn s).serLen = s.serLen := by
  unfold advanceColumn; split <;> rfl
@[simp] theorem advanceColumn_seqDirect (s : State) : (advanceColumn s).seqDirect = s.seqDirect := by
  unfold advanceColumn; split <;> rfl
@[simp] theorem advanceColumn_seqBlocks (s : State) : (advanceColumn s).seqBlocks = s.seqBlocks := by
  unfold advanceColumn; split <;> rfl
@[simp] theorem advanceColumn_encPend (s : State) : (advanceColumn s).encPend = s.encPend := by
  unfold advanceColumn; split <;> rfl
@[simp] theorem advanceColumn_seqIb (s : State) : (advanceColumn s).seqIb = s.seqIb := by
  unfold advanceColumn; split <;> rfl
@[simp] theorem advanceColumn_phase (s : State) : (advanceColumn s).phase = s.phase := by
  unfold advanceColumn; split <;> rfl
@[simp] theorem advanceColumn_opt (s : State) : (advanceColumn s).opt = s.opt := by
  unfold advanceColumn; split <;> rfl
@[simp] theorem advanceColumn_paths (s : State) : (advanceColumn s).paths = s.paths := by
  unfold advanceColumn; split <;> rfl
@[simp] theorem advanceColumn_encSkipop (s : State) : (advanceColumn s).encSkipop = s.encSkipop := by
  unfold advanceColumn; split <;> rfl
@[simp] theorem advanceColumn_br (s : State) : (advanceColumn s).br = s.br := by
  unfold advanceColumn; split <;> rfl
@[simp] theorem advanceColumn_bw (s : State) : (advanceColumn s).bw = s.bw := by
  unfold advanceColumn; split <;> rfl
@[simp] theorem advanceColumn_mr (s : State) : (advanceColumn s).mr = s.mr := by
  unfold advanceColumn; split <;> rfl
@[simp] theorem advanceColumn_mw (s : State) : (advanceColumn s).mw = s.mw := by
  unfold advanceColumn; split <;> rfl
@[simp] theorem advanceColumn_dict (s : State) : (advanceColumn s).dict = s.dict := by
  unfold advanceColumn; split <;> rfl
@[simp] theorem advanceColumn_ser (s : State) : (advanceColumn s).ser = s.ser := by
  unfold advanceColumn; split <;> rfl
@[simp] theorem advanceColumn_caps (s : State) : (advanceColumn s).caps = s.caps := by
  unfold advanceColumn; split <;> rfl
@[simp] theorem advanceColumn_freeCount (s : State) : (advanceColumn s).freeCount = s.freeCount := by
  unfold advanceColumn; split <;> rfl

end Sys2Proof.Machine
end

