-- ==== Sys2Proof/Laws/Outcome.lean ====
section
/-! SUPPORT. What an attempt, a command and a step can answer: each said once. -/

namespace Sys2Proof.Machine

open Sys2Proof

/-! ## Attempts -/

@[simp] theorem Attempt.bind_ok {α β : Type} (a : α) (f : α → Attempt β) : ((.ok a : Attempt α) >>= f) = f a := rfl
@[simp] theorem Attempt.bind_error {α β : Type} (e : Abort) (f : α → Attempt β) :
    ((.error e : Attempt α) >>= f) = .error e := rfl
@[simp] theorem Attempt.bind_raise {α β : Type} (e : ErrCode) (a b : Word) (f : α → Attempt β) :
    ((raise e a b : Attempt α) >>= f) = raise e a b := rfl
@[simp] theorem Attempt.pure_eq {α : Type} (a : α) : (pure a : Attempt α) = .ok a := rfl
@[simp] theorem raise_ne_ok {α : Type} (e : ErrCode) (a b : Word) (x : α) : (raise e a b : Attempt α) ≠ .ok x := nofun
@[simp] theorem raise_ne_unwritten {α : Type} (e : ErrCode) (a b : Word) (sp : Space) (n : Nat) :
    (raise e a b : Attempt α) ≠ .error (.unwritten sp n) := nofun
@[simp] theorem raise_eq_raise {α : Type} (e e' : ErrCode) (a b a' b' : Word) :
    (raise e a b : Attempt α) = .error (.raise e' a' b') ↔ e = e' ∧ a = a' ∧ b = b' := by
  simp [raise]

/-- A sequence that ends in a value passed through a value. -/
theorem Attempt.bind_eq_ok {α β : Type} {x : Attempt α} {f : α → Attempt β} {b : β} (h : (x >>= f) = .ok b) :
    ∃ a, x = .ok a ∧ f a = .ok b := by
  cases x with
  | error e => cases h
  | ok a => exact ⟨a, rfl, h⟩

/-- A sequence that aborts did so in its first or in its second part. -/
theorem Attempt.bind_eq_error {α β : Type} {x : Attempt α} {f : α → Attempt β} {e : Abort} (h : (x >>= f) = .error e) :
    x = .error e ∨ ∃ a, x = .ok a ∧ f a = .error e := by
  cases x with
  | error e' => left; cases h; rfl
  | ok a => exact .inr ⟨a, rfl, h⟩

/-! ## Outcomes -/

@[simp] theorem finish_ok (s t : State) (v : DWord) : finish s (.ok (t, v)) = .next (t.completed v) := rfl
@[simp] theorem finish_raise (s : State) (e : ErrCode) (a b : Word) :
    finish s (raise e a b) = .next (s.raised e a b) := rfl
@[simp] theorem finish_unwritten (s : State) (sp : Space) (a : Nat) :
    finish s (.error (.unwritten sp a)) = .fault (.unwrittenUnit sp a) := rfl

/-- All that a command's attempt can lead to. -/
theorem finish_cases {s t : State} {x : Attempt (State × DWord)} (h : finish s x = .next t) :
    (∃ u v, x = .ok (u, v) ∧ t = u.completed v) ∨ (∃ e a b, x = .error (.raise e a b) ∧ t = s.raised e a b) := by
  rcases x with e | ⟨u, v⟩
  · cases e with
    | raise e a b => simp only [finish, Host.Outcome.next.injEq] at h; exact .inr ⟨e, a, b, rfl, h.symm⟩
    | unwritten => cases h
  · simp only [finish, Host.Outcome.next.injEq] at h; exact .inl ⟨u, v, rfl, h.symm⟩

theorem finish_ne_refused (s : State) (x : Attempt (State × DWord)) (r : Refusal) : finish s x ≠ .refused r := by
  rcases x with (_ | _) | ⟨_, _⟩ <;> simp [finish]

theorem finish_fault {s : State} {x : Attempt (State × DWord)} {f : Fault} (h : finish s x = .fault f) :
    ∃ sp a, x = .error (.unwritten sp a) ∧ f = .unwrittenUnit sp a := by
  rcases x with (_ | ⟨sp, a⟩) | ⟨_, _⟩ <;> simp [finish] at h
  exact ⟨sp, a, rfl, h.symm⟩

theorem command_ready {s : State} (h : s.fault = false) (x : Attempt (State × DWord)) :
    command s x = finish s x := by simp [command, h]

theorem command_halted {s : State} (h : s.fault = true) (x : Attempt (State × DWord)) :
    command s x = .next (s.raised .halted 0 0) := by simp [command, h]

/-- All that a command can lead to. -/
theorem command_cases {s t : State} {x : Attempt (State × DWord)} (h : command s x = .next t) :
    (s.fault = true ∧ t = s.raised .halted 0 0) ∨
    (s.fault = false ∧ ((∃ u v, x = .ok (u, v) ∧ t = u.completed v) ∨
      (∃ e a b, x = .error (.raise e a b) ∧ t = s.raised e a b))) := by
  unfold command at h
  split at h
  · left; simp_all
  · rename_i hf
    exact .inr ⟨by simpa using hf, finish_cases h⟩

theorem command_fault {s : State} {x : Attempt (State × DWord)} {f : Fault} (h : command s x = .fault f) :
    s.fault = false ∧ ∃ sp a, x = .error (.unwritten sp a) ∧ f = .unwrittenUnit sp a := by
  unfold command at h
  split at h
  · cases h
  · rename_i hf
    exact ⟨by simpa using hf, finish_fault h⟩

theorem command_ne_refused (s : State) (x : Attempt (State × DWord)) (r : Refusal) : command s x ≠ .refused r := by
  unfold command
  split
  · simp
  · exact finish_ne_refused s x r

/-! ## The error effects in the terms of Safety.lean -/

theorem raised_halted (s : State) (a b : Word) : s.raised .halted a b = haltedState s := by
  simp [State.raised, haltedState, ErrCode.setsFault, ErrCode.stopsStream]

theorem raised_contract (s : State) (a b : Word) : s.raised .contract a b = contractState s a b := by
  simp [State.raised, contractState, ErrCode.setsFault, ErrCode.stopsStream]

theorem raised_illegal (s : State) (a : Word) : s.raised .illegalCmd a 0 = illegalState s a := by
  simp [State.raised, illegalState, ErrCode.setsFault, ErrCode.stopsStream]

/-- The errors that neither halt nor stop the stream. -/
theorem raised_report (s : State) {e : ErrCode} (a b : Word) (h1 : e ≠ .halted) (h2 : e.setsFault = false)
    (h3 : e.stopsStream = false) : s.raised e a b = reportState s e a b := by
  simp [State.raised, reportState, h1, h2, h3]

/-- The corrupt-stream errors. -/
theorem raised_corrupt (s : State) {e : ErrCode} (a b : Word) (h : e.stopsStream = true) :
    s.raised e a b = corruptState s e a b := by
  cases e <;> simp_all [State.raised, corruptState, ErrCode.setsFault, ErrCode.stopsStream]

/-! ## One command, one step -/

theorem commandStep_ok {c : Command} {i : Instr} (h : decode c = .ok i) (s : State) : commandStep c s = exec i s := by
  simp [commandStep, h]

theorem commandStep_reject {c : Command} {r : Reject} (h : decode c = .error r) (s : State) :
    commandStep c s = rejectCommand c.cmd s := by simp [commandStep, h]

theorem step_head {s : State} {c : Command} {rest : List Command} (h : s.pending = c :: rest) :
    step s = commandStep c { s with pending := rest } := by simp [step, h]

theorem step_idle {s : State} (h : s.pending = []) : step s = .next s := by simp [step, h]

theorem step_ok {s : State} {c : Command} {rest : List Command} {i : Instr} (h : s.pending = c :: rest)
    (hd : decode c = .ok i) : step s = exec i { s with pending := rest } := by simp [step, commandStep, h, hd]

theorem step_reject {s : State} {c : Command} {rest : List Command} {r : Reject} (h : s.pending = c :: rest)
    (hd : decode c = .error r) : step s = rejectCommand c.cmd { s with pending := rest } := by
  simp [step, commandStep, h, hd]

/-- All that a step can do. -/
theorem step_cases (s : State) :
    (s.pending = [] ∧ step s = .next s) ∨
    ∃ c rest, s.pending = c :: rest ∧
      ((∃ i, decode c = .ok i ∧ step s = exec i { s with pending := rest }) ∨
       (∃ r, decode c = .error r ∧ step s = rejectCommand c.cmd { s with pending := rest })) := by
  cases hp : s.pending with
  | nil => exact .inl ⟨rfl, step_idle hp⟩
  | cons c rest =>
    right
    refine ⟨c, rest, rfl, ?_⟩
    cases hd : decode c with
    | ok i => exact .inl ⟨i, rfl, step_ok hp hd⟩
    | error r => exact .inr ⟨r, rfl, step_reject hp hd⟩

/-- All that an undecodable command does. -/
theorem rejectCommand_cases (cmd : Word) (s : State) :
    (s.fault = true ∧ opcodeField cmd ≠ 0x01 ∧ opcodeField cmd ≠ 0x05 ∧ rejectCommand cmd s = .next (haltedState s)) ∨
    ((s.fault = false ∨ opcodeField cmd = 0x01 ∨ opcodeField cmd = 0x05) ∧
      rejectCommand cmd s = .next (illegalState s cmd)) := by
  unfold rejectCommand
  split
  · rename_i h
    exact .inl ⟨h.1, h.2.1, h.2.2, by rw [raised_halted]⟩
  · rename_i h
    refine .inr ⟨?_, by rw [raised_illegal]⟩
    cases hf : s.fault
    · exact .inl rfl
    · right
      by_contra hc
      simp only [not_or] at hc
      exact h ⟨hf, hc.1, hc.2⟩

end Sys2Proof.Machine
end

