-- ==== Sys2Proof/Laws/BitChannel.lean ====
section
/-! SUPPORT. What the bit reader and the bit writer can do. -/

namespace Sys2Proof.Machine

open Sys2Proof

/-! ## Units -/

theorem fetchUnit_ok {w : Nat} {sp : Space} {m : List (Nat × BitVec w)} {a : Nat} {v : BitVec w} :
    fetchUnit sp m a = .ok v ↔ Memory.read m a = some v := by
  unfold fetchUnit
  split <;> simp_all

theorem fetchUnit_error {w : Nat} {sp : Space} {m : List (Nat × BitVec w)} {a : Nat} {e : Abort} :
    fetchUnit sp m a = .error e ↔ Memory.read m a = none ∧ e = .unwritten sp a := by
  unfold fetchUnit
  cases Memory.read m a <;> simp [eq_comm]

theorem fetchUnit_of_read {w : Nat} {sp : Space} {m : List (Nat × BitVec w)} {a : Nat} {v : BitVec w}
    (h : Memory.read m a = some v) : fetchUnit sp m a = .ok v := fetchUnit_ok.2 h

/-- Consecutive units are all written, or the first unwritten one stops the model. -/
theorem fetchUnits_ok {w : Nat} {sp : Space} {m : List (Nat × BitVec w)} {a n : Nat} {vs : List (BitVec w)} :
    fetchUnits sp m a n = .ok vs ↔ vs.length = n ∧ ∀ k (h : k < vs.length), Memory.read m (a + k) = some vs[k] := by
  induction n generalizing a vs with
  | zero =>
    simp only [fetchUnits, Except.ok.injEq]
    constructor
    · rintro rfl; simp
    · rintro ⟨h, -⟩; exact (List.length_eq_zero_iff.1 h).symm
  | succ n ih =>
    constructor
    · intro h
      obtain ⟨v, h1, h2⟩ := Attempt.bind_eq_ok h
      obtain ⟨ws, h3, h4⟩ := Attempt.bind_eq_ok h2
      cases h4
      obtain ⟨h5, h6⟩ := ih.1 h3
      refine ⟨by simp [h5], ?_⟩
      intro k hk
      cases k with
      | zero => exact fetchUnit_ok.1 h1
      | succ k =>
        have := h6 k (by simpa using hk)
        rw [show a + (k + 1) = a + 1 + k by omega]
        exact this
    · rintro ⟨h1, h2⟩
      cases vs with
      | nil => simp at h1
      | cons v ws =>
        have h3 : fetchUnit sp m a = .ok v := fetchUnit_ok.2 (h2 0 (by simp))
        have h4 : fetchUnits sp m (a + 1) n = .ok ws := by
          refine ih.2 ⟨by simpa using h1, ?_⟩
          intro k hk
          have := h2 (k + 1) (by simpa using hk)
          rw [show a + 1 + k = a + (k + 1) by omega]
          exact this
        simp [fetchUnits, h3, h4]

theorem fetchUnits_error {w : Nat} {sp : Space} {m : List (Nat × BitVec w)} {a n : Nat} {e : Abort}
    (h : fetchUnits sp m a n = .error e) :
    ∃ b, a ≤ b ∧ b < a + n ∧ Memory.read m b = none ∧ e = .unwritten sp b := by
  induction n generalizing a with
  | zero => cases h
  | succ n ih =>
    rcases Attempt.bind_eq_error h with h | ⟨v, -, h⟩
    · obtain ⟨h1, h2⟩ := fetchUnit_error.1 h
      exact ⟨a, le_rfl, by omega, h1, h2⟩
    · rcases Attempt.bind_eq_error h with h | ⟨ws, -, h⟩
      · obtain ⟨b, h1, h2, h3, h4⟩ := ih h
        exact ⟨b, by omega, by omega, h3, h4⟩
      · cases h

/-! ## The reader -/

/-- Units of which one is unwritten stop the model. -/
theorem fetchUnits_unwritten {w : Nat} {sp : Space} {m : List (Nat × BitVec w)} {a n k : Nat} (hk : k < n)
    (hr : Memory.read m (a + k) = none) :
    ∃ b, a ≤ b ∧ b < a + n ∧ Memory.read m b = none ∧ fetchUnits sp m a n = .error (.unwritten sp b) := by
  cases hp : fetchUnits sp m a n with
  | ok vs =>
    obtain ⟨h1, h2⟩ := fetchUnits_ok.1 hp
    have := h2 k (by omega)
    simp [hr] at this
  | error e => obtain ⟨b, h1, h2, h3, rfl⟩ := fetchUnits_error hp; exact ⟨b, h1, h2, h3, rfl⟩

theorem bitAt_ok {s : State} {i : Nat} {b : Bool} (h : bitAt s i = .ok b) : b = streamBit s i := by
  unfold bitAt at h
  unfold streamBit
  split at h
  · rename_i hi
    obtain ⟨v, h1, h2⟩ := Attempt.bind_eq_ok h
    cases h2
    simp [hi, bufferBit, fetchUnit_ok.1 h1]
  · rename_i hi
    cases h
    simp [hi]

theorem bitAt_error {s : State} {i : Nat} {e : Abort} (h : bitAt s i = .error e) :
    ∃ a < s.brLen.toNat, Memory.read s.br a = none ∧ e = .unwritten .br a := by
  unfold bitAt at h
  split at h
  · rcases Attempt.bind_eq_error h with h | ⟨v, -, h⟩
    · obtain ⟨h1, h2⟩ := fetchUnit_error.1 h
      exact ⟨i / 8, by omega, h1, h2⟩
    · cases h
  · cases h

/-- A peek that answers gives the stream field. -/
theorem peekFrom_ok {s : State} {pos n v : Nat} (h : peekFrom s pos n = .ok v) : v = streamField s pos n := by
  induction n generalizing pos v with
  | zero => cases h; rfl
  | succ n ih =>
    obtain ⟨b, h1, h2⟩ := Attempt.bind_eq_ok h
    obtain ⟨r, h3, h4⟩ := Attempt.bind_eq_ok h2
    cases h4
    rw [bitAt_ok h1, ih h3]
    rfl

/-- A peek stops only at an unwritten byte below BR_LEN. -/
theorem peekFrom_error {s : State} {pos n : Nat} {e : Abort} (h : peekFrom s pos n = .error e) :
    ∃ a < s.brLen.toNat, Memory.read s.br a = none ∧ e = .unwritten .br a := by
  induction n generalizing pos with
  | zero => cases h
  | succ n ih =>
    rcases Attempt.bind_eq_error h with h | ⟨b, -, h⟩
    · exact bitAt_error h
    · rcases Attempt.bind_eq_error h with h | ⟨r, -, h⟩
      · exact ih h
      · cases h

/-- Over a loaded reader a peek answers. -/
theorem peekFrom_loaded {s : State} (h : s.ReaderLoaded) (pos n : Nat) :
    peekFrom s pos n = .ok (streamField s pos n) := by
  cases hp : peekFrom s pos n with
  | ok v => rw [peekFrom_ok hp]
  | error e =>
    obtain ⟨a, h1, h2, -⟩ := peekFrom_error hp
    have := h a h1
    simp [h2] at this

/-- A peek that answers has read every byte below BR_LEN that holds one of its bits. -/
theorem peekFrom_read {s : State} {pos n v k : Nat} (h : peekFrom s pos n = .ok v) (hk : k < n)
    (hb : pos + k < 8 * s.brLen.toNat) : (Memory.read s.br ((pos + k) / 8)).isSome := by
  induction n generalizing pos v k with
  | zero => omega
  | succ n ih =>
    obtain ⟨b, h1, h2⟩ := Attempt.bind_eq_ok h
    obtain ⟨r, h3, -⟩ := Attempt.bind_eq_ok h2
    cases k with
    | zero =>
      unfold bitAt at h1
      rw [if_pos (by simpa using hb)] at h1
      obtain ⟨x, h4, -⟩ := Attempt.bind_eq_ok h1
      simp [fetchUnit_ok.1 h4]
    | succ k => simpa [Nat.add_assoc, Nat.add_comm 1] using ih (k := k) h3 (by omega) (by omega)

/-- A peek over an unwritten byte stops the model. -/
theorem peekFrom_unwritten {s : State} {pos n k : Nat} (hk : k < n) (hb : pos + k < 8 * s.brLen.toNat)
    (hr : Memory.read s.br ((pos + k) / 8) = none) :
    ∃ a < s.brLen.toNat, Memory.read s.br a = none ∧ peekFrom s pos n = .error (.unwritten .br a) := by
  cases hp : peekFrom s pos n with
  | ok v => have := peekFrom_read hp hk hb; simp [hr] at this
  | error e => obtain ⟨a, h1, h2, rfl⟩ := peekFrom_error hp; exact ⟨a, h1, h2, rfl⟩

theorem streamField_lt (s : State) (pos n : Nat) : streamField s pos n < 2 ^ n := by
  induction n generalizing pos with
  | zero => simp [streamField]
  | succ n ih =>
    have := ih (pos + 1)
    have hb : (streamBit s pos).toNat ≤ 1 := Bool.toNat_le _
    simp only [streamField]
    calc (streamBit s pos).toNat * 2 ^ n + streamField s (pos + 1) n
        < 1 * 2 ^ n + 2 ^ n := by
          have := Nat.mul_le_mul_right (2 ^ n) hb
          omega
      _ = 2 ^ (n + 1) := by omega

/-- Bit k of a stream field, counted from its first bit, is the stream's. -/
theorem streamField_testBit (s : State) (pos n k : Nat) (h : k < n) :
    (streamField s pos n).testBit (n - 1 - k) = streamBit s (pos + k) := by
  induction n generalizing pos k with
  | zero => omega
  | succ n ih =>
    have hlt := streamField_lt s (pos + 1) n
    simp only [streamField]
    rw [Nat.mul_comm, Nat.testBit_two_pow_mul_add _ hlt]
    cases k with
    | zero => cases streamBit s pos <;> simp
    | succ k =>
      rw [if_pos (by omega), show n + 1 - 1 - (k + 1) = n - 1 - k by omega, ih (pos + 1) k (by omega)]
      congr 1
      omega

/-! ## The writer -/

theorem fieldBits_append (fs gs : List (Nat × Nat)) : fieldBits (fs ++ gs) = fieldBits fs ++ fieldBits gs := by
  simp [fieldBits]

theorem fieldWidth_append (fs gs : List (Nat × Nat)) : fieldWidth (fs ++ gs) = fieldWidth fs + fieldWidth gs := by
  simp [fieldWidth]

@[simp] theorem fieldWidth_nil : fieldWidth [] = 0 := rfl
@[simp] theorem fieldWidth_cons (v n : Nat) (fs : List (Nat × Nat)) : fieldWidth ((v, n) :: fs) = n + fieldWidth fs := by
  simp [fieldWidth]

@[simp] theorem fieldBits_length (fs : List (Nat × Nat)) : (fieldBits fs).length = fieldWidth fs := by
  induction fs with
  | nil => rfl
  | cons f fs ih =>
    obtain ⟨v, n⟩ := f
    rw [fieldWidth_cons, ← ih]
    simp [fieldBits]

/-- A field's first bit, then the others. -/
theorem fieldBits_succ (v n : Nat) : fieldBits [(v, n + 1)] = v.testBit n :: fieldBits [(v, n)] := by
  simp [fieldBits, List.range_succ_eq_map]
  intro k hk
  congr 1
  omega

/-- Appending nothing. -/
theorem Appended.refl {s : State} (h : s.BitWriterLegal) : Appended s s [] := by
  obtain ⟨h1, h2⟩ := h
  refine ⟨by simp, fun _ _ => rfl, by simp, ?_, h1, fun _ _ => rfl⟩
  intro i hi hlt
  have hm : s.bwBits.toNat % 8 ≠ 0 := by
    simp only [bytesFor] at hlt
    omega
  have hd : i / 8 = s.bwBits.toNat / 8 := by
    simp only [bytesFor] at hlt
    omega
  unfold bufferBit
  split
  · rename_i b hb
    rw [hd] at hb
    exact h2 hm b hb _ (by omega)
  · rfl

/-- Appending one list of fields after another. -/
theorem Appended.trans {s t u : State} {fs gs : List (Nat × Nat)} (h : Appended s t fs) (h' : Appended t u gs) :
    Appended s u (fs ++ gs) := by
  obtain ⟨a1, a2, a3, a4, a5, a6⟩ := h
  obtain ⟨b1, b2, b3, b4, b5, b6⟩ := h'
  refine ⟨by rw [b1, a1, fieldWidth_append]; omega, ?_, ?_, b4, b5, ?_⟩
  · intro i hi
    rw [b2 i (by omega), a2 i hi]
  · intro k hk
    rw [fieldWidth_append] at hk
    rw [fieldBits_append]
    by_cases hk1 : k < fieldWidth fs
    · rw [b2 _ (by omega), a3 k hk1]
      simp [List.getD_eq_getElem?_getD, List.getElem?_append, hk1]
    · have := b3 (k - fieldWidth fs) (by omega)
      rw [show s.bwBits.toNat + k = t.bwBits.toNat + (k - fieldWidth fs) by omega, this]
      simp [List.getD_eq_getElem?_getD, List.getElem?_append, hk1]
  · intro a ha
    have hm : bytesFor t.bwBits.toNat ≤ bytesFor u.bwBits.toNat := by simp only [bytesFor]; omega
    rw [b6 a (by omega), a6 a (by omega)]

/-- Only the bits of the fields count. -/
theorem Appended.congr {s t : State} {fs gs : List (Nat × Nat)} (h : Appended s t fs) (hb : fieldBits fs = fieldBits gs) :
    Appended s t gs := by
  have hw : fieldWidth fs = fieldWidth gs := by rw [← fieldBits_length, ← fieldBits_length, hb]
  unfold Appended at *
  rwa [hw, hb] at h

/-- An append keeps the writers' form. -/
theorem Appended.bitWriterLegal {s t : State} {fs : List (Nat × Nat)} (h : Appended s t fs) : t.BitWriterLegal := by
  obtain ⟨-, -, -, h4, h5, -⟩ := h
  refine ⟨h5, ?_⟩
  intro hne b hb k hk
  have h := h4 (8 * (t.bwBits.toNat / 8) + (7 - k)) (by omega) (by simp only [bytesFor]; omega)
  unfold bufferBit at h
  rw [show (8 * (t.bwBits.toNat / 8) + (7 - k)) / 8 = t.bwBits.toNat / 8 by omega, hb] at h
  rw [show 7 - (8 * (t.bwBits.toNat / 8) + (7 - k)) % 8 = k by omega] at h
  exact h

theorem getLsbD_setBit (x : Byte) (k j : Nat) (b : Bool) (hk : k < 8) :
    (setBit x k b).getLsbD j = if j = k then b else x.getLsbD j := by
  by_cases hj : j < 8
  · unfold setBit
    revert x b
    have : ∀ k : Fin 8, ∀ j : Fin 8, ∀ x : Byte, ∀ b : Bool,
        ((x &&& ~~~(1#8 <<< k.val)) ||| (if b then 1#8 <<< k.val else 0)).getLsbD j.val =
          if j.val = k.val then b else x.getLsbD j.val := by
      intro k j x b
      fin_cases k <;> fin_cases j <;> cases b <;> simp
    exact fun x b => this ⟨k, hk⟩ ⟨j, hj⟩ x b
  · rw [BitVec.getLsbD_of_ge _ _ (by omega), BitVec.getLsbD_of_ge _ _ (by omega), if_neg (by omega)]

/-- Appending one bit, with room, to a legal writer. -/
theorem appendBit_spec {s : State} (b : Bool) (hw : s.BitWriterLegal) (hroom : s.RoomFor 1) :
    ∃ t, appendBit b s = .ok t ∧ Appended s t [(b.toNat, 1)] ∧ t = { s with bw := t.bw, bwBits := t.bwBits } := by
  have hcap := s.caps.bw.atMost
  have hr : (s.bwBits.toNat + 1 + 7) / 8 ≤ 2 ^ 20 := le_trans hroom hcap
  have hp : s.bwBits.toNat + 1 < 2 ^ 32 := by omega
  obtain ⟨byte, hbyte, hzero⟩ : ∃ byte : Byte,
      openByte s = .ok byte ∧
      ((s.bwBits.toNat % 8 = 0 ∧ byte = 0) ∨
        (s.bwBits.toNat % 8 ≠ 0 ∧ Memory.read s.bw (s.bwBits.toNat / 8) = some byte)) := by
    by_cases h0 : s.bwBits.toNat % 8 = 0
    · exact ⟨0, by simp [openByte, h0], .inl ⟨h0, rfl⟩⟩
    · have := hw.1 (s.bwBits.toNat / 8) (by simp only [bytesFor]; omega)
      obtain ⟨x, hx⟩ := Option.isSome_iff_exists.1 this
      exact ⟨x, by simp [openByte, h0, fetchUnit_of_read hx], .inr ⟨h0, hx⟩⟩
  have heq : appendBit b s = .ok { s with
      bw := Memory.write s.bw (s.bwBits.toNat / 8) (setBit byte (7 - s.bwBits.toNat % 8) b)
      bwBits := BitVec.ofNat 32 (s.bwBits.toNat + 1) } := by
    simp [appendBit, hbyte]
  refine ⟨_, heq, ?_, rfl⟩
  have hn : (BitVec.ofNat 32 (s.bwBits.toNat + 1)).toNat = s.bwBits.toNat + 1 := by
    rw [BitVec.toNat_ofNat, Nat.mod_eq_of_lt hp]
  have hread : ∀ i, bufferBit (Memory.write s.bw (s.bwBits.toNat / 8) (setBit byte (7 - s.bwBits.toNat % 8) b)) i =
      if i / 8 = s.bwBits.toNat / 8 then (if i = s.bwBits.toNat then b else byte.getLsbD (7 - i % 8))
      else bufferBit s.bw i := by
    intro i
    unfold bufferBit
    rw [Memory.read_write]
    by_cases hi : i / 8 = s.bwBits.toNat / 8
    · simp only [hi, if_true]
      rw [getLsbD_setBit _ _ _ _ (by omega)]
      by_cases hi2 : i = s.bwBits.toNat
      · simp [hi2]
      · rw [if_neg (by omega), if_neg hi2]
    · simp [hi]
  refine ⟨by simp [hn], ?_, ?_, ?_, ?_, ?_⟩
  · intro i hi
    rw [hread]
    split
    · rename_i hd
      rw [if_neg (by omega)]
      rcases hzero with ⟨h0, -⟩ | ⟨h0, hx⟩
      · omega
      · unfold bufferBit
        rw [hd, hx]
    · rfl
  · intro k hk
    simp only [fieldWidth_cons, fieldWidth_nil] at hk
    have : k = 0 := by omega
    subst this
    rw [hread]
    cases b <;> simp [fieldBits]
  · intro i hi hi2
    simp only [hn] at hi hi2
    simp only [bytesFor] at hi2
    rw [hread, if_pos (by omega), if_neg (by omega)]
    rcases hzero with ⟨-, rfl⟩ | ⟨h0, hx⟩
    · simp
    · exact hw.2 h0 byte hx _ (by omega)
  · intro a ha
    simp only [hn, bytesFor] at ha
    simp only [Memory.read_write]
    split
    · rfl
    · exact hw.1 a (by simp only [bytesFor]; omega)
  · intro a ha
    simp only [hn, bytesFor] at ha
    simp only [Memory.read_write]
    rw [if_neg (by omega)]

/-- Appending a field, with room, to a legal writer. -/
theorem appendBits_spec {s : State} (n v : Nat) (hw : s.BitWriterLegal) (hroom : s.RoomFor n) :
    ∃ t, appendBits n v s = .ok t ∧ Appended s t [(v, n)] ∧ t = { s with bw := t.bw, bwBits := t.bwBits } := by
  induction n generalizing s with
  | zero =>
    refine ⟨s, rfl, (Appended.refl hw).congr ?_, rfl⟩
    simp [fieldBits]
  | succ n ih =>
    have hr1 : s.RoomFor 1 := by
      unfold State.RoomFor bytesFor at *
      omega
    obtain ⟨t, h1, h2, h3⟩ := appendBit_spec (v.testBit n) hw hr1
    have hbits : t.bwBits.toNat = s.bwBits.toNat + 1 := by simpa using h2.1
    have hcaps : t.caps = s.caps := by rw [h3]
    have hw' : t.BitWriterLegal := h2.bitWriterLegal
    have hr' : t.RoomFor n := by
      unfold State.RoomFor at *
      rw [hbits, hcaps]
      rwa [show s.bwBits.toNat + 1 + n = s.bwBits.toNat + (n + 1) by omega]
    obtain ⟨u, h4, h5, h6⟩ := ih hw' hr'
    refine ⟨u, by simp [appendBits, h1, h4], (h2.trans h5).congr ?_, ?_⟩
    · rw [fieldBits_append, fieldBits_succ v n]
      cases v.testBit n <;> simp [fieldBits]
    · rw [h6, h3]

/-- AppendBits with its check, with room. -/
theorem putBits_spec {s : State} (n v : Nat) (hw : s.BitWriterLegal) (hroom : s.RoomFor n) :
    ∃ t, putBits n v s = .ok t ∧ Appended s t [(v, n)] ∧ t = { s with bw := t.bw, bwBits := t.bwBits } := by
  unfold putBits
  rw [if_neg (by unfold State.RoomFor at hroom; omega)]
  exact appendBits_spec n v hw hroom

/-- AppendBits with its check, without room. -/
theorem putBits_full {s : State} (n v : Nat) (hroom : ¬ s.RoomFor n) :
    putBits n v s = raise .bufferFull 1 (natInfo s.caps.bw.units) := by
  unfold putBits
  rw [if_pos (by unfold State.RoomFor at hroom; omega)]
  rfl

/-- A field masked to its width has the same bits. -/
theorem fieldBits_mod (v n : Nat) : fieldBits [(v % 2 ^ n, n)] = fieldBits [(v, n)] := by
  simp only [fieldBits, List.flatMap_cons, List.flatMap_nil, List.append_nil]
  apply List.map_congr_left
  intro k hk
  simp only [List.mem_range] at hk
  rw [Nat.testBit_mod_two_pow]
  simp [show n - 1 - k < n by omega]

/-! ## Every outcome of the writer -/

/-- The byte that the next bit goes into can be read. -/
def State.OpenReady (s : State) : Prop :=
  s.bwBits.toNat % 8 = 0 ∨ (Memory.read s.bw (s.bwBits.toNat / 8)).isSome

theorem openByte_ready {s : State} (h : s.OpenReady) : ∃ x, openByte s = .ok x := by
  unfold openByte
  split
  · exact ⟨0, rfl⟩
  · rename_i hne
    obtain ⟨x, hx⟩ := Option.isSome_iff_exists.1 (h.resolve_left hne)
    exact ⟨x, fetchUnit_of_read hx⟩

theorem openByte_error {s : State} {e : Abort} (h : openByte s = .error e) :
    ∃ a < bytesFor s.bwBits.toNat, Memory.read s.bw a = none ∧ e = .unwritten .bw a := by
  unfold openByte at h
  split at h
  · cases h
  · obtain ⟨h1, h2⟩ := fetchUnit_error.1 h
    exact ⟨_, by simp only [bytesFor]; omega, h1, h2⟩

theorem appendBit_ok {s t : State} {b : Bool} (h : appendBit b s = .ok t) :
    ∃ x, t = { s with bw := Memory.write s.bw (s.bwBits.toNat / 8) x, bwBits := BitVec.ofNat 32 (s.bwBits.toNat + 1) } := by
  obtain ⟨byte, -, h2⟩ := Attempt.bind_eq_ok h
  cases h2
  exact ⟨_, rfl⟩

/-- After a bit, with room, the next one can be appended. -/
theorem appendBit_ready {s t : State} {b : Bool} (h : appendBit b s = .ok t) (hroom : s.RoomFor 1) :
    t.OpenReady ∧ t.bwBits.toNat = s.bwBits.toNat + 1 ∧ t.caps = s.caps := by
  obtain ⟨x, ht⟩ := appendBit_ok h
  have hr : (s.bwBits.toNat + 1 + 7) / 8 ≤ 2 ^ 20 := le_trans hroom s.caps.bw.atMost
  have hb : t.bwBits.toNat = s.bwBits.toNat + 1 := by
    rw [ht, BitVec.toNat_ofNat, Nat.mod_eq_of_lt (by omega)]
  refine ⟨?_, hb, by rw [ht]⟩
  unfold State.OpenReady
  rw [hb]
  by_cases h8 : (s.bwBits.toNat + 1) % 8 = 0
  · exact .inl h8
  · right
    rw [show (s.bwBits.toNat + 1) / 8 = s.bwBits.toNat / 8 by omega, ht]
    simp

theorem appendBits_ready {n v : Nat} {s : State} (h : s.OpenReady) (hroom : s.RoomFor n) (e : Abort) :
    appendBits n v s ≠ .error e := by
  induction n generalizing s with
  | zero => nofun
  | succ n ih =>
    intro he
    rcases Attempt.bind_eq_error he with he | ⟨t, h1, he⟩
    · obtain ⟨x, hx⟩ := openByte_ready h
      simp [appendBit, hx] at he
    · obtain ⟨h2, h3, h4⟩ := appendBit_ready h1 (by unfold State.RoomFor bytesFor at *; omega)
      refine ih h2 ?_ he
      unfold State.RoomFor at *
      rw [h3, h4]
      rwa [show s.bwBits.toNat + 1 + n = s.bwBits.toNat + (n + 1) by omega]

/-- AppendBits stops only at the writer's last byte, where nothing has written it. -/
theorem appendBits_error {n v : Nat} {s : State} {e : Abort} (h : appendBits n v s = .error e) (hroom : s.RoomFor n) :
    ∃ a < bytesFor s.bwBits.toNat, Memory.read s.bw a = none ∧ e = .unwritten .bw a := by
  cases n with
  | zero => cases h
  | succ n =>
    rcases Attempt.bind_eq_error h with h | ⟨t, h1, h⟩
    · rcases Attempt.bind_eq_error h with h | ⟨x, -, h⟩
      · exact openByte_error h
      · cases h
    · exfalso
      obtain ⟨h2, h3, h4⟩ := appendBit_ready h1 (by unfold State.RoomFor bytesFor at *; omega)
      refine appendBits_ready h2 ?_ e h
      unfold State.RoomFor at *
      rw [h3, h4]
      rwa [show s.bwBits.toNat + 1 + n = s.bwBits.toNat + (n + 1) by omega]

/-- From s to t nothing but the bit writer changed, and everything a writer keeps is kept. -/
structure BwOnly (s t : State) : Prop where
  frame : t = { s with bw := t.bw, bwBits := t.bwBits }
  wf : Memory.wf s.bw → Memory.wf t.bw
  range : (∀ c ∈ s.bw, c.1 < s.caps.bw.units) → ∀ c ∈ t.bw, c.1 < s.caps.bw.units
  room : s.RoomFor 0 → t.RoomFor 0
  writers : s.BitWriterLegal → t.BitWriterLegal
  ready : t = s ∨ t.OpenReady

theorem BwOnly.refl (s : State) : BwOnly s s := ⟨rfl, fun h => h, fun h => h, fun h => h, fun h => h, .inl rfl⟩

theorem BwOnly.caps {s t : State} (h : BwOnly s t) : t.caps = s.caps := by rw [h.frame]

theorem BwOnly.trans {s t u : State} (h : BwOnly s t) (h' : BwOnly t u) : BwOnly s u where
  frame := by rw [h'.frame, h.frame]
  wf hw := h'.wf (h.wf hw)
  range hr := by
    have := h'.range
    rw [h.caps] at this
    exact this (h.range hr)
  room hr := h'.room (h.room hr)
  writers hw := h'.writers (h.writers hw)
  ready := by
    rcases h'.ready with h1 | h1
    · rw [h1]; exact h.ready
    · exact .inr h1

/-- AppendBits, with room, changes the bit writer alone. -/
theorem appendBits_ok {n v : Nat} {s t : State} (h : appendBits n v s = .ok t) (hroom : s.RoomFor n) : BwOnly s t := by
  have hwr : s.BitWriterLegal → t.BitWriterLegal := by
    intro hw
    obtain ⟨u, h1, h2, h3⟩ := appendBits_spec n v hw hroom
    rw [h1] at h
    cases h
    exact h2.bitWriterLegal
  induction n generalizing s with
  | zero => cases h; exact .refl _
  | succ n ih =>
    obtain ⟨u, h1, h2⟩ := Attempt.bind_eq_ok h
    obtain ⟨x, hu⟩ := appendBit_ok h1
    have hr1 : s.RoomFor 1 := by unfold State.RoomFor bytesFor at *; omega
    obtain ⟨hready, hb, hcaps⟩ := appendBit_ready h1 hr1
    have hru : u.RoomFor n := by
      unfold State.RoomFor at *
      rw [hb, hcaps]
      rwa [show s.bwBits.toNat + 1 + n = s.bwBits.toNat + (n + 1) by omega]
    have hut : BwOnly u t := by
      refine ih h2 hru ?_
      intro hw
      obtain ⟨y, h3, h4, h5⟩ := appendBits_spec n v hw hru
      rw [h3] at h2
      cases h2
      exact h4.bitWriterLegal
    refine ⟨by rw [hut.frame, hu], ?_, ?_, ?_, hwr, ?_⟩
    · intro hw
      refine hut.wf ?_
      rw [hu]
      exact Memory.wf_write _ _ hw
    · intro hr
      have := hut.range
      rw [hcaps] at this
      refine this fun c hc => ?_
      rw [hu] at hc
      rcases Memory.mem_write hc with hc | hc
      · subst hc
        simp only
        unfold State.RoomFor bytesFor at hr1
        omega
      · exact hr c hc
    · intro _
      refine hut.room ?_
      unfold State.RoomFor at *
      rw [hb, hcaps]
      simpa using hr1
    · rcases hut.ready with hr | hr
      · rw [hr]; exact .inr hready
      · exact .inr hr

/-- All that an attempt to write can answer. -/
def WriterOutcome (s : State) (x : Attempt State) : Prop :=
  (∃ t, x = .ok t ∧ BwOnly s t) ∨
  x = raise .bufferFull 1 (natInfo s.caps.bw.units) ∨
  (¬ s.OpenReady ∧ ∃ a < bytesFor s.bwBits.toNat, Memory.read s.bw a = none ∧ x = .error (.unwritten .bw a))

/-- One attempt to write after another. -/
theorem WriterOutcome.bind {s : State} {x : Attempt State} {f : State → Attempt State} (h : WriterOutcome s x)
    (hf : ∀ t, BwOnly s t → WriterOutcome t (f t)) : WriterOutcome s (x >>= f) := by
  rcases h with ⟨t, rfl, ht⟩ | rfl | ⟨h1, a, h2, h3, rfl⟩
  · rcases hf t ht with ⟨u, h2, h3⟩ | h2 | ⟨h2, a, h3, h4, h5⟩
    · exact .inl ⟨u, h2, ht.trans h3⟩
    · right; left
      rw [Attempt.bind_ok, h2, ht.caps]
    · rcases ht.ready with h6 | h6
      · subst h6
        exact .inr (.inr ⟨h2, a, h3, h4, h5⟩)
      · exact absurd h6 h2
  · exact .inr (.inl rfl)
  · exact .inr (.inr ⟨h1, a, h2, h3, rfl⟩)

/-- All that an AppendBits with its check can answer. -/
theorem putBits_outcome (n v : Nat) (s : State) : WriterOutcome s (putBits n v s) := by
  by_cases hr : s.RoomFor n
  · have hp : putBits n v s = appendBits n v s := by
      unfold putBits
      rw [if_neg (by unfold State.RoomFor at hr; omega)]
    rw [hp]
    cases h : appendBits n v s with
    | ok t => exact .inl ⟨t, rfl, appendBits_ok h hr⟩
    | error e =>
      obtain ⟨a, h1, h2, h3⟩ := appendBits_error h hr
      exact .inr (.inr ⟨fun hc => appendBits_ready hc hr e h, a, h1, h2, by rw [h3]⟩)
  · exact .inr (.inl (putBits_full n v hr))

/-- A legal writer never stops. -/
theorem State.BitWriterLegal.openReady {s : State} (h : s.BitWriterLegal) : s.OpenReady := by
  by_cases h0 : s.bwBits.toNat % 8 = 0
  · exact .inl h0
  · exact .inr (h.1 _ (by simp only [bytesFor]; omega))

end Sys2Proof.Machine
end

