-- ==== Sys2Proof/Laws/Bytes.lean ====
section
/-! SUPPORT. What the mask reader, the serializer and the deserializer can do. -/

namespace Sys2Proof.Machine

open Sys2Proof

/-! ## Bytes of a value -/

@[simp] theorem bytesLE_length {w : Nat} (v : BitVec w) (k : Nat) : (bytesLE v k).length = k := by simp [bytesLE]

@[simp] theorem getElem_bytesLE {w : Nat} (v : BitVec w) (k j : Nat) (h : j < (bytesLE v k).length) :
    (bytesLE v k)[j] = BitVec.ofNat 8 (v.toNat / 2 ^ (8 * j)) := by
  apply BitVec.eq_of_toNat_eq
  simp [bytesLE, BitVec.extractLsb'_toNat, Nat.shiftRight_eq_div_pow]

@[simp] theorem le32_length (w : Word) : (le32 w).length = 4 := by simp [le32]

@[simp] theorem getElem_le32 (w : Word) (j : Nat) (h : j < (le32 w).length) :
    (le32 w)[j] = BitVec.ofNat 8 (w.toNat / 2 ^ (8 * j)) := getElem_bytesLE w 4 j h

/-- The number that bytes stand for is below 256 to their count. -/
theorem natOfLE_lt (bs : List Byte) : natOfLE bs < 2 ^ (8 * bs.length) := by
  induction bs with
  | nil => simp [natOfLE]
  | cons b bs ih =>
    have := b.isLt
    rw [natOfLE, List.length_cons, show 8 * (bs.length + 1) = 8 * bs.length + 8 by ring, pow_add]
    generalize 2 ^ (8 * bs.length) = P at *
    omega

/-- Byte j of the number that bytes stand for. -/
theorem natOfLE_byte (bs : List Byte) (j : Nat) (h : j < bs.length) :
    BitVec.ofNat 8 (natOfLE bs / 2 ^ (8 * j)) = bs[j] := by
  induction bs generalizing j with
  | nil => simp at h
  | cons b bs ih =>
    have hb := b.isLt
    cases j with
    | zero =>
      apply BitVec.eq_of_toNat_eq
      simp [natOfLE]
      exact hb
    | succ j =>
      have hd : natOfLE (b :: bs) / 2 ^ (8 * (j + 1)) = natOfLE bs / 2 ^ (8 * j) := by
        rw [show 8 * (j + 1) = 8 + 8 * j by ring, pow_add, ← Nat.div_div_eq_div_mul, natOfLE]
        congr 1
        omega
      rw [hd, List.getElem_cons_succ]
      exact ih j (by simpa using h)

/-- Bytes of a number stand for it, as far as they reach. -/
theorem natOfLE_of_bytes {bs : List Byte} {v : Nat}
    (h : ∀ j (hj : j < bs.length), bs[j] = BitVec.ofNat 8 (v / 2 ^ (8 * j))) :
    natOfLE bs = v % 2 ^ (8 * bs.length) := by
  induction bs generalizing v with
  | nil => simp [natOfLE, Nat.mod_one]
  | cons b bs ih =>
    have h0 := h 0 (by simp)
    simp only [List.getElem_cons_zero, Nat.mul_zero, pow_zero, Nat.div_one] at h0
    have hs : natOfLE bs = (v / 2 ^ 8) % 2 ^ (8 * bs.length) := by
      apply ih
      intro j hj
      have := h (j + 1) (by simpa using hj)
      rw [List.getElem_cons_succ] at this
      rw [this, Nat.div_div_eq_div_mul, ← pow_add, show 8 + 8 * j = 8 * (j + 1) by ring]
    rw [natOfLE, hs, h0, BitVec.toNat_ofNat, List.length_cons, show 8 * (bs.length + 1) = 8 + 8 * bs.length by ring,
      pow_add, Nat.mod_mul]

theorem natOfLE_le32 (w : Word) : natOfLE (le32 w) = w.toNat := by
  rw [natOfLE_of_bytes (v := w.toNat)]
  · rw [le32_length, Nat.mod_eq_of_lt w.isLt]
  · intro j hj
    exact getElem_bytesLE w 4 j hj

/-! ## The mask reader -/

theorem maskByte_ok {s : State} {i : Nat} {b : Byte} (h : maskByte s i = .ok b) :
    some b = if i < s.mrLen.toNat then Memory.read s.mr i else some 0 := by
  unfold maskByte at h
  split at h
  · rw [if_pos ‹_›, fetchUnit_ok.1 h]
  · rw [if_neg ‹_›]
    cases h
    rfl

/-- The bytes that a mask read answers. -/
theorem maskBytesFrom_ok {s : State} {pos k : Nat} {bs : List Byte} (h : maskBytesFrom s pos k = .ok bs) :
    bs.length = k ∧ ∀ j (hj : j < bs.length),
      some bs[j] = if pos + j < s.mrLen.toNat then Memory.read s.mr (pos + j) else some 0 := by
  induction k generalizing pos bs with
  | zero => cases h; simp
  | succ k ih =>
    obtain ⟨b, h1, h2⟩ := Attempt.bind_eq_ok h
    obtain ⟨cs, h3, h4⟩ := Attempt.bind_eq_ok h2
    cases h4
    obtain ⟨h5, h6⟩ := ih h3
    refine ⟨by simp [h5], ?_⟩
    intro j hj
    cases j with
    | zero => exact maskByte_ok h1
    | succ j =>
      have := h6 j (by simpa using hj)
      rw [show pos + (j + 1) = pos + 1 + j by omega]
      exact this

/-- A mask read stops only at an unwritten byte below MR_LEN. -/
theorem maskBytesFrom_error {s : State} {pos k : Nat} {e : Abort} (h : maskBytesFrom s pos k = .error e) :
    ∃ a < s.mrLen.toNat, Memory.read s.mr a = none ∧ e = .unwritten .mr a := by
  induction k generalizing pos with
  | zero => cases h
  | succ k ih =>
    rcases Attempt.bind_eq_error h with h | ⟨b, -, h⟩
    · unfold maskByte at h
      split at h
      · obtain ⟨h1, h2⟩ := fetchUnit_error.1 h
        exact ⟨pos, ‹_›, h1, h2⟩
      · cases h
    · rcases Attempt.bind_eq_error h with h | ⟨cs, -, h⟩
      · exact ih h
      · cases h

theorem maskBytesFrom_loaded {s : State} (h : s.MaskLoaded) (pos k : Nat) : ∃ bs, maskBytesFrom s pos k = .ok bs := by
  cases hm : maskBytesFrom s pos k with
  | ok bs => exact ⟨bs, rfl⟩
  | error e =>
    obtain ⟨a, h1, h2, -⟩ := maskBytesFrom_error hm
    have := h a h1
    simp [h2] at this

/-- A read of mask bytes that meets an unwritten one stops the model. -/
theorem maskBytesFrom_unwritten {s : State} {pos k j : Nat} (hj : j < k) (hl : pos + j < s.mrLen.toNat)
    (hr : Memory.read s.mr (pos + j) = none) :
    ∃ a < s.mrLen.toNat, Memory.read s.mr a = none ∧ maskBytesFrom s pos k = .error (.unwritten .mr a) := by
  cases hp : maskBytesFrom s pos k with
  | ok bs =>
    obtain ⟨h1, h2⟩ := maskBytesFrom_ok hp
    have := h2 j (by omega)
    simp [hl, hr] at this
  | error e => obtain ⟨a, h1, h2, rfl⟩ := maskBytesFrom_error hp; exact ⟨a, h1, h2, rfl⟩

/-! ## The deserializer -/

/-- A word of SER whose four bytes are written. -/
theorem serWord_ok {s : State} {a w : Nat} (hw : w < 2 ^ 32)
    (h : ∀ j < 4, Memory.read s.ser (a + j) = some (BitVec.ofNat 8 (w / 2 ^ (8 * j)))) :
    serWord s a = .ok (BitVec.ofNat 32 w) := by
  have hf : fetchUnits .ser s.ser a 4 = .ok (bytesLE (BitVec.ofNat 32 w) 4) := by
    refine fetchUnits_ok.2 ⟨by simp, ?_⟩
    intro k hk
    rw [getElem_bytesLE, BitVec.toNat_ofNat, Nat.mod_eq_of_lt hw]
    exact h k (by simpa using hk)
  rw [serWord, hf, Attempt.bind_ok]
  have := natOfLE_le32 (BitVec.ofNat 32 w)
  rw [le32, BitVec.toNat_ofNat, Nat.mod_eq_of_lt hw] at this
  rw [this]
  rfl

theorem serWord_error {s : State} {a : Nat} {e : Abort} (h : serWord s a = .error e) :
    ∃ b, a ≤ b ∧ b < a + 4 ∧ Memory.read s.ser b = none ∧ e = .unwritten .ser b := by
  rcases Attempt.bind_eq_error h with h | ⟨bs, -, h⟩
  · exact fetchUnits_error h
  · cases h

/-- A count that serCount answers has room for its packed words. -/
theorem serCount_ok {s : State} {n : Nat} (h : serCount s = .ok n) : 4 + 4 * n ≤ s.serLen.toNat := by
  unfold serCount at h
  split at h
  · cases h
  · obtain ⟨c, -, h2⟩ := Attempt.bind_eq_ok h
    split at h2
    · cases h2
    · split at h2
      · cases h2
      · cases h2; omega

/-- Every way a serialization's count is not accepted. -/
theorem serCount_error {s : State} {e : Abort} (h : serCount s = .error e) :
    (∃ b, e = .raise .badPacked 0 b) ∨
    (∃ a < s.serLen.toNat, Memory.read s.ser a = none ∧ e = .unwritten .ser a) := by
  unfold serCount at h
  split at h
  · cases h; exact .inl ⟨_, rfl⟩
  · rcases Attempt.bind_eq_error h with h | ⟨c, -, h⟩
    · obtain ⟨b, h1, h2, h3, h4⟩ := serWord_error h
      exact .inr ⟨b, by omega, h3, h4⟩
    · split at h
      · cases h; exact .inl ⟨_, rfl⟩
      · split at h
        · cases h; exact .inl ⟨_, rfl⟩
        · cases h

/-- Every way a serialization's packed words are not accepted. -/
theorem serRuns_error {s : State} {a n : Nat} {e : Abort} (h : serRuns s a n = .error e) :
    (∃ x b, e = .raise .badPacked x b) ∨
    (∃ c, a ≤ c ∧ c < a + 4 * n ∧ Memory.read s.ser c = none ∧ e = .unwritten .ser c) := by
  induction n generalizing a with
  | zero => cases h
  | succ n ih =>
    rcases Attempt.bind_eq_error h with h | ⟨p, -, h⟩
    · obtain ⟨b, h1, h2, h3, h4⟩ := serWord_error h
      exact .inr ⟨b, h1, by omega, h3, h4⟩
    · split at h
      · cases h; exact .inl ⟨_, _, rfl⟩
      · rcases Attempt.bind_eq_error h with h | ⟨ps, -, h⟩
        · rcases ih h with h | ⟨c, h1, h2, h3, h4⟩
          · exact .inl h
          · exact .inr ⟨c, by omega, by omega, h3, h4⟩
        · cases h

/-- The packed words that serRuns answers: their bytes are written and their repeat counts are not 0. -/
theorem serRuns_ok {s : State} {a : Nat} {ps : List Word}
    (h : ∀ k (hk : k < ps.length), (∀ j < 4, Memory.read s.ser (a + 4 * k + j) =
      some (BitVec.ofNat 8 (ps[k].toNat / 2 ^ (8 * j)))) ∧ packedTimes ps[k] ≠ 0) :
    serRuns s a ps.length = .ok ps := by
  induction ps generalizing a with
  | nil => rfl
  | cons p ps ih =>
    obtain ⟨h1, h2⟩ := h 0 (by simp)
    have hp : serWord s a = .ok p := by
      have := serWord_ok (s := s) (a := a) p.isLt (by simpa using h1)
      simpa using this
    have hr : serRuns s (a + 4) ps.length = .ok ps := by
      apply ih
      intro k hk
      have := h (k + 1) (by simpa using hk)
      rw [show a + 4 * (k + 1) = a + 4 + 4 * k by omega] at this
      exact this
    simp only [List.getElem_cons_zero] at h2
    simp only [List.length_cons, serRuns, hp, Attempt.bind_ok, if_neg h2, hr, Attempt.pure_eq]

theorem packedTimes_toNat (p : Word) : (packedTimes p).toNat = p.toNat / 2 ^ 24 := by
  have := p.isLt
  simp only [packedTimes, BitVec.extractLsb'_toNat, Nat.shiftRight_eq_div_pow]
  omega

theorem packedWord_toNat (w : Word) (n : Byte) : (packedWord w n).toNat = n.toNat * 2 ^ 24 + w.toNat % 2 ^ 24 := by
  have h : (w.extractLsb' 0 24).toNat = w.toNat % 2 ^ 24 := by simp [BitVec.extractLsb'_toNat]
  rw [packedWord, BitVec.toNat_append, h, Nat.shiftLeft_eq, Nat.mul_comm n.toNat,
    Nat.two_pow_add_eq_or_of_lt (by omega)]

theorem packedContent_eq (p : Word) : packedContent p = BitVec.ofNat 32 (p.toNat % 2 ^ 24) := by
  apply BitVec.eq_of_toNat_eq
  have h : (p.extractLsb' 0 24).toNat = p.toNat % 2 ^ 24 := by simp [BitVec.extractLsb'_toNat]
  rw [packedContent, BitVec.toNat_append, h, BitVec.toNat_ofNat, Nat.mod_eq_of_lt (by omega)]
  simp
  omega

/-! ## The serializer -/

theorem flatMap_length_const {α β : Type} (n : Nat) (f : α → List β) (l : List α) (h : ∀ x ∈ l, (f x).length = n) :
    (l.flatMap f).length = n * l.length := by
  induction l with
  | nil => simp
  | cons x l ih =>
    rw [List.flatMap_cons, List.length_append, h x (by simp), ih fun y hy => h y (by simp [hy]), List.length_cons]
    ring

/-- Element n·k + j of a list of pieces of length n is element j of piece k. -/
theorem getElem?_flatMap_const {α β : Type} (n : Nat) (f : α → List β) (l : List α) (h : ∀ x ∈ l, (f x).length = n)
    (k j : Nat) (hk : k < l.length) (hj : j < n) : (l.flatMap f)[n * k + j]? = (f l[k])[j]? := by
  induction l generalizing k with
  | nil => simp at hk
  | cons x l ih =>
    have hx := h x (by simp)
    rw [List.flatMap_cons]
    cases k with
    | zero =>
      rw [List.getElem?_append_left (by omega)]
      simp
    | succ k =>
      rw [List.getElem?_append_right (by rw [hx]; ring_nf; omega)]
      rw [hx, show n * (k + 1) + j - n = n * k + j by ring_nf; omega]
      rw [ih (fun y hy => h y (by simp [hy])) k (by simpa using hk)]
      rfl

/-- A serialization is four bytes and four more for each run. -/
theorem serialize_length (rs : List (Word × Nat)) : (serialize rs).length = 4 + 4 * rs.length := by
  rw [serialize, List.length_append, le32_length, flatMap_length_const 4 _ _ fun _ _ => le32_length _]

/-- Runs that end in a list of words as long as the rest. -/
theorem runsFrom_length_le (w : Word) (n : Nat) (l : List Word) : (runsFrom w n l).length ≤ l.length + 1 := by
  induction l generalizing w n with
  | nil => simp [runsFrom]
  | cons d l ih =>
    rw [runsFrom]
    split
    · exact le_trans (ih w (n + 1)) (by simp)
    · simpa using ih d 1

theorem runs_length_le (l : List Word) : (runs l).length ≤ l.length := by
  cases l with
  | nil => simp [runs]
  | cons d l => exact runsFrom_length_le d 1 l

end Sys2Proof.Machine
end

