-- ==== Sys2Proof/Laws/Canonical.lean ====
section
/-! SUPPORT. Every memory operation keeps the canonical form, and the reset state has it. -/

namespace Sys2Proof.Machine

open Sys2Proof

theorem State.reset_memoriesCanonical : State.reset.MemoriesCanonical :=
  ⟨.nil, .nil, .nil, .nil, .nil, .nil⟩

theorem State.resetAction_memoriesCanonical (s : State) : s.resetAction.MemoriesCanonical :=
  ⟨.nil, .nil, .nil, .nil, .nil, .nil⟩

/-- A unit written by MEM_WR. -/
theorem State.withUnit_memoriesCanonical {s : State} (h : s.MemoriesCanonical) (sp : Space) (a : Nat) (v : Word) :
    (s.withUnit sp a v).MemoriesCanonical := by
  obtain ⟨h1, h2, h3, h4, h5, h6⟩ := h
  cases sp
  · exact ⟨Memory.wf_write _ _ h1, h2, h3, h4, h5, h6⟩
  · exact ⟨h1, Memory.wf_write _ _ h2, h3, h4, h5, h6⟩
  · exact ⟨h1, h2, Memory.wf_write _ _ h3, h4, h5, h6⟩
  · exact ⟨h1, h2, h3, Memory.wf_write _ _ h4, h5, h6⟩
  · exact ⟨h1, h2, h3, h4, Memory.wf_write _ _ h5, h6⟩
  · exact ⟨h1, h2, h3, h4, h5, Memory.wf_write _ _ h6⟩

/-- The bit writer. -/
theorem BwOnly.memoriesCanonical {s t : State} (h : BwOnly s t) (hs : s.MemoriesCanonical) : t.MemoriesCanonical := by
  obtain ⟨h1, h2, h3, h4, h5, h6⟩ := hs
  have hw := h.wf h2
  rw [h.frame]
  exact ⟨h1, hw, h3, h4, h5, h6⟩

/-- The mask writer. -/
theorem maskWriter_memoriesCanonical {s : State} (h : s.MemoriesCanonical) (a : Nat) (bs : List Byte)
    (len : BitVec 21) : ({ s with mw := Memory.writeAll s.mw a bs, mwLen := len } : State).MemoriesCanonical := by
  obtain ⟨h1, h2, h3, h4, h5, h6⟩ := h
  exact ⟨h1, h2, h3, Memory.wf_writeAll _ _ h4, h5, h6⟩

/-- The serializer. -/
theorem serializer_memoriesCanonical {s : State} (h : s.MemoriesCanonical) (a : Nat) (bs : List Byte)
    (len : BitVec 21) : ({ s with ser := Memory.writeAll s.ser a bs, serLen := len } : State).MemoriesCanonical := by
  obtain ⟨h1, h2, h3, h4, h5, h6⟩ := h
  exact ⟨h1, h2, h3, h4, h5, Memory.wf_writeAll _ _ h6⟩

/-- The dictionary's writers. -/
theorem dictionary_memoriesCanonical {s : State} (h : s.MemoriesCanonical) (a : Nat) (ws : List Word)
    (len : BitVec 21) : ({ s with dict := Memory.writeAll s.dict a ws, dictLen := len } : State).MemoriesCanonical := by
  obtain ⟨h1, h2, h3, h4, h5, h6⟩ := h
  exact ⟨h1, h2, h3, h4, Memory.wf_writeAll _ _ h5, h6⟩

end Sys2Proof.Machine
end

