-- ==== Sys2Proof/Laws/Encoder.lean ====
section
/-! SUPPORT. What the frame encoder's primitives can do. -/

namespace Sys2Proof.Machine

open Sys2Proof

theorem State.RoomFor.mono {s : State} {m n : Nat} (h : s.RoomFor n) (hm : m ≤ n) : s.RoomFor m := by
  unfold State.RoomFor bytesFor at *
  omega

/-- Room left after an append. -/
theorem Appended.roomFor {s t : State} {fs : List (Nat × Nat)} (h : Appended s t fs) (hc : t.caps = s.caps) (n : Nat) :
    t.RoomFor n ↔ s.RoomFor (fieldWidth fs + n) := by
  unfold State.RoomFor
  rw [hc, h.1, Nat.add_assoc]

/-- Fragments, with room, into a legal writer. -/
theorem putFrags_spec {s : State} (fs : List (Nat × Nat)) (hw : s.BitWriterLegal) (hroom : s.RoomFor (fieldWidth fs)) :
    ∃ t, putFrags fs s = .ok t ∧ Appended s t fs ∧ t = { s with bw := t.bw, bwBits := t.bwBits } := by
  induction fs generalizing s with
  | nil => exact ⟨s, rfl, .refl hw, rfl⟩
  | cons f fs ih =>
    obtain ⟨v, n⟩ := f
    rw [fieldWidth_cons] at hroom
    obtain ⟨t, h1, h2, h3⟩ := putBits_spec n v hw (hroom.mono (by omega))
    have hc : t.caps = s.caps := by rw [h3]
    have hr : t.RoomFor (fieldWidth fs) := by
      rw [h2.roomFor hc]
      simpa using hroom
    obtain ⟨u, h4, h5, h6⟩ := ih h2.bitWriterLegal hr
    exact ⟨u, by simp [putFrags, h1, h4], h2.trans h5, by rw [h6, h3]⟩

/-- Fragments, without room, into a legal writer. -/
theorem putFrags_full {s : State} (fs : List (Nat × Nat)) (hw : s.BitWriterLegal) (hroom : ¬ s.RoomFor (fieldWidth fs))
    (h0 : s.RoomFor 0) : putFrags fs s = raise .bufferFull 1 (natInfo s.caps.bw.units) := by
  induction fs generalizing s with
  | nil => exact absurd h0 hroom
  | cons f fs ih =>
    obtain ⟨v, n⟩ := f
    rw [fieldWidth_cons] at hroom
    by_cases hr : s.RoomFor n
    · obtain ⟨t, h1, h2, h3⟩ := putBits_spec n v hw hr
      have hc : t.caps = s.caps := by rw [h3]
      have h4 : ¬ t.RoomFor (fieldWidth fs) := by
        rw [h2.roomFor hc]
        simpa using hroom
      have h5 : t.RoomFor 0 := by
        rw [h2.roomFor hc]
        simpa using hr
      simp only [putFrags, h1, Attempt.bind_ok]
      rw [ih h2.bitWriterLegal h4 h5, hc]
    · simp only [putFrags, putBits_full n v hr, Attempt.bind_raise]

theorem putFrags_append (fs gs : List (Nat × Nat)) (s : State) :
    putFrags (fs ++ gs) s = (putFrags fs s >>= putFrags gs) := by
  induction fs generalizing s with
  | nil => rfl
  | cons f fs ih =>
    obtain ⟨v, n⟩ := f
    simp only [List.cons_append, putFrags]
    cases putBits n v s with
    | error e => rfl
    | ok t => exact ih t

/-- All that fragments can answer. -/
theorem putFrags_outcome (fs : List (Nat × Nat)) (s : State) : WriterOutcome s (putFrags fs s) := by
  induction fs generalizing s with
  | nil => exact .inl ⟨s, rfl, .refl s⟩
  | cons f fs ih => exact (putBits_outcome f.2 f.1 s).bind fun t _ => ih t

/-- WritePath of an op that has a path. -/
theorem writePath_some {s : State} {op : Op} {path : Path} (h : Table.find s.paths op = some path) :
    writePath op s = putFrags path.frags s := by simp [writePath, h]

/-- A marker of an op that has a path is the path and the run length. -/
theorem marker_some {s : State} {op : Op} {path : Path} (h : Table.find s.paths op = some path) (len : Nat) :
    marker op len s = putFrags (path.frags ++ [(len, 5)]) s := by
  rw [putFrags_append, marker, writePath_some h]
  cases putFrags path.frags s with
  | error e => rfl
  | ok t =>
    simp only [Attempt.bind_ok, putFrags, skipLenBits]
    cases putBits 5 len t <;> rfl

/-- A path that fits the writer's room check has a first fragment and at most two. -/
theorem Path.frags_width (p : Path) : fieldWidth p.frags = match p with
    | .direct _ ib => ib.toNat
    | .extended _ ib _ => ib.toNat + 4 := by
  cases p <;> simp [Path.frags, offsetBits]

/-- Flushing when nothing is pending. -/
theorem flushSkips_none {s : State} (h : s.encPend = 0) : flushSkips s = .ok s := by simp [flushSkips, h]

/-- Flushing a pending run. -/
theorem flushSkips_some {s : State} {path : Path} (h : s.encPend ≠ 0) (hp : Table.find s.paths s.encSkipop = some path) :
    flushSkips s = (putFrags (path.frags ++ [(s.encPend.toNat, 5)]) s >>= fun t => .ok { t with encPend := 0 }) := by
  unfold flushSkips
  rw [if_neg h, marker_some hp]
  rfl

/-- The writer does not see the encoder's registers. -/
theorem putBits_encoder (n v : Nat) (s : State) (pend : BitVec 5) (op : Op) (col : BitVec 16) :
    putBits n v { s with encPend := pend, encSkipop := op, encCol := col } =
      (putBits n v s >>= fun t => .ok { t with encPend := pend, encSkipop := op, encCol := col }) := by
  unfold putBits
  dsimp only
  split
  · rfl
  · clear * -
    induction n generalizing s with
    | zero => rfl
    | succ n ih =>
      have h1 : appendBit (v.testBit n) { s with encPend := pend, encSkipop := op, encCol := col } =
          (appendBit (v.testBit n) s >>= fun t => .ok { t with encPend := pend, encSkipop := op, encCol := col }) := by
        unfold appendBit openByte
        dsimp only
        split
        · rfl
        · cases fetchUnit .bw s.bw (s.bwBits.toNat / 8) <;> rfl
      simp only [appendBits, h1]
      cases appendBit (v.testBit n) s with
      | error e => rfl
      | ok t => exact ih t

/-- The encoder's fragments do not see the encoder's registers. -/
theorem putFrags_encoder (fs : List (Nat × Nat)) (s : State) (pend : BitVec 5) (op : Op) (col : BitVec 16) :
    putFrags fs { s with encPend := pend, encSkipop := op, encCol := col } =
      (putFrags fs s >>= fun t => .ok { t with encPend := pend, encSkipop := op, encCol := col }) := by
  induction fs generalizing s with
  | nil => rfl
  | cons f fs ih =>
    obtain ⟨v, n⟩ := f
    simp only [putFrags, putBits_encoder n v s pend op col]
    cases putBits n v s with
    | error e => rfl
    | ok t => exact ih t

/-- A marker without room, into a legal writer, whatever the encoder's registers hold. -/
theorem marker_full {s : State} {op : Op} {path : Path} (len : Nat) (pend : BitVec 5) (first : Op)
    (hf : Table.find s.paths op = some path) (hw : s.BitWriterLegal) (h0 : s.RoomFor 0)
    (hroom : ¬ s.RoomFor (fieldWidth path.frags + 5)) :
    marker op len { s with encPend := pend, encSkipop := first } =
      raise .bufferFull 1 (natInfo s.caps.bw.units) := by
  have e := putFrags_encoder (path.frags ++ [(len, 5)]) s pend first s.encCol
  rw [putFrags_full _ hw (by simpa [fieldWidth_append] using hroom) h0] at e
  have hm : Table.find ({ s with encPend := pend, encSkipop := first } : State).paths op = some path := hf
  exact (marker_some hm len).trans e

/-- A skip that must be written at once and does not fit, in a legal writer: `first` is the op of its run. -/
theorem emitSkip_full {s : State} {op first : Op} {path : Path} (hfirst : first = if s.encPend = 0 then op else s.encSkipop)
    (hf : Table.find s.paths first = some path) (hz : s.hTiles = 0 → s.encPend = 0)
    (hnow : s.hTiles = 0 ∨ s.encCol.toNat + 1 = s.hTiles.toNat ∨ s.encPend.toNat = 29)
    (hw : s.BitWriterLegal) (h0 : s.RoomFor 0) (hroom : ¬ s.RoomFor (fieldWidth path.frags + 5)) :
    emitSkip op s = raise .bufferFull 1 (natInfo s.caps.bw.units) := by
  unfold emitSkip
  split
  · rename_i h
    have := marker_full 1 s.encPend s.encSkipop hf hw h0 hroom
    rwa [hfirst, if_pos (hz h)] at this
  · rename_i h
    dsimp only
    rw [← hfirst]
    split
    · rw [marker_full _ _ _ hf hw h0 hroom]; rfl
    · rename_i hc
      have h29 : s.encPend.toNat = 29 := by
        rcases hnow with h1 | h1 | h1
        · exact absurd h1 h
        · omega
        · exact h1
      rw [if_pos (by rw [BitVec.toNat_add, h29]; rfl), marker_full _ _ _ hf hw h0 hroom]; rfl

end Sys2Proof.Machine
end

