-- ==== Sys2Proof/Laws/Resolver.lean ====
section
/-! SUPPORT. What the resolver can do. -/

namespace Sys2Proof.Machine

open Sys2Proof

theorem dictWord_some {s : State} {idx : Nat} {w : Word} (h : dictAt s idx = some w) : dictWord s idx = .ok w := by
  unfold dictAt at h
  split at h
  · unfold dictWord
    rw [if_neg (by omega)]
    exact fetchUnit_of_read h
  · cases h

theorem dictWord_past {s : State} {idx : Nat} (h : s.dictLen.toNat ≤ idx) :
    dictWord s idx = raise .indexRange (natInfo idx) (natInfo s.dictLen.toNat) := by
  unfold dictWord
  rw [if_pos h]

/-- An unwritten dictionary word stops the model. -/
theorem dictWord_unwritten {s : State} {idx : Nat} (h : idx < s.dictLen.toNat) (hr : Memory.read s.dict idx = none) :
    dictWord s idx = .error (.unwritten .dict idx) := by
  unfold dictWord
  rw [if_neg (by omega)]
  exact fetchUnit_error.2 ⟨hr, rfl⟩

theorem dictWord_cases (s : State) (idx : Nat) :
    (∃ w, dictWord s idx = .ok w) ∨
    dictWord s idx = raise .indexRange (natInfo idx) (natInfo s.dictLen.toNat) ∨
    (∃ a < s.dictLen.toNat, Memory.read s.dict a = none ∧ dictWord s idx = .error (.unwritten .dict a)) := by
  unfold dictWord
  split
  · exact .inr (.inl rfl)
  · cases h : fetchUnit .dict s.dict idx with
    | ok w => exact .inl ⟨w, rfl⟩
    | error e =>
      obtain ⟨h1, h2⟩ := fetchUnit_error.1 h
      exact .inr (.inr ⟨idx, by omega, h1, by rw [h2]⟩)

theorem cursorPast_ok {cmd : Word} {pos n : Nat} (h : pos + n ≤ cursorMax) : cursorPast cmd pos n = .ok (pos + n) := by
  unfold cursorPast
  rw [if_neg (by omega)]

theorem cursorPast_high {cmd : Word} {pos n : Nat} (h : cursorMax < pos + n) :
    cursorPast cmd pos n = raise .contract cmd (natInfo pos) := by
  unfold cursorPast
  rw [if_pos h]

theorem countField_toNat (w : Word) : (countField w).toNat = w.toNat / 2 ^ 20 % 2 ^ 4 := by
  simp [countField, BitVec.extractLsb'_toNat, Nat.shiftRight_eq_div_pow]

theorem typeField_toNat (w : Word) : (typeField w).toNat = w.toNat / 2 ^ 17 % 2 ^ 3 := by
  simp [typeField, BitVec.extractLsb'_toNat, Nat.shiftRight_eq_div_pow]

theorem paramField_toNat (w : Word) : (paramField w).toNat = w.toNat % 2 ^ 17 := by
  simp [paramField, BitVec.extractLsb'_toNat]

theorem longField_toNat (w : Word) : (longField w).toNat = w.toNat % 2 ^ 20 := by
  simp [longField, BitVec.extractLsb'_toNat]

theorem isLong_iff (w : Word) : isLong w = true ↔ w.toNat / 2 ^ 20 % 2 ^ 4 = 0 := by
  rw [isLong, decide_eq_true_iff, ← countField_toNat]
  exact ⟨fun h => by rw [h]; rfl, fun h => BitVec.eq_of_toNat_eq h⟩

/-- The loop follows a chain of pointers, one hop each. -/
theorem chase_chain {s : State} (hl : s.ReaderLoaded) (cmd : Word) {h pos frag idx pos' frag' idx' : Nat}
    (hc : Chain s h pos frag idx pos' frag' idx') (left : Nat) :
    (dictWord s idx >>= chase s cmd (left + h) pos frag idx) =
      (dictWord s idx' >>= chase s cmd left pos' frag' idx') := by
  induction hc with
  | here => rfl
  | hop hw hp hb _ ih =>
    rw [dictWord_some hw, Attempt.bind_ok, ← ih]
    rw [← Nat.add_assoc, chase]
    rw [if_pos ((isLong_iff _).2 hp), cursorPast_ok hb, Attempt.bind_ok, offsetBits, peekFrom_loaded hl, Attempt.bind_ok,
      longField_toNat]

/-- Resolve over a chain of at most 100 pointers. -/
theorem resolve_chain {s : State} (hl : s.ReaderLoaded) (cmd : Word) {h pos frag idx : Nat}
    (hc : ResolveChain s h pos frag idx) (hh : h ≤ 100) :
    resolve s cmd = (dictWord s idx >>= fun w => chase s cmd (100 - h) pos frag idx w >>= fun r =>
      .ok (r.1, r.2.1, 100 - r.2.2)) := by
  have h1 := chase_chain hl cmd hc (100 - h)
  rw [show 100 - h + h = hopLimit by unfold hopLimit; omega] at h1
  have h2 : resolve s cmd = ((dictWord s (streamField s s.brPos.toNat s.indexBits.toNat) >>=
      chase s cmd hopLimit s.brPos.toNat s.indexBits.toNat (streamField s s.brPos.toNat s.indexBits.toNat)) >>= fun r =>
      .ok (r.1, r.2.1, 100 - r.2.2)) := by
    unfold resolve
    simp only [peekFrom_loaded hl, Attempt.bind_ok]
    cases dictWord s (streamField s s.brPos.toNat s.indexBits.toNat) <;> rfl
  rw [h2, h1]
  cases dictWord s idx <;> rfl

/-- Arriving at an operation word. -/
theorem chase_final {s : State} {cmd w : Word} {left pos frag idx : Nat} (hw : w.toNat / 2 ^ 20 % 2 ^ 4 ≠ 0) :
    chase s cmd left pos frag idx w =
      (cursorPast cmd pos (w.toNat / 2 ^ 20 % 2 ^ 4) >>= fun pos' => .ok (w, pos', left)) := by
  have hn : ¬ isLong w = true := fun h => hw ((isLong_iff w).1 h)
  cases left with
  | zero => rw [chase, if_neg hn, countField_toNat]; rfl
  | succ left => rw [chase, if_neg hn, countField_toNat]; rfl

/-- A pointer with no hop left. -/
theorem chase_limit {s : State} {cmd w : Word} {pos frag idx : Nat} (hw : w.toNat / 2 ^ 20 % 2 ^ 4 = 0) :
    chase s cmd 0 pos frag idx w = raise .hopLimit (natInfo idx) 100 := by
  rw [chase, if_pos ((isLong_iff w).2 hw)]
  rfl

/-- All that a resolve attempt can end in besides a result. -/
def ResolveAbort (s : State) (cmd : Word) (e : Abort) : Prop :=
  (∃ a b, e = .raise .indexRange a b) ∨ (∃ a b, e = .raise .hopLimit a b) ∨ (∃ b, e = .raise .contract cmd b) ∨
  (∃ a < s.brLen.toNat, Memory.read s.br a = none ∧ e = .unwritten .br a) ∨
  (∃ a < s.dictLen.toNat, Memory.read s.dict a = none ∧ e = .unwritten .dict a)

theorem peekFrom_abort {s : State} {cmd : Word} {pos n : Nat} {e : Abort} (h : peekFrom s pos n = .error e) :
    ResolveAbort s cmd e := by
  obtain ⟨a, h1, h2, h3⟩ := peekFrom_error h
  exact .inr (.inr (.inr (.inl ⟨a, h1, h2, h3⟩)))

theorem dictWord_abort {s : State} {cmd : Word} {idx : Nat} {e : Abort} (h : dictWord s idx = .error e) :
    ResolveAbort s cmd e := by
  rcases dictWord_cases s idx with ⟨w, h1⟩ | h1 | ⟨a, h1, h2, h3⟩
  · rw [h1] at h; cases h
  · rw [h1] at h; cases h; exact .inl ⟨_, _, rfl⟩
  · rw [h3] at h; cases h; exact .inr (.inr (.inr (.inr ⟨a, h1, h2, rfl⟩)))

theorem cursorPast_cases {cmd : Word} {pos n : Nat} {x : Attempt Nat} (h : cursorPast cmd pos n = x) :
    (pos + n ≤ cursorMax ∧ x = .ok (pos + n)) ∨ x = raise .contract cmd (natInfo pos) := by
  subst h
  unfold cursorPast
  split
  · exact .inr rfl
  · exact .inl ⟨by omega, rfl⟩

theorem cursorPast_abort {s : State} {cmd : Word} {pos n : Nat} {e : Abort} (h : cursorPast cmd pos n = .error e) :
    ResolveAbort s cmd e := by
  rcases cursorPast_cases h with ⟨-, h⟩ | h
  · cases h
  · cases h; exact .inr (.inr (.inl ⟨_, rfl⟩))

theorem chase_abort {s : State} {cmd w : Word} {left pos frag idx : Nat} {e : Abort}
    (h : chase s cmd left pos frag idx w = .error e) : ResolveAbort s cmd e := by
  induction left generalizing pos frag idx w with
  | zero =>
    rw [chase] at h
    split at h
    · cases h; exact .inr (.inl ⟨_, _, rfl⟩)
    · rcases Attempt.bind_eq_error h with h | ⟨p, -, h⟩
      · exact cursorPast_abort h
      · cases h
  | succ left ih =>
    rw [chase] at h
    split at h
    · rcases Attempt.bind_eq_error h with h | ⟨p, -, h⟩
      · exact cursorPast_abort h
      · rcases Attempt.bind_eq_error h with h | ⟨o, -, h⟩
        · exact peekFrom_abort h
        · rcases Attempt.bind_eq_error h with h | ⟨x, -, h⟩
          · exact dictWord_abort h
          · exact ih h
    · rcases Attempt.bind_eq_error h with h | ⟨p, -, h⟩
      · exact cursorPast_abort h
      · cases h

/-- Every way a resolve ends without a result. -/
theorem resolve_abort {s : State} {cmd : Word} {e : Abort} (h : resolve s cmd = .error e) : ResolveAbort s cmd e := by
  rcases Attempt.bind_eq_error h with h | ⟨i, -, h⟩
  · exact peekFrom_abort h
  · rcases Attempt.bind_eq_error h with h | ⟨w, -, h⟩
    · exact dictWord_abort h
    · rcases Attempt.bind_eq_error h with h | ⟨r, -, h⟩
      · exact chase_abort h
      · cases h

/-- Every way the run length of a skip is not read. -/
theorem skipRun_abort {s : State} {cmd w : Word} {pos : Nat} {e : Abort} (h : skipRun s cmd w pos = .error e) :
    ResolveAbort s cmd e := by
  unfold skipRun at h
  split at h
  · rcases Attempt.bind_eq_error h with h | ⟨i, -, h⟩
    · exact peekFrom_abort h
    · rcases Attempt.bind_eq_error h with h | ⟨p, -, h⟩
      · exact cursorPast_abort h
      · cases h
  · cases h

end Sys2Proof.Machine
end

