-- ==== Sys2Proof/Laws/Encoding.lean ====
section
/-! SUPPORT. The fields of an encoded command, and that each name is read back from its number. -/

namespace Sys2Proof

@[simp] theorem CtrlType.ofCode_code (t : CtrlType) : CtrlType.ofCode t.code = t := by cases t <;> rfl
@[simp] theorem CtrlType.code_ofCode (b : BitVec 3) : (CtrlType.ofCode b).code = b := by
  revert b; decide
@[simp] theorem Reg.ofNum_num (r : Reg) : Reg.ofNum r.num = some r := by cases r <;> rfl
@[simp] theorem Space.ofNum_num (sp : Space) : Space.ofNum sp.num = some sp := by cases sp <;> rfl

/-- A register number that names a register is that register's. -/
theorem Reg.num_of_ofNum {n : Byte} {r : Reg} (h : Reg.ofNum n = some r) : r.num = n := by
  revert n; cases r <;> decide

/-- A space number that names a space is that space's. -/
theorem Space.num_of_ofNum {n : BitVec 4} {sp : Space} (h : Space.ofNum n = some sp) : sp.num = n := by
  revert n; cases sp <;> decide

/-- Exactly the numbers from 0x1D name no register. -/
theorem Reg.ofNum_eq_none_iff (n : Byte) : Reg.ofNum n = none ↔ 0x1D ≤ n.toNat := by
  simp [Reg.ofNum, Reg.all]

/-- Exactly the numbers from 6 name no space. -/
theorem Space.ofNum_eq_none_iff (n : BitVec 4) : Space.ofNum n = none ↔ 6 ≤ n.toNat := by
  simp [Space.ofNum, Space.all]

theorem Reg.num_lt (r : Reg) : r.num.toNat < 0x1D := by cases r <;> decide
theorem Space.num_lt (sp : Space) : sp.num.toNat < 6 := by cases sp <;> decide

@[simp] theorem opcodeField_append (o : Byte) (f : BitVec 24) : opcodeField (o ++ f : Word) = o := by
  apply BitVec.eq_of_getLsbD_eq
  intro i hi
  have h := BitVec.getLsbD_append (x := o) (y := f) (i := 24 + i)
  simp only [opcodeField, BitVec.getLsbD_extractLsb', hi]
  simpa using h

@[simp] theorem operandField_append (o : Byte) (f : BitVec 24) : operandField (o ++ f : Word) = f := by
  apply BitVec.eq_of_getLsbD_eq
  intro i hi
  have h := BitVec.getLsbD_append (x := o) (y := f) (i := i)
  simp only [operandField, BitVec.getLsbD_extractLsb', hi]
  simpa [hi] using h

/-- The opcode and the operands of a word, put together, are the word. -/
@[simp] theorem opcode_append_operand (cmd : Word) : (opcodeField cmd ++ operandField cmd : Word) = cmd := by
  apply BitVec.eq_of_getLsbD_eq
  intro i hi
  simp only [opcodeField, operandField, BitVec.getLsbD_append, BitVec.getLsbD_extractLsb']
  split
  · simp_all
  · rw [show 24 + (i - 24) = i by omega]; simp; omega

@[simp] theorem opcodeField_cmdWord (i : Instr) : opcodeField i.cmdWord = i.opcode := opcodeField_append _ _
@[simp] theorem operandField_cmdWord (i : Instr) : operandField i.cmdWord = i.operands := operandField_append _ _

@[simp] theorem dinWord_setWidth (v : Word) : dinWord (v.setWidth 64) = v := by
  apply BitVec.eq_of_getLsbD_eq
  intro i hi
  simp [dinWord, hi]
  omega

/-- An opcode as a number is CMD div 2^24. -/
theorem opcodeField_toNat (cmd : Word) : (opcodeField cmd).toNat = cmd.toNat / 2 ^ 24 := by
  simp only [opcodeField, BitVec.extractLsb'_toNat, Nat.shiftRight_eq_div_pow]
  omega

/-- The operand bits as a number are CMD mod 2^24. -/
theorem operandField_toNat (cmd : Word) : (operandField cmd).toNat = cmd.toNat % 2 ^ 24 := by
  simp [operandField, BitVec.extractLsb'_toNat]

/-- A width that the format W8 encodes is read back. -/
theorem toInt_ofInt_width {n : Int} (h : widthEncodable n = true) : (BitVec.ofInt 8 n).toInt = n := by
  simp only [widthEncodable, Bool.and_eq_true, decide_eq_true_eq] at h
  rw [BitVec.toInt_ofInt, Int.bmod_eq_of_le] <;> omega

/-- An amount that the format A24 encodes is read back. -/
theorem toInt_ofInt_amount {a : Int} (h : amountEncodable a = true) : (BitVec.ofInt 24 a).toInt = a := by
  simp only [amountEncodable, Bool.and_eq_true, decide_eq_true_eq] at h
  rw [BitVec.toInt_ofInt, Int.bmod_eq_of_le] <;> omega

/-! ## Command words as numbers -/

theorem append_toNat {m n : Nat} (a : BitVec m) (b : BitVec n) : (a ++ b).toNat = a.toNat * 2 ^ n + b.toNat := by
  rw [BitVec.toNat_append, Nat.shiftLeft_eq, Nat.mul_comm a.toNat, Nat.two_pow_add_eq_or_of_lt b.isLt]

theorem Instr.cmdWord_toNat (i : Instr) : i.cmdWord.toNat = i.opcode.toNat * 2 ^ 24 + i.operands.toNat :=
  append_toNat i.opcode i.operands

/-- A command word is its opcode and its operands as one number. -/
theorem Instr.cmdWord_eq (i : Instr) : i.cmdWord = BitVec.ofNat 32 (i.opcode.toNat * 2 ^ 24 + i.operands.toNat) := by
  rw [← i.cmdWord_toNat, BitVec.ofNat_toNat, BitVec.setWidth_eq]

/-- The operand bits of an 8-bit operand. -/
theorem byteOperand_toNat (n : Byte) : (0#16 ++ n : BitVec 24).toNat = n.toNat := by
  have := append_toNat 0#16 n
  simpa using this

/-- The operand bits of a type. -/
theorem typeOperand_toNat (t : BitVec 3) : (0#21 ++ t : BitVec 24).toNat = t.toNat := by
  have := append_toNat 0#21 t
  simpa using this

/-- The operand bits of a space and an address. -/
theorem memOperand_toNat (n : BitVec 4) (a : BitVec 20) : (n ++ a : BitVec 24).toNat = n.toNat * 2 ^ 20 + a.toNat :=
  append_toNat n a

/-- The operand bits of a count and a type. -/
theorem controlOperand_toNat (c : BitVec 4) (t : BitVec 3) :
    (c ++ t ++ 0#17 : BitVec 24).toNat = c.toNat * 2 ^ 20 + t.toNat * 2 ^ 17 := by
  have h1 := append_toNat (c ++ t) 0#17
  have h2 := append_toNat c t
  rw [h2] at h1
  simp only [BitVec.toNat_ofNat, Nat.zero_mod, Nat.add_zero] at h1
  refine Eq.trans h1 ?_
  ring

/-- An 8-bit signed operand as a number. -/
theorem ofInt_width_toNat (n : Int) : (BitVec.ofInt 8 n).toNat = (n % 256).toNat := by
  simp [BitVec.toNat_ofInt]

/-- A 24-bit signed operand as a number. -/
theorem ofInt_amount_toNat (a : Int) : (BitVec.ofInt 24 a).toNat = (a % 2 ^ 24).toNat := by
  simp [BitVec.toNat_ofInt]

end Sys2Proof
end

