-- ==== Sys2Proof/Laws/Tables.lean ====
section
/-! SUPPORT. The finite maps from ops and their order. -/

namespace Sys2Proof.Machine

open Sys2Proof

/-- A number that orders the ops as Op.before does. -/
def Op.key (o : Op) : Nat := o.param.toNat * 8 + o.type.code.toNat

theorem Op.key_inj {a b : Op} (h : a.key = b.key) : a = b := by
  obtain ⟨t, p⟩ := a
  obtain ⟨t', p'⟩ := b
  have h1 := t.code.isLt
  have h2 := t'.code.isLt
  simp only [Op.key] at h
  have hp : p = p' := BitVec.eq_of_toNat_eq (by omega)
  have ht : t.code = t'.code := BitVec.eq_of_toNat_eq (by omega)
  have := congrArg CtrlType.ofCode ht
  simp only [CtrlType.ofCode_code] at this
  rw [hp, this]

theorem Op.before_iff (a b : Op) : a.before b = true ↔ a.key < b.key := by
  have h1 := a.type.code.isLt
  have h2 := b.type.code.isLt
  simp only [Op.before, Op.key, Bool.or_eq_true, Bool.and_eq_true, decide_eq_true_eq, BitVec.lt_def]
  constructor
  · rintro (h | ⟨h, h'⟩)
    · omega
    · rw [h]; omega
  · intro h
    by_cases hp : a.param.toNat < b.param.toNat
    · exact .inl hp
    · have : a.param.toNat = b.param.toNat := by omega
      exact .inr ⟨BitVec.eq_of_toNat_eq this, by omega⟩

theorem Op.before_trichotomy {a b : Op} (h1 : ¬ a.before b = true) (h2 : a ≠ b) : b.before a = true := by
  rw [Op.before_iff] at *
  have : a.key ≠ b.key := fun h => h2 (Op.key_inj h)
  omega

variable {α : Type}

@[simp] theorem Table.find_nil (op : Op) : Table.find ([] : List (Op × α)) op = none := rfl

/-- An entry set is found. -/
@[simp] theorem Table.find_set_same (t : List (Op × α)) (op : Op) (v : α) :
    Table.find (Table.set t op v) op = some v := by
  induction t with
  | nil => simp [Table.set, Table.find]
  | cons e t ih =>
    obtain ⟨o, x⟩ := e
    simp only [Table.set]
    split
    · simp [Table.find]
    · split
      · simp [Table.find]
      · rename_i h
        simp [Table.find, Ne.symm h, ih]

/-- Setting an entry leaves every other alone. -/
theorem Table.find_set_other (t : List (Op × α)) {op o : Op} (v : α) (h : o ≠ op) :
    Table.find (Table.set t op v) o = Table.find t o := by
  induction t with
  | nil => simp [Table.set, Table.find, Ne.symm h]
  | cons e t ih =>
    obtain ⟨o', x⟩ := e
    simp only [Table.set]
    split
    · simp [Table.find, Ne.symm h]
    · split
      · rename_i h2
        subst h2
        simp [Table.find, Ne.symm h]
      · simp only [Table.find, ih]

theorem Table.mem_set {t : List (Op × α)} {op : Op} {v : α} {e : Op × α} (h : e ∈ Table.set t op v) :
    e = (op, v) ∨ e ∈ t := by
  induction t with
  | nil => simpa [Table.set] using h
  | cons x t ih =>
    obtain ⟨o, y⟩ := x
    simp only [Table.set] at h
    split at h
    · simpa using h
    · split at h
      · rcases List.mem_cons.1 h with h | h
        · exact .inl h
        · exact .inr (List.mem_cons_of_mem _ h)
      · rcases List.mem_cons.1 h with h | h
        · exact .inr (by simp [h])
        · rcases ih h with h | h
          · exact .inl h
          · exact .inr (List.mem_cons_of_mem _ h)

/-- Setting an entry keeps the canonical form. -/
theorem Table.wf_set {t : List (Op × α)} (op : Op) (v : α) (h : Table.wf t) : Table.wf (Table.set t op v) := by
  induction t with
  | nil => simp [Table.wf, Table.set]
  | cons x t ih =>
    obtain ⟨o, y⟩ := x
    have hb := List.pairwise_cons.1 h
    simp only [Table.set]
    split
    · rename_i h1
      refine List.pairwise_cons.2 ⟨?_, h⟩
      intro e he
      rcases List.mem_cons.1 he with he | he
      · subst he; exact h1
      · have := hb.1 e he
        simp only [Op.before_iff] at this h1 ⊢
        omega
    · split
      · rename_i h1 h2
        subst h2
        exact List.pairwise_cons.2 ⟨hb.1, hb.2⟩
      · rename_i h1 h2
        refine List.pairwise_cons.2 ⟨?_, ih hb.2⟩
        intro e he
        rcases Table.mem_set he with he | he
        · subst he
          exact Op.before_trichotomy h1 h2
        · exact hb.1 e he

/-- A map holds at most one entry for an op. -/
theorem Table.nodup {t : List (Op × α)} (h : Table.wf t) : (t.map Prod.fst).Nodup := by
  rw [List.Nodup, List.pairwise_map]
  refine h.imp ?_
  intro a b hab hc
  rw [Op.before_iff, hc] at hab
  omega

theorem Table.find_some_mem {t : List (Op × α)} {op : Op} {v : α} (h : Table.find t op = some v) : (op, v) ∈ t := by
  induction t with
  | nil => simp at h
  | cons x t ih =>
    obtain ⟨o, y⟩ := x
    simp only [Table.find] at h
    split at h
    · subst_vars; simp_all
    · exact List.mem_cons_of_mem _ (ih h)

theorem Table.find_of_mem {t : List (Op × α)} {op : Op} {v : α} (hn : (t.map Prod.fst).Nodup) (h : (op, v) ∈ t) :
    Table.find t op = some v := by
  induction t with
  | nil => simp at h
  | cons x t ih =>
    obtain ⟨o, y⟩ := x
    simp only [List.map_cons, List.nodup_cons] at hn
    simp only [Table.find]
    rcases List.mem_cons.1 h with h | h
    · cases h; simp
    · have : o ≠ op := by
        rintro rfl
        exact hn.1 (List.mem_map.2 ⟨_, h, rfl⟩)
      rw [if_neg this]
      exact ih hn.2 h

theorem Table.find_none_iff {t : List (Op × α)} {op : Op} : Table.find t op = none ↔ op ∉ t.map Prod.fst := by
  induction t with
  | nil => simp
  | cons x t ih =>
    obtain ⟨o, y⟩ := x
    simp only [Table.find, List.map_cons, List.mem_cons, not_or]
    by_cases h : o = op
    · simp [h]
    · rw [if_neg h, ih]
      exact ⟨fun h' => ⟨Ne.symm h, h'⟩, fun h' => h'.2⟩

/-- Setting an entry adds one entry for a new op and none for a known one. -/
theorem Table.length_set {t : List (Op × α)} (op : Op) (v : α) (hw : Table.wf t) :
    (Table.set t op v).length = t.length + (if Table.find t op = none then 1 else 0) := by
  induction t with
  | nil => simp [Table.set]
  | cons x t ih =>
    obtain ⟨o, y⟩ := x
    have hb := List.pairwise_cons.1 hw
    simp only [Table.set]
    split
    · rename_i h1
      have hne : o ≠ op := by
        rintro rfl
        rw [Op.before_iff] at h1
        omega
      have hnone : Table.find t op = none := by
        rw [Table.find_none_iff]
        intro hm
        obtain ⟨e, he, hop⟩ := List.mem_map.1 hm
        have h2 := hb.1 e he
        rw [Op.before_iff] at h1 h2
        rw [hop] at h2
        simp only at h2
        omega
      have hf : Table.find ((o, y) :: t) op = none := by simp [Table.find, hne, hnone]
      simp [hf]
    · split
      · rename_i h1 h2
        simp [Table.find, h2]
      · rename_i h1 h2
        have hf : Table.find ((o, y) :: t) op = Table.find t op := by simp [Table.find, Ne.symm h2]
        simp only [hf, List.length_cons, ih hb.2]
        omega

/-! ## The rank order -/

theorem insertRanked_perm (e : Op × Word) (l : List (Op × Word)) : (insertRanked e l).Perm (e :: l) := by
  induction l with
  | nil => exact .refl _
  | cons x l ih =>
    simp only [insertRanked]
    split
    · exact .refl _
    · exact (ih.cons x).trans (.swap e x l)

theorem rankOrder_length (l : List (Op × Word)) : (rankOrder l).length = l.length := by
  induction l with
  | nil => rfl
  | cons e l ih => rw [rankOrder, (insertRanked_perm e _).length_eq, List.length_cons, List.length_cons, ih]

theorem mem_rankOrder {l : List (Op × Word)} {e : Op × Word} : e ∈ rankOrder l ↔ e ∈ l := by
  induction l with
  | nil => exact Iff.rfl
  | cons x l ih => rw [rankOrder, (insertRanked_perm x _).mem_iff, List.mem_cons, List.mem_cons, ih]

/-- The layout holds Len = Dd + P + (N − Dd) words. -/
theorem layoutWords_length (ib : BitVec 4) (dd p : Nat) (ops : List Op) (h : dd ≤ ops.length) :
    (layoutWords ib dd p ops).length = ops.length + p := by
  simp [layoutWords]
  omega

end Sys2Proof.Machine
end

