-- ==== Sys2Proof/Laws/Effects.lean ====
section
/-! SUPPORT. All that a command can do, said once: Effect where it succeeds, Failure where it does not. -/

namespace Sys2Proof.Machine

open Sys2Proof

/-- What a successful SEQ_EMIT leaves: the bit writer moved, and the pending run is empty, as it was, or one longer. -/
def EmitEffect (s t : State) : Prop :=
  ∃ u pend op, BwOnly s u ∧ t = advanceColumn { u with encPend := pend, encSkipop := op } ∧
    (pend = 0 ∨ (s.hTiles ≠ 0 ∧ pend = s.encPend + 1 ∧ pend.toNat ≠ 30 ∧
      (op = s.encSkipop ∧ s.encPend ≠ 0 ∨ op.type = .skip ∧ (Table.find s.paths op).isSome)) ∨
      (pend = s.encPend ∧ op = s.encSkipop ∧ s.hTiles = 0))

/-- From s, a command that succeeds leads to t before its outputs are set. -/
def Effect (i : Instr) (s t : State) : Prop :=
  match i with
  | .nop | .regRd _ | .memRd _ _ | .brRead _ | .brExhausted | .maskWidth _ | .cwOf _ _ _ | .cwLong _ | .cwCount _
  | .cwType _ | .cwParam _ | .cwLongoff _ | .cwIslong _ | .cwPacked _ _ | .seqPath _ _ => t = s
  | .softReset => t = s.resetAction
  | .regWr r v => ∃ cmd, writeReg cmd r v s = .ok t
  | .memWr sp a v => sp ≠ .bw ∧ sp ≠ .mw ∧ a.toNat < s.capacity sp ∧ t = s.withUnit sp a.toNat v
  | .bwWrite _ _ => BwOnly s t
  | .bwClear => t = { s with bwBits := 0 }
  | .brAdvance _ | .cwResolve | .streamNext => ∃ pos, t = { s with brPos := pos }
  | .mwWrite _ v => ∃ n, s.mwLen.toNat + n ≤ s.caps.mw.units ∧
      t = { s with mw := Memory.writeAll s.mw s.mwLen.toNat (bytesLE v n), mwLen := BitVec.ofNat 21 (s.mwLen.toNat + n) }
  | .mwClear => t = { s with mwLen := 0 }
  | .mrRead _ => ∃ pos, t = { s with mrPos := pos }
  | .dictPack => ∃ bytes : List Byte, bytes.length ≤ s.caps.ser.units ∧
      t = { s with ser := Memory.writeAll s.ser 0 bytes, serLen := BitVec.ofNat 21 bytes.length }
  | .dictUnpack => ∃ words : List Word, words.length ≤ s.caps.dict.units ∧
      t = { s with dict := Memory.writeAll s.dict 0 words, dictLen := BitVec.ofNat 21 words.length }
  | .seqClear => s.encOpen = false ∧
      t = { s with opt := [], paths := [], phase := .accumulate, seqDirect := 0, seqBlocks := 0, seqIb := 0 }
  | .seqAdd _ _ => s.phase = .accumulate ∧ ∃ op f, (Table.find s.opt op = none → s.opt.length ≠ s.caps.optab.ops) ∧
      t = { s with opt := Table.set s.opt op f }
  | .seqBuild => s.encOpen = false ∧ ∃ (words : List Word) (dd p : Nat), words.length ≤ s.caps.dict.units ∧
      dd = directCount s.opt.length (directSlots s.indexBits.toNat s.directLimit.toNat) ∧
      p = blockCount s.opt.length (directSlots s.indexBits.toNat s.directLimit.toNat) ∧
      s.opt.length ≤ availableSlots s.indexBits.toNat s.directLimit.toNat ∧
      t = { s with
        dict := Memory.writeAll s.dict 0 words
        dictLen := BitVec.ofNat 21 words.length
        paths := buildPaths s.indexBits dd s.opt
        phase := .built
        seqIb := s.indexBits
        seqDirect := BitVec.ofNat 16 dd
        seqBlocks := BitVec.ofNat 16 p }
  | .seqFrameBegin => s.phase = .built ∧ s.encOpen = false ∧
      t = { s with bwBits := 0, encOpen := true, encPend := 0, encCol := 0 }
  | .seqEmit _ _ => s.encOpen = true ∧ EmitEffect s t
  | .seqFrameEnd => s.encOpen = true ∧
      ∃ u, BwOnly s u ∧ t = { u with encPend := 0, encCol := 0, encOpen := false }

/-- A sequencer command that raised CONTRACT stood in a phase that refuses it (44_sequencer.md R142). -/
def PhaseRefuses (s : State) : Instr → Prop
  | .seqClear | .seqBuild => s.encOpen = true
  | .seqAdd _ _ => s.phase = .built
  | .seqPath _ _ => s.phase ≠ .built
  | .seqFrameBegin => s.phase ≠ .built ∨ s.encOpen = true
  | .seqEmit _ _ | .seqFrameEnd => s.encOpen = false
  | _ => True

/-- From s, a command can fail with this. -/
def Failure (i : Instr) (s : State) : Abort → Prop
  | .raise e _ _ => e ≠ .ok ∧ e ≠ .halted ∧ (e.stopsStream = true → i = .cwResolve ∨ i = .streamNext) ∧
      (e = .contract → PhaseRefuses s i)
  | .unwritten sp a => a < s.length sp ∧ s.unitAt sp a = none

theorem State.unitAt_none {s : State} {sp : Space} {a : Nat} {m : List (Nat × BitVec 8)}
    (hm : s.unitAt sp a = (Memory.read m a).map (·.setWidth 32)) (h : Memory.read m a = none) : s.unitAt sp a = none := by
  rw [hm, h]
  rfl

theorem Failure.ofWriter {i : Instr} {s : State} {x : Attempt State} {e : Abort} (h : WriterOutcome s x)
    (he : x = .error e) : Failure i s e := by
  rcases h with ⟨t, h, -⟩ | h | ⟨-, a, h1, h2, h⟩ <;> rw [h] at he <;> cases he
  · exact ⟨nofun, nofun, nofun, nofun⟩
  · exact ⟨h1, State.unitAt_none rfl h2⟩

theorem Failure.ofResolve {i : Instr} {s : State} {cmd : Word} {e : Abort} (hi : i = .cwResolve ∨ i = .streamNext)
    (h : ResolveAbort s cmd e) : Failure i s e := by
  have hp : PhaseRefuses s i := by rcases hi with rfl | rfl <;> trivial
  rcases h with ⟨a, b, rfl⟩ | ⟨a, b, rfl⟩ | ⟨b, rfl⟩ | ⟨a, h1, h2, rfl⟩ | ⟨a, h1, h2, rfl⟩
  · exact ⟨nofun, nofun, fun _ => hi, nofun⟩
  · exact ⟨nofun, nofun, fun _ => hi, nofun⟩
  · exact ⟨nofun, nofun, nofun, fun _ => hp⟩
  · exact ⟨h1, by simp [State.unitAt, h2]⟩
  · exact ⟨h1, by simp [State.unitAt, h2]⟩

theorem Failure.bufferFull (i : Instr) (s : State) (a b : Word) : Failure i s (.raise .bufferFull a b) :=
  ⟨nofun, nofun, nofun, nofun⟩

theorem Failure.badPacked (i : Instr) (s : State) (a b : Word) : Failure i s (.raise .badPacked a b) :=
  ⟨nofun, nofun, nofun, nofun⟩

theorem Failure.unknownOp (i : Instr) (s : State) (a b : Word) : Failure i s (.raise .unknownOp a b) :=
  ⟨nofun, nofun, nofun, nofun⟩

theorem widthUpTo_cases (limit : Nat) (cmd : Word) (n : Int) :
    (∃ k ≤ limit, n = (k : Int) ∧ widthUpTo limit cmd n = .ok k) ∨
    (∃ b, widthUpTo limit cmd n = .error (.raise .contract cmd b)) := by
  unfold widthUpTo
  split
  · exact .inr ⟨_, rfl⟩
  · exact .inl ⟨n.toNat, by omega, by omega, rfl⟩

/-! ## The frame encoder -/

/-- A write of an op's path: an outcome of the writer, or UNKNOWN_OP where the op has none. -/
theorem writePath_outcome (op : Op) (s : State) :
    WriterOutcome s (writePath op s) ∨ writePath op s = raise .unknownOp (typeInfo op.type) (op.param.setWidth 32) := by
  cases h : Table.find s.paths op with
  | none => exact .inr (by simp [writePath, h])
  | some path => exact .inl (by rw [writePath_some h]; exact putFrags_outcome _ _)

theorem marker_outcome (op : Op) (len : Nat) (s : State) :
    WriterOutcome s (marker op len s) ∨ marker op len s = raise .unknownOp (typeInfo op.type) (op.param.setWidth 32) := by
  rcases writePath_outcome op s with h | h
  · exact .inl (h.bind fun t _ => putBits_outcome _ _ _)
  · exact .inr (by rw [marker, h]; rfl)

/-- The writer's outcomes from a state that differs in the encoder's registers alone. -/
theorem BwOnly.ofEncoder {s u : State} {pend : BitVec 5} {op : Op}
    (h : BwOnly { s with encPend := pend, encSkipop := op } u) :
    BwOnly s { u with encPend := s.encPend, encSkipop := s.encSkipop } ∧ u.encPend = pend ∧ u.encSkipop = op := by
  have hf := h.frame
  refine ⟨⟨?_, h.wf, h.range, h.room, h.writers, ?_⟩, ?_, ?_⟩
  · rw [hf]
  · rcases h.ready with hr | hr
    · left; rw [hr]
    · exact .inr hr
  · rw [hf]
  · rw [hf]

theorem Failure.ofWriterEncoder {i : Instr} {s : State} {pend : BitVec 5} {op : Op} {x : Attempt State} {e : Abort}
    (h : WriterOutcome { s with encPend := pend, encSkipop := op } x) (he : x = .error e) : Failure i s e := by
  rcases h with ⟨t, h, -⟩ | h | ⟨-, a, h1, h2, h⟩ <;> rw [h] at he <;> cases he
  · exact Failure.bufferFull _ _ _ _
  · exact ⟨h1, by simp only [State.unitAt]; simpa using h2⟩

/-- Flushing the pending run. -/
theorem flushSkips_cases (i : Instr) (s : State) :
    (∃ u, BwOnly s u ∧ flushSkips s = .ok { u with encPend := 0 }) ∨
    (∃ e, Failure i s e ∧ flushSkips s = .error e) := by
  by_cases h : s.encPend = 0
  · refine .inl ⟨s, .refl s, ?_⟩
    rw [flushSkips_none h]
    rw [← h]
  · have hm : flushSkips s = (marker s.encSkipop s.encPend.toNat s >>= fun t => .ok { t with encPend := 0 }) := by
      unfold flushSkips
      rw [if_neg h]
      rfl
    rcases marker_outcome s.encSkipop s.encPend.toNat s with ho | ho
    · cases hx : marker s.encSkipop s.encPend.toNat s with
      | ok u =>
        rcases ho with ⟨u', h1, h2⟩ | h1 | ⟨-, a, -, -, h1⟩ <;> rw [hx] at h1 <;> cases h1
        exact .inl ⟨u, h2, by rw [hm, hx]; rfl⟩
      | error e => exact .inr ⟨e, Failure.ofWriter ho hx, by rw [hm, hx]; rfl⟩
    · exact .inr ⟨_, Failure.unknownOp _ _ _ _, by rw [hm, ho]; rfl⟩

/-- What SEQ_EMIT writes. -/
theorem emitOp_cases (i : Instr) (op : Op) (s : State) (hp : (Table.find s.paths op).isSome) :
    (∃ t, emitOp op s = .ok t ∧ EmitEffect s (advanceColumn t)) ∨ (∃ e, Failure i s e ∧ emitOp op s = .error e) := by
  unfold emitOp
  split
  · rename_i hty
    unfold emitSkip
    split
    · rename_i hz
      rcases marker_outcome op 1 s with ho | ho
      · cases hx : marker op 1 s with
        | ok u =>
          rcases ho with ⟨u', h1, h2⟩ | h1 | ⟨-, a, -, -, h1⟩ <;> rw [hx] at h1 <;> cases h1
          refine .inl ⟨u, rfl, u, u.encPend, u.encSkipop, h2, rfl, .inr (.inr ?_)⟩
          have hf := h2.frame
          exact ⟨by rw [hf], by rw [hf], hz⟩
        | error e => exact .inr ⟨e, Failure.ofWriter ho hx, rfl⟩
      · exact .inr ⟨_, Failure.unknownOp _ _ _ _, ho⟩
    · rename_i hz
      generalize hop : (if s.encPend = 0 then op else s.encSkipop) = first
      have hrun : ∀ len, (∃ t, (marker first len { s with encPend := s.encPend + 1, encSkipop := first } >>= fun u =>
              (.ok { u with encPend := 0 } : Attempt State)) = .ok t ∧ EmitEffect s (advanceColumn t)) ∨
          (∃ e, Failure i s e ∧ (marker first len { s with encPend := s.encPend + 1, encSkipop := first } >>= fun u =>
              (.ok { u with encPend := 0 } : Attempt State)) = .error e) := by
        intro len
        rcases marker_outcome first len { s with encPend := s.encPend + 1, encSkipop := first } with ho | ho
        · cases hx : marker first len { s with encPend := s.encPend + 1, encSkipop := first } with
          | ok u =>
            rcases ho with ⟨u', h1, h2⟩ | h1 | ⟨-, a, -, -, h1⟩ <;> rw [hx] at h1 <;> cases h1
            exact .inl ⟨_, rfl, _, 0, u.encSkipop, h2.ofEncoder.1, rfl, .inl rfl⟩
          | error e => exact .inr ⟨e, Failure.ofWriterEncoder ho hx, rfl⟩
        · exact .inr ⟨_, Failure.unknownOp _ _ _ _, by rw [ho]; rfl⟩
      dsimp only
      split
      · exact hrun skipToRowEnd
      · split
        · exact hrun skipMaxRun
        · rename_i h30
          refine .inl ⟨_, rfl, s, s.encPend + 1, first, .refl s, rfl, .inr (.inl ⟨hz, rfl, h30, ?_⟩)⟩
          subst hop
          split
          · exact .inr ⟨hty, hp⟩
          · exact .inl ⟨rfl, ‹_›⟩
  · rename_i hty
    unfold emitOther
    rcases flushSkips_cases i s with ⟨u, h1, h2⟩ | ⟨e, h1, h2⟩
    · rw [h2, Attempt.bind_ok]
      have hfr : ∀ x : Attempt State, WriterOutcome { u with encPend := 0 } x →
          (∃ t, x = .ok t ∧ EmitEffect s (advanceColumn t)) ∨ (∃ e, Failure i s e ∧ x = .error e) := by
        intro x hx
        have hu : u.encSkipop = s.encSkipop := by rw [h1.frame]
        rcases hx with ⟨t, rfl, ht⟩ | rfl | ⟨hn, a, h3, h4, rfl⟩
        · have ht' : BwOnly { u with encPend := 0, encSkipop := u.encSkipop } t := ht
          have h5 := ht'.ofEncoder
          refine .inl ⟨t, rfl, _, 0, t.encSkipop, h1.trans h5.1, ?_, .inl rfl⟩
          rw [← h5.2.1]
        · exact .inr ⟨_, Failure.bufferFull _ _ _ _, rfl⟩
        · rcases h1.ready with h5 | h5
          · subst h5
            exact .inr ⟨.unwritten .bw a, ⟨h3, State.unitAt_none rfl h4⟩, rfl⟩
          · exact absurd h5 hn
      rcases writePath_outcome op { u with encPend := 0 } with ho | ho
      · exact hfr _ ho
      · exact .inr ⟨_, Failure.unknownOp _ _ _ _, ho⟩
    · exact .inr ⟨e, h1, by rw [h2]; rfl⟩

/-! ## Every command -/

/-- How exec answers, in the terms of Effect and Failure. -/
def Answers (i : Instr) (s : State) (o : Host.Outcome State Fault Refusal) : Prop :=
  (∃ t v, o = .next (t.completed v) ∧ Effect i s t) ∨
  (∃ e a b, o = .next (s.raised e a b) ∧ Failure i s (.raise e a b)) ∨
  (∃ sp a, o = .fault (.unwrittenUnit sp a) ∧ Failure i s (.unwritten sp a))

theorem Answers.ofAttempt {i : Instr} {s : State} {x : Attempt (State × DWord)}
    (hok : ∀ t v, x = .ok (t, v) → Effect i s t) (herr : ∀ e, x = .error e → Failure i s e) :
    Answers i s (finish s x) := by
  rcases x with e | ⟨t, v⟩
  · cases e with
    | raise e a b => exact .inr (.inl ⟨e, a, b, rfl, herr _ rfl⟩)
    | unwritten sp a => exact .inr (.inr ⟨sp, a, rfl, herr _ rfl⟩)
  · exact .inl ⟨t, v, rfl, hok t v rfl⟩

/-- An attempt that reads state and answers without changing it. -/
theorem Answers.ofValue {i : Instr} {s : State} (v : DWord) (h : Effect i s s) : Answers i s (finish s (.ok (s, v))) :=
  .inl ⟨s, v, rfl, h⟩

theorem Answers.ofRaise {i : Instr} {s : State} {e : ErrCode} (a b : Word) (h : Failure i s (.raise e a b)) :
    Answers i s (finish s (raise e a b)) := .inr (.inl ⟨e, a, b, rfl, h⟩)

theorem Answers.ofOk {i : Instr} {s t : State} (v : DWord) (h : Effect i s t) : Answers i s (finish s (.ok (t, v))) :=
  .inl ⟨t, v, rfl, h⟩

theorem Answers.ofAbort {i : Instr} {s : State} {e : Abort} (h : Failure i s e) : Answers i s (finish s (.error e)) := by
  cases e with
  | raise e a b => exact .inr (.inl ⟨e, a, b, rfl, h⟩)
  | unwritten sp a => exact .inr (.inr ⟨sp, a, rfl, h⟩)

/-- CONTRACT of a command that no phase governs. -/
theorem Failure.contract {i : Instr} {s : State} (a b : Word) (h : PhaseRefuses s i) :
    Failure i s (.raise .contract a b) := ⟨nofun, nofun, nofun, fun _ => h⟩

/-- The writes to a register end in a new state or in CONTRACT. -/
theorem writeReg_cases (cmd : Word) (r : Reg) (v : Word) (s : State) :
    (∃ t, writeReg cmd r v s = .ok t) ∨ (∃ a b, writeReg cmd r v s = raise .contract a b) := by
  cases r <;> simp only [writeReg] <;> (try split) <;> (try split) <;>
    first | exact .inl ⟨_, rfl⟩ | exact .inr ⟨_, _, rfl⟩

/-- All that a command which is not halted can do. -/
theorem exec_answers (i : Instr) (s : State) (hf : s.fault = false ∨ i = .softReset ∨ ∃ r, i = .regRd r) :
    Answers i s (exec i s) := by
  cases i with
  | regRd r => exact .ofValue _ rfl
  | softReset => exact .ofOk _ rfl
  | nop =>
    simp only [reduceCtorEq, exists_false, or_false] at hf
    simp only [exec, execNop, command_ready hf]
    exact .ofValue _ rfl
  | regWr r v =>
    simp only [reduceCtorEq, exists_false, or_false] at hf
    simp only [exec, execRegWr, command_ready hf]
    rcases writeReg_cases (Instr.regWr r v).cmdWord r v s with ⟨t, h⟩ | ⟨a, b, h⟩
    · rw [h]; exact .ofOk _ ⟨_, h⟩
    · rw [h]; exact .ofRaise _ _ (.contract _ _ trivial)
  | memRd sp a =>
    simp only [reduceCtorEq, exists_false, or_false] at hf
    simp only [exec, execMemRd, command_ready hf]
    split
    · exact .ofRaise _ _ (.contract _ _ trivial)
    · split
      · exact .ofValue _ rfl
      · split
        · exact .ofValue _ rfl
        · rename_i h
          exact .ofAbort ⟨by omega, h⟩
  | memWr sp a v =>
    simp only [reduceCtorEq, exists_false, or_false] at hf
    simp only [exec, execMemWr, command_ready hf]
    split
    · exact .ofRaise _ _ (.contract _ _ trivial)
    · split
      · exact .ofRaise _ _ (.contract _ _ trivial)
      · rename_i h1 h2
        exact .ofOk _ ⟨fun h => h1 (.inl h), fun h => h1 (.inr h), by omega, rfl⟩
  | bwWrite n v =>
    simp only [reduceCtorEq, exists_false, or_false] at hf
    simp only [exec, execBwWrite, command_ready hf]
    rcases widthUpTo_cases maxBits (Instr.bwWrite n v).cmdWord n with ⟨k, -, -, h⟩ | ⟨b, h⟩
    · rw [h, Attempt.bind_ok]
      have ho := putBits_outcome k (v.toNat % 2 ^ k) s
      cases hx : putBits k (v.toNat % 2 ^ k) s with
      | error e => exact .ofAbort (.ofWriter ho hx)
      | ok t =>
        rcases ho with ⟨u, h1, h2⟩ | h1 | ⟨-, a, -, -, h1⟩ <;> rw [hx] at h1 <;> cases h1
        exact .ofOk _ h2
    · rw [h]; exact .ofRaise _ _ (.contract _ _ trivial)
  | bwClear =>
    simp only [reduceCtorEq, exists_false, or_false] at hf
    simp only [exec, execBwClear, command_ready hf]
    exact .ofOk _ rfl
  | brRead n =>
    simp only [reduceCtorEq, exists_false, or_false] at hf
    simp only [exec, execBrRead, command_ready hf]
    rcases widthUpTo_cases maxBits (Instr.brRead n).cmdWord n with ⟨k, -, -, h⟩ | ⟨b, h⟩
    · rw [h, Attempt.bind_ok]
      cases hx : peekFrom s s.brPos.toNat k with
      | error e =>
        obtain ⟨a, h1, h2, rfl⟩ := peekFrom_error hx
        exact .ofAbort ⟨h1, State.unitAt_none rfl h2⟩
      | ok v => exact .ofValue _ rfl
    · rw [h]; exact .ofRaise _ _ (.contract _ _ trivial)
  | brAdvance a =>
    simp only [reduceCtorEq, exists_false, or_false] at hf
    simp only [exec, execBrAdvance, command_ready hf]
    split
    · exact .ofRaise _ _ (.contract _ _ trivial)
    · split
      · exact .ofRaise _ _ (.contract _ _ trivial)
      · exact .ofOk _ ⟨_, rfl⟩
  | brExhausted =>
    simp only [reduceCtorEq, exists_false, or_false] at hf
    simp only [exec, execBrExhausted, command_ready hf]
    exact .ofValue _ rfl
  | mwWrite k v =>
    simp only [reduceCtorEq, exists_false, or_false] at hf
    simp only [exec, execMwWrite, command_ready hf]
    rcases widthUpTo_cases maxMaskBytes (Instr.mwWrite k v).cmdWord k with ⟨n, -, -, h⟩ | ⟨b, h⟩
    · rw [h, Attempt.bind_ok]
      split
      · exact .ofRaise _ _ (.bufferFull _ _ _ _)
      · exact .ofOk _ ⟨n, by omega, rfl⟩
    · rw [h]; exact .ofRaise _ _ (.contract _ _ trivial)
  | mwClear =>
    simp only [reduceCtorEq, exists_false, or_false] at hf
    simp only [exec, execMwClear, command_ready hf]
    exact .ofOk _ rfl
  | mrRead k =>
    simp only [reduceCtorEq, exists_false, or_false] at hf
    simp only [exec, execMrRead, command_ready hf]
    rcases widthUpTo_cases maxMaskBytes (Instr.mrRead k).cmdWord k with ⟨n, -, -, h⟩ | ⟨b, h⟩
    · rw [h, Attempt.bind_ok]
      split
      · exact .ofRaise _ _ (.contract _ _ trivial)
      · cases hx : maskBytesFrom s s.mrPos.toNat n with
        | error e =>
          obtain ⟨a, h1, h2, rfl⟩ := maskBytesFrom_error hx
          exact .ofAbort ⟨h1, State.unitAt_none rfl h2⟩
        | ok bs => exact .ofOk _ ⟨_, rfl⟩
    · rw [h]; exact .ofRaise _ _ (.contract _ _ trivial)
  | maskWidth ty =>
    simp only [reduceCtorEq, exists_false, or_false] at hf
    simp only [exec, execMaskWidth, command_ready hf]
    exact .ofValue _ rfl
  | cwOf c ty p =>
    simp only [reduceCtorEq, exists_false, or_false] at hf
    simp only [exec, execCwOf, command_ready hf]
    split
    · exact .ofRaise _ _ (.contract _ _ trivial)
    · exact .ofValue _ rfl
  | cwLong w =>
    simp only [reduceCtorEq, exists_false, or_false] at hf
    simp only [exec, execCwLong, command_ready hf]
    split
    · exact .ofRaise _ _ (.contract _ _ trivial)
    · exact .ofValue _ rfl
  | cwCount w =>
    simp only [reduceCtorEq, exists_false, or_false] at hf
    simp only [exec, execCwCount, command_ready hf]
    exact .ofValue _ rfl
  | cwType w =>
    simp only [reduceCtorEq, exists_false, or_false] at hf
    simp only [exec, execCwType, command_ready hf]
    exact .ofValue _ rfl
  | cwParam w =>
    simp only [reduceCtorEq, exists_false, or_false] at hf
    simp only [exec, execCwParam, command_ready hf]
    exact .ofValue _ rfl
  | cwLongoff w =>
    simp only [reduceCtorEq, exists_false, or_false] at hf
    simp only [exec, execCwLongoff, command_ready hf]
    exact .ofValue _ rfl
  | cwIslong w =>
    simp only [reduceCtorEq, exists_false, or_false] at hf
    simp only [exec, execCwIslong, command_ready hf]
    exact .ofValue _ rfl
  | cwPacked n w =>
    simp only [reduceCtorEq, exists_false, or_false] at hf
    simp only [exec, execCwPacked, command_ready hf]
    split
    · exact .ofRaise _ _ (.contract _ _ trivial)
    · exact .ofValue _ rfl
  | dictPack =>
    simp only [reduceCtorEq, exists_false, or_false] at hf
    simp only [exec, execDictPack, command_ready hf]
    cases hx : fetchUnits .dict s.dict 0 s.dictLen.toNat with
    | error e =>
      obtain ⟨a, -, h1, h2, rfl⟩ := fetchUnits_error hx
      exact .ofAbort ⟨by simpa [State.length] using h1, h2⟩
    | ok ws =>
      simp only [Attempt.bind_ok]
      split
      · exact .ofRaise _ _ (.bufferFull _ _ _ _)
      · refine .ofOk _ ⟨serialize (runs ws), ?_, ?_⟩ <;> rw [serialize_length]
        omega
  | dictUnpack =>
    simp only [reduceCtorEq, exists_false, or_false] at hf
    simp only [exec, execDictUnpack, command_ready hf]
    cases hx : serCount s with
    | error e =>
      rcases serCount_error hx with ⟨b, rfl⟩ | ⟨a, h1, h2, rfl⟩
      · exact .ofAbort (.badPacked _ _ _ _)
      · exact .ofAbort ⟨h1, State.unitAt_none rfl h2⟩
    | ok n =>
      have hn := serCount_ok hx
      simp only [Attempt.bind_ok]
      cases hy : serRuns s 4 n with
      | error e =>
        rcases serRuns_error hy with ⟨x, b, rfl⟩ | ⟨a, -, h1, h2, rfl⟩
        · exact .ofAbort (.badPacked _ _ _ _)
        · exact .ofAbort ⟨by simp only [State.length]; omega, State.unitAt_none rfl h2⟩
      | ok ps =>
        simp only [Attempt.bind_ok]
        split
        · exact .ofRaise _ _ (.bufferFull _ _ _ _)
        · exact .ofOk _ ⟨unpackWords ps, by omega, rfl⟩
  | seqClear =>
    simp only [reduceCtorEq, exists_false, or_false] at hf
    simp only [exec, execSeqClear, command_ready hf]
    split
    · exact .ofRaise _ _ (.contract _ _ ‹_›)
    · rename_i h
      exact .ofOk _ ⟨by simpa using h, rfl⟩
  | seqAdd ty p =>
    simp only [reduceCtorEq, exists_false, or_false] at hf
    simp only [exec, execSeqAdd, command_ready hf]
    split
    · exact .ofRaise _ _ (.contract _ _ ‹_›)
    · rename_i hp
      have hph : s.phase = .accumulate := by
        cases h : s.phase
        · rfl
        · exact absurd h hp
      split
      · exact .ofRaise _ _ ⟨nofun, nofun, nofun, nofun⟩
      · split
        · exact .ofRaise _ _ (.bufferFull _ _ _ _)
        · rename_i h1
          split
          · exact .ofRaise _ _ ⟨nofun, nofun, nofun, nofun⟩
          · exact .ofOk _ ⟨hph, _, _, fun h2 h3 => h1 ⟨h2, h3⟩, rfl⟩
  | seqBuild =>
    simp only [reduceCtorEq, exists_false, or_false] at hf
    simp only [exec, execSeqBuild, command_ready hf]
    split
    · exact .ofRaise _ _ (.contract _ _ ‹_›)
    · rename_i ho
      split
      · exact .ofRaise _ _ ⟨nofun, nofun, nofun, nofun⟩
      · split
        · exact .ofRaise _ _ (.bufferFull _ _ _ _)
        · exact .ofOk _ ⟨by simpa using ho, _, _, _, by omega, rfl, rfl, by omega, rfl⟩
  | seqPath ty p =>
    simp only [reduceCtorEq, exists_false, or_false] at hf
    simp only [exec, execSeqPath, command_ready hf]
    split
    · exact .ofRaise _ _ (.contract _ _ ‹_›)
    · split
      · exact .ofRaise _ _ (.unknownOp _ _ _ _)
      · exact .ofValue _ rfl
  | seqFrameBegin =>
    simp only [reduceCtorEq, exists_false, or_false] at hf
    simp only [exec, execSeqFrameBegin, command_ready hf]
    split
    · exact .ofRaise _ _ (.contract _ _ ‹_›)
    · rename_i h
      simp only [not_or, not_not, Bool.not_eq_true] at h
      exact .ofOk _ ⟨h.1, h.2, rfl⟩
  | seqEmit ty p =>
    simp only [reduceCtorEq, exists_false, or_false] at hf
    simp only [exec, execSeqEmit, command_ready hf]
    split
    · rename_i h
      exact .ofRaise _ _ (.contract _ _ (by simpa [PhaseRefuses] using h))
    · rename_i ho
      have ho' : s.encOpen = true := by simpa using ho
      split
      · exact .ofRaise _ _ (.unknownOp _ _ _ _)
      · rename_i op _
        split
        · exact .ofRaise _ _ (.unknownOp _ _ _ _)
        · rename_i hp
          rcases emitOp_cases (.seqEmit ty p) op s (Option.isSome_iff_ne_none.2 hp) with ⟨t, h1, h2⟩ | ⟨e, h1, h2⟩
          · rw [h1]; exact .ofOk _ ⟨ho', h2⟩
          · rw [h2]; exact .ofAbort h1
  | seqFrameEnd =>
    simp only [reduceCtorEq, exists_false, or_false] at hf
    simp only [exec, execSeqFrameEnd, command_ready hf]
    split
    · rename_i h
      exact .ofRaise _ _ (.contract _ _ (by simpa [PhaseRefuses] using h))
    · rename_i ho
      have ho' : s.encOpen = true := by simpa using ho
      rcases flushSkips_cases .seqFrameEnd s with ⟨u, h1, h2⟩ | ⟨e, h1, h2⟩
      · rw [h2]; exact .ofOk _ ⟨ho', u, h1, rfl⟩
      · rw [h2]; exact .ofAbort h1
  | cwResolve =>
    simp only [reduceCtorEq, exists_false, or_false] at hf
    simp only [exec, execCwResolve, command_ready hf]
    split
    · exact .ofRaise _ _ ⟨nofun, nofun, nofun, nofun⟩
    · cases hx : resolve s (Instr.cwResolve).cmdWord with
      | error e => exact .ofAbort (.ofResolve (.inl rfl) (resolve_abort hx))
      | ok r => exact .ofOk _ ⟨_, rfl⟩
  | streamNext =>
    simp only [reduceCtorEq, exists_false, or_false] at hf
    simp only [exec, execStreamNext, command_ready hf]
    split
    · exact .ofRaise _ _ ⟨nofun, nofun, nofun, nofun⟩
    · split
      · exact .ofOk _ ⟨s.brPos, rfl⟩
      · cases hx : resolve s (Instr.streamNext).cmdWord with
        | error e => exact .ofAbort (.ofResolve (.inr rfl) (resolve_abort hx))
        | ok r =>
          simp only [Attempt.bind_ok]
          split
          · exact .ofRaise _ _ ⟨nofun, nofun, fun _ => .inr rfl, nofun⟩
          · cases hy : skipRun s (Instr.streamNext).cmdWord r.1 r.2.1 with
            | error e => exact .ofAbort (.ofResolve (.inr rfl) (skipRun_abort hy))
            | ok l => exact .ofOk _ ⟨_, rfl⟩

/-- A command that FAULT halts. -/
theorem exec_halted (i : Instr) (s : State) (hf : s.fault = true) (h1 : i ≠ .softReset) (h2 : ∀ r, i ≠ .regRd r) :
    exec i s = .next (s.raised .halted 0 0) := by
  cases i <;> first | exact command_halted hf _ | exact absurd rfl h1 | exact absurd rfl (h2 _)

end Sys2Proof.Machine
end

