-- ==== Sys2Proof/Machine/Assembler.lean ====
section
/-! DEFINITION. The assembler syntax (30_encoding.md R85), over the characters of a line. It is a notation of the host's,
beside the machine: no step uses it. -/

namespace Sys2Proof.Machine

open Sys2Proof

/-- Split a line into words at spaces, tabs and commas; the brackets of form M are words of their own; a `;` starts a
comment. That a comma counts as a space, so that a missing or an extra one changes nothing, is a DESIGN CHOICE (log
entry 24). The argument `w` is the word being read, last character first. -/
def asmWords (w : List Char) : List Char → List (List Char)
  | [] => if w = [] then [] else [w.reverse]
  | c :: cs =>
    let done := if w = [] then [] else [w.reverse]
    if c = ';' then done
    else if c = ' ' ∨ c = ',' ∨ c = '\t' then done ++ asmWords [] cs
    else if c = '[' ∨ c = ']' then done ++ [[c]] ++ asmWords [] cs
    else asmWords (c :: w) cs

/-- The value of a digit. -/
def asmDigit (c : Char) : Option Nat :=
  if '0' ≤ c ∧ c ≤ '9' then some (c.toNat - '0'.toNat)
  else if 'a' ≤ c ∧ c ≤ 'f' then some (c.toNat - 'a'.toNat + 10)
  else if 'A' ≤ c ∧ c ≤ 'F' then some (c.toNat - 'A'.toNat + 10)
  else none

/-- A digit string in a base, continuing the value read so far. -/
def asmDigits (base acc : Nat) : List Char → Option Nat
  | [] => some acc
  | c :: cs =>
    match asmDigit c with
    | some d => if d < base then asmDigits base (acc * base + d) cs else none
    | none => none

/-- A decimal or 0x number; leading zeros and both cases of the hexadecimal digits are accepted (log entry 24). -/
def asmNat : List Char → Option Nat
  | [] => none
  | ['0'] => some 0
  | '0' :: 'x' :: c :: cs => asmDigits 16 0 (c :: cs)
  | c :: cs => asmDigits 10 0 (c :: cs)

/-- A number that may be negative (formats W8 and A24); the sign stands before the digits (log entry 24). -/
def asmInt : List Char → Option Int
  | '-' :: cs => (asmNat cs).map fun n => -(n : Int)
  | cs => (asmNat cs).map fun n => (n : Int)

/-- A number that fits in w bits. -/
def asmBits (w : Nat) (cs : List Char) : Option (BitVec w) :=
  (asmNat cs).bind fun n => if n < 2 ^ w then some (BitVec.ofNat w n) else none

/-- The name of a register (10_state.md R26). -/
def Reg.name : Reg → String
  | .id => "ID" | .status => "STATUS" | .errA => "ERR_A" | .errB => "ERR_B" | .indexBits => "INDEX_BITS"
  | .directLimit => "DIRECT_LIMIT" | .hTiles => "HTILES" | .brLen => "BR_LEN" | .brPos => "BR_POS"
  | .bwBits => "BW_BITS" | .mrLen => "MR_LEN" | .mrPos => "MR_POS" | .mwLen => "MW_LEN" | .dictLen => "DICT_LEN"
  | .serLen => "SER_LEN" | .seqNops => "SEQ_NOPS" | .seqDirect => "SEQ_DIRECT" | .seqBlocks => "SEQ_BLOCKS"
  | .encPend => "ENC_PEND" | .encCol => "ENC_COL" | .hopLimit => "HOP_LIMIT" | .brCap => "BR_CAP"
  | .bwCap => "BW_CAP" | .mrCap => "MR_CAP" | .mwCap => "MW_CAP" | .dictCap => "DICT_CAP" | .serCap => "SER_CAP"
  | .optabCap => "OPTAB_CAP" | .seqIb => "SEQ_IB"

/-- The name of a space (20_memory.md R51). -/
def Space.name : Space → String
  | .br => "BR" | .bw => "BW" | .mr => "MR" | .mw => "MW" | .dict => "DICT" | .ser => "SER"

/-- The name of a control type (30_encoding.md R90, column "name"). -/
def CtrlType.name : CtrlType → String
  | .s2 => "COLOR2_STATIC" | .m2 => "COLOR2_MASKED" | .m4 => "COLOR4_MASKED" | .m8 => "COLOR8_MASKED"
  | .m16 => "COLOR16_MASKED" | .skip => "SKIP" | .rep => "REPEAT_PREVIOUS" | .unk => "UNKNOWN"

/-- The short name of a control type (30_encoding.md R90, column "short"). -/
def CtrlType.shortName : CtrlType → String
  | .s2 => "S2" | .m2 => "M2" | .m4 => "M4" | .m8 => "M8" | .m16 => "M16" | .skip => "SKIP" | .rep => "REP"
  | .unk => "UNK"

/-- A register name or number. R85 says "a register name of 10_state.md rule R26 or a number": that a reserved number, 0x1D
to 0xFF, names no register here and leaves the line without an answer is a DESIGN CHOICE (log entry 25). -/
def asmReg (cs : List Char) : Option Reg :=
  match Reg.all.find? (fun r => (Reg.name r).toList = cs) with
  | some r => some r
  | none => (asmBits 8 cs).bind Reg.ofNum

/-- A space name. -/
def asmSpace (cs : List Char) : Option Space := Space.all.find? (fun sp => (Space.name sp).toList = cs)

/-- A type name or number. R85 says "a type name of rule R90", whose table has a name and a short name: that both are
accepted is a DESIGN CHOICE (log entry 22). -/
def asmType (cs : List Char) : Option CtrlType :=
  match [CtrlType.s2, .m2, .m4, .m8, .m16, .skip, .rep, .unk].find?
      (fun t => (CtrlType.name t).toList = cs ∨ (CtrlType.shortName t).toList = cs) with
  | some t => some t
  | none => (asmBits 3 cs).map CtrlType.ofCode

/-- The commands written as a mnemonic alone (form Z). -/
def asmBare : List (String × Instr) :=
  [("NOP", .nop), ("SOFT_RESET", .softReset), ("BW_CLEAR", .bwClear), ("BR_EXHAUSTED", .brExhausted),
   ("MW_CLEAR", .mwClear), ("DICT_PACK", .dictPack), ("DICT_UNPACK", .dictUnpack), ("SEQ_CLEAR", .seqClear),
   ("SEQ_BUILD", .seqBuild), ("SEQ_FRAME_BEGIN", .seqFrameBegin), ("SEQ_FRAME_END", .seqFrameEnd),
   ("CW_RESOLVE", .cwResolve), ("STREAM_NEXT", .streamNext)]

/-- The commands of one 32-bit DIN operand (form D). -/
def asmData : List (String × (Word → Instr)) :=
  [("CW_LONG", .cwLong), ("CW_COUNT", .cwCount), ("CW_TYPE", .cwType), ("CW_PARAM", .cwParam),
   ("CW_LONGOFF", .cwLongoff), ("CW_ISLONG", .cwIslong)]

/-- The commands of a type and a parameter (form O). -/
def asmOp : List (String × (CtrlType → Word → Instr)) :=
  [("SEQ_ADD", .seqAdd), ("SEQ_PATH", .seqPath), ("SEQ_EMIT", .seqEmit)]

/-- The commands of one signed number (forms W8 without data, and A24). -/
def asmSigned : List (String × (Int → Instr)) :=
  [("BR_READ", .brRead), ("MR_READ", .mrRead), ("BR_ADVANCE", .brAdvance)]

/-- The entry of a mnemonic. -/
def asmFind {α : Type} (t : List (String × α)) (m : List Char) : Option α :=
  (t.find? fun e => e.1.toList = m).map Prod.snd

/-- A mnemonic and its operands as a command term (R85). -/
def asmTerm (m : List Char) (args : List (List Char)) : Option Instr :=
  match args with
  | [] => asmFind asmBare m
  | [a] =>
    match asmFind asmData m, asmFind asmSigned m with
    | some k, _ => (asmBits 32 a).map k
    | none, some k => (asmInt a).map k
    | none, none =>
      if m = "REG_RD".toList then (asmReg a).map .regRd
      else if m = "MASK_WIDTH".toList then (asmType a).map .maskWidth
      else none
  | [a, b] =>
    match asmFind asmOp m with
    | some k => (asmType a).bind fun t => (asmBits 32 b).map (k t)
    | none =>
      if m = "REG_WR".toList then (asmReg a).bind fun r => (asmBits 32 b).map (.regWr r)
      else if m = "BW_WRITE".toList then (asmInt a).bind fun n => (asmBits 32 b).map (.bwWrite n)
      else if m = "MW_WRITE".toList then (asmInt a).bind fun n => (asmBits 64 b).map (.mwWrite n)
      else if m = "CW_PACKED".toList then (asmBits 32 a).bind fun w => (asmBits 8 b).map (.cwPacked · w)
      else none
  | [a, b, c] =>
    if m = "CW_OF".toList then
      (asmBits 4 a).bind fun n => (asmType b).bind fun t => (asmBits 32 c).map (.cwOf n t)
    else none
  | [sp, ['['], a, [']']] =>
    if m = "MEM_RD".toList then (asmSpace sp).bind fun sp => (asmBits 20 a).map (.memRd sp) else none
  | [sp, ['['], a, [']'], v] =>
    if m = "MEM_WR".toList then
      (asmSpace sp).bind fun sp => (asmBits 20 a).bind fun a => (asmBits 32 v).map (.memWr sp a)
    else none
  | _ => none

/-- The pairs of a flat operand list. -/
def asmPairs : List (List Char) → Option (List (CtrlType × Word))
  | [] => some []
  | [_] => none
  | a :: b :: rest => (asmType a).bind fun t => (asmBits 32 b).bind fun p => (asmPairs rest).map ((t, p) :: ·)

/-- Numbers of w bits, all of them. -/
def asmAll (w : Nat) : List (List Char) → Option (List (BitVec w))
  | [] => some []
  | a :: rest => (asmBits w a).bind fun v => (asmAll w rest).map (v :: ·)

/-- A pseudo-command (R86); the ops of SEQ_BITSTREAM are written type, param, one after another. -/
def asmPseudo (m : List Char) (args : List (List Char)) : Option PseudoCommand :=
  if m = "BR_LOAD".toList then (asmAll 8 args).map .brLoad
  else if m = "MR_LOAD".toList then (asmAll 8 args).map .mrLoad
  else if m = "DICT_LOAD".toList then (asmAll 32 args).map .dictLoad
  else if m = "SER_LOAD".toList then (asmAll 8 args).map .serLoad
  else if m = "SEQ_BITSTREAM".toList then (asmPairs args).map .seqBitstream
  else
    match args with
    | [] => if m = "ERR_CLR".toList then some .errClr else none
    | [a] => if m = "BR_CONSUME".toList then (asmInt a).map .brConsume else none
    | _ => none

/-- The commands a line of assembler stands for: none of them for a blank line, and no answer where the words of the line
are not of the syntax or an operand does not fit its field (R85, R86; log entries 17, 22, 24 and 25). That BR_CONSUME of a number outside format W8, for whose
BR_READ there is no encoding, has no answer either is a DESIGN CHOICE (log entry 23). -/
def assembleLine (line : List Char) : Option (List Instr) :=
  match asmWords [] line with
  | [] => some []
  | m :: args =>
    let is := match asmTerm m args with
      | some i => some [i]
      | none => (asmPseudo m args).map PseudoCommand.expand
    is.bind fun is => if is.all Instr.wf then some is else none

end Sys2Proof.Machine
end

