-- ==== Sys2Proof/Tests/Slice0.lean ====
section
/-! SUPPORT. Small tests: the well-formedness checks, every constructor's decoding, one-step vectors of
spec/95_test_vectors.md (named in each docstring), and for every statement with hypotheses a witness that meets them. -/

namespace Sys2Proof.Tests

open Sys2Proof Sys2Proof.Machine

-- One thread at a time: the kernel evaluations below would each hold a thread's stack.
set_option Elab.async false

/-! ## Well-formedness: an ill-formed term for each check -/

theorem test_width_check_refuses : (Instr.bwWrite 128 0).wf = false ∧ (Instr.mrRead (-129)).wf = false := by decide

theorem test_amount_check_refuses :
    (Instr.brAdvance (2 ^ 23)).wf = false ∧ (Instr.brAdvance (-(2 ^ 23) - 1)).wf = false := by decide

theorem test_unit_check_refuses : (Instr.memWr .br 0 256).wf = false ∧ (Instr.memWr .ser 0 256).wf = false := by decide

theorem test_checks_accept_extremes :
    (Instr.bwWrite (-128) 0).wf ∧ (Instr.brRead 127).wf ∧ (Instr.brAdvance (-(2 ^ 23))).wf ∧
    (Instr.brAdvance (2 ^ 23 - 1)).wf ∧ (Instr.memWr .dict 0 0xFFFFFFFF).wf ∧ (Instr.memWr .mr 0 255).wf := by decide

/-! ## Decoding: words written out from the formats of 30_encoding.md R75 and the opcodes of R81 -/

/-- Block control: OPC in bits 31 to 24, REG in 7 to 0, SPACE in 23 to 20, ADDR in 19 to 0. -/
theorem test_decode_block_control :
    decode ⟨0b00000000_000000000000000000000000, 0⟩ = .ok .nop ∧
    decode ⟨0b00000001_0000000000000000_00000011, 0⟩ = .ok (.regRd .errB) ∧
    decode ⟨0b00000010_0000000000000000_00000111, 0xFFFFFFFF00000009⟩ = .ok (.regWr .brLen 9) ∧
    decode ⟨0b00000011_0100_00000000000000000101, 0⟩ = .ok (.memRd .dict 5) ∧
    decode ⟨0b00000100_0010_10000000000000000001, 0x1FE⟩ = .ok (.memWr .mr 0x80001 0xFE) ∧
    decode ⟨0b00000100_0100_00000000000000000000, 0x1FE⟩ = .ok (.memWr .dict 0 0x1FE) ∧
    decode ⟨0b00000101_000000000000000000000000, 0⟩ = .ok .softReset := by decide

/-- The bit channel: WIDTH in bits 7 to 0 and AMOUNT in bits 23 to 0, both two's complement. -/
theorem test_decode_bit_channel :
    decode ⟨0b00010000_0000000000000000_10000000, 0xABC⟩ = .ok (.bwWrite (-128) 0xABC) ∧
    decode ⟨0b00010001_000000000000000000000000, 0⟩ = .ok .bwClear ∧
    decode ⟨0b00011000_0000000000000000_01111111, 0⟩ = .ok (.brRead 127) ∧
    decode ⟨0b00011001_100000000000000000000000, 0⟩ = .ok (.brAdvance (-8388608)) ∧
    decode ⟨0b00011010_000000000000000000000000, 0⟩ = .ok .brExhausted := by decide

/-- The mask channel: WIDTH in bits 7 to 0, all 64 bits of DIN for MW_WRITE, TYPE in bits 2 to 0. -/
theorem test_decode_mask_channel :
    decode ⟨0b00100000_0000000000000000_00001000, 0x0123456789ABCDEF⟩ = .ok (.mwWrite 8 0x0123456789ABCDEF) ∧
    decode ⟨0b00100001_000000000000000000000000, 0⟩ = .ok .mwClear ∧
    decode ⟨0b00101000_0000000000000000_11111111, 0⟩ = .ok (.mrRead (-1)) ∧
    decode ⟨0b00101001_000000000000000000000_100, 0⟩ = .ok (.maskWidth .m16) := by decide

/-- Control words and packing: COUNT in bits 23 to 20, TYPE in 19 to 17, TIMES in 7 to 0. -/
theorem test_decode_control_word :
    decode ⟨0b00110000_1100_010_00000000000000000, 0x123⟩ = .ok (.cwOf 12 .m4 0x123) ∧
    decode ⟨0b00110001_000000000000000000000000, 0x1000⟩ = .ok (.cwLong 0x1000) ∧
    decode ⟨0b00110010_000000000000000000000000, 1⟩ = .ok (.cwCount 1) ∧
    decode ⟨0b00110011_000000000000000000000000, 2⟩ = .ok (.cwType 2) ∧
    decode ⟨0b00110100_000000000000000000000000, 3⟩ = .ok (.cwParam 3) ∧
    decode ⟨0b00110101_000000000000000000000000, 4⟩ = .ok (.cwLongoff 4) ∧
    decode ⟨0b00110110_000000000000000000000000, 5⟩ = .ok (.cwIslong 5) ∧
    decode ⟨0b00110111_0000000000000000_11111111, 6⟩ = .ok (.cwPacked 255 6) ∧
    decode ⟨0b00111000_000000000000000000000000, 0⟩ = .ok .dictPack ∧
    decode ⟨0b00111001_000000000000000000000000, 0⟩ = .ok .dictUnpack := by decide

/-- The sequencer: TYPE in bits 2 to 0, the parameter in DIN[31:0]. -/
theorem test_decode_sequencer :
    decode ⟨0b01000000_000000000000000000000000, 0⟩ = .ok .seqClear ∧
    decode ⟨0b01000001_000000000000000000000_111, 0x20000⟩ = .ok (.seqAdd .unk 0x20000) ∧
    decode ⟨0b01000010_000000000000000000000000, 0⟩ = .ok .seqBuild ∧
    decode ⟨0b01000011_000000000000000000000_110, 7⟩ = .ok (.seqPath .rep 7) ∧
    decode ⟨0b01000100_000000000000000000000000, 0⟩ = .ok .seqFrameBegin ∧
    decode ⟨0b01000101_000000000000000000000_101, 8⟩ = .ok (.seqEmit .skip 8) ∧
    decode ⟨0b01000110_000000000000000000000000, 0⟩ = .ok .seqFrameEnd := by decide

/-- The resolver. -/
theorem test_decode_resolver :
    decode ⟨0b01001000_000000000000000000000000, 0⟩ = .ok .cwResolve ∧
    decode ⟨0b01001001_000000000000000000000000, 0⟩ = .ok .streamNext := by decide

/-- Reserved encodings are refused by name, and not read as a neighbour (R82, R83). -/
theorem test_decode_refuses :
    decode ⟨0x47000000, 0⟩ = .error (.reservedOpcode 0x47) ∧
    decode ⟨0x00000001, 0⟩ = .error (.reservedField 1) ∧
    decode ⟨0x0100001D, 0⟩ = .error (.reservedRegister 0x1D) ∧
    decode ⟨0x03600000, 0⟩ = .error (.reservedSpace 6) ∧
    decode ⟨0x30C00001, 0⟩ = .error (.reservedField 0xC00001) ∧
    decode ⟨0x29000008, 0⟩ = .error (.reservedField 8) := by decide

/-- A table word is fetched and run as the next command: REG_RD DIRECT_LIMIT right after reset (vector REG4). -/
theorem test_table_word_runs :
    step (State.reset.withFetchWord 32 0x01000005) = .next (State.reset.completed 4096) := rfl

/-! ## One-step vectors -/

/-- The states that a step may lead to, or none where it stops. -/
def after (s : State) (cmd : Word) (din : DWord) : Option State :=
  match step (s.issue ⟨cmd, din⟩) with
  | .next t => some t
  | .fault _ => none
  | .refused _ => none

/-- RESP and DOUT of one command. -/
def answer (s : State) (cmd : Word) (din : DWord) : Option (Nat × Nat) :=
  (after s cmd din).map fun t => (t.resp.bits.toNat, t.dout.toNat)

/-- RESP, ERR_A, ERR_B and STATUS after one command. -/
def record (s : State) (cmd : Word) (din : DWord) : Option (Nat × Word × Word × Word) :=
  (after s cmd din).map fun t => (t.resp.bits.toNat, t.errA, t.errB, t.statusWord)

/-- The bytes of a space from address 0 on. -/
def bytes (vs : List Byte) : List Host.Cell := vs.zipIdx.map fun v => (v.2, v.1)

/-- The words of DICT from index 0 on. -/
def words (vs : List Word) : List (Nat × BitVec 32) := vs.zipIdx.map fun v => (v.2, v.1)

/-- Reset, then BR_LOAD. -/
def withBr (vs : List Byte) : State :=
  { State.reset with br := bytes vs, brLen := BitVec.ofNat 21 vs.length }

/-- Reset, then MR_LOAD. -/
def withMr (vs : List Byte) : State :=
  { State.reset with mr := bytes vs, mrLen := BitVec.ofNat 21 vs.length }

/-- DICT_LOAD. -/
def withDict (s : State) (vs : List Word) : State :=
  { s with dict := words vs, dictLen := BitVec.ofNat 21 vs.length }

/-- Reset, then SER_LOAD. -/
def withSer (vs : List Byte) : State :=
  { State.reset with ser := bytes vs, serLen := BitVec.ofNat 21 vs.length }

/-- Reset with the operation table of vector S14. -/
def withOps : State :=
  { State.reset with
    opt := [(⟨.skip, 0⟩, 5), (⟨.m2, 8⟩, 3), (⟨.m2, 0x10⟩, 3), (⟨.m4, 0x10⟩, 3), (⟨.s2, 0x201⟩, 1)] }

/-- The dictionary that S14 gives for it. -/
def builtWords : List Word := [0xCA0000, 0xC20008, 0xC20010, 0xC40010, 0xC00201]

/-- withOps after SEQ_BUILD, as S14 and 44_sequencer.md R148 give it. -/
def built : State :=
  { withDict withOps builtWords with
    phase := .built, seqIb := 12, seqDirect := 5, brLen := 0
    paths := [(⟨.skip, 0⟩, .direct 0 12), (⟨.m2, 8⟩, .direct 1 12), (⟨.m2, 0x10⟩, .direct 2 12),
      (⟨.m4, 0x10⟩, .direct 3 12), (⟨.s2, 0x201⟩, .direct 4 12)] }

/-- built with a frame of four tiles a column open. -/
def inFrame : State := { built with hTiles := 4, encOpen := true }

/-- FAULT set by a CONTRACT. -/
def halted : State := { State.reset with fault := true, lastErr := .contract, errA := 0x18000021, errB := 33 }

/-- REG15: NOP halts while FAULT = 1, the record kept. -/
theorem test_nop :
    answer State.reset 0x00000000 0 = some (0, 0) ∧ record halted 0 0 = some (13, 0x18000021, 33, 0x105) := by decide

/-- REG1, REG2, REG16. -/
theorem test_regRd :
    answer State.reset 0x01000000 0 = some (0, 0x48533207) ∧ answer State.reset 0x01000001 0 = some (0, 4) ∧
    answer halted 0x01000001 0 = some (0, 0x105) := by decide

/-- REG5, REG7, REG9, REG11. -/
theorem test_regWr :
    record State.reset 0x02000004 16 = some (1, 0x02000004, 16, 0x105) ∧
    (after State.reset 0x02000004 15).map (·.indexBits) = some 15 ∧
    record State.reset 0x02000005 32769 = some (1, 0x02000005, 32769, 0x105) ∧
    record State.reset 0x02000000 5 = some (1, 0x02000000, 0, 0x105) := by decide

/-- REG23: BR_LEN rewinds the reader and clears STREAM_STOP. -/
theorem test_regWr_brLen :
    (after { State.reset with brPos := 9, streamStop := true } 0x02000007 2).map
      (fun t => (t.brLen.toNat, t.brPos.toNat, t.streamStop, t.dout.toNat)) = some (2, 0, false, 2) := by decide

/-- REG21, and 20_memory.md R58 and R59: zero past the length, a stop at a unit nothing has written. -/
theorem test_memRd :
    answer State.reset 0x03000000 0 = some (0, 0) ∧ answer (withBr [0xA1]) 0x03000000 0 = some (0, 0xA1) ∧
    answer { withBr [0xA1] with brLen := 2 } 0x03000001 0 = none := by decide

/-- REG20, and the low byte of DIN only in a byte space (R107). -/
theorem test_memWr :
    record State.reset 0x04100000 1 = some (1, 0x04100000, 1, 0x105) ∧
    (after State.reset 0x04000002 0x1FE).map (·.br) = some [(2, 0xFE)] ∧
    (after State.reset 0x04400002 0x1FE).map (·.dict) = some [(2, 0x1FE)] := by decide

/-- REG17, REG18. -/
theorem test_softReset :
    record halted 0x05000000 0 = some (0, 0, 0, 4) ∧
    record halted 0x05000001 0 = some (2, 0x05000001, 0, 0x205) := by decide

/-- BW2's second command and BW3. -/
theorem test_bwWrite :
    (after { State.reset with bw := bytes [0xAB, 0xC0], bwBits := 12 } 0x10000004 0xD).map
      (fun t => (t.bw, t.bwBits, t.dout)) = some (bytes [0xAB, 0xCD], 16, 16) ∧
    (after State.reset 0x10000004 0x1F).map (fun t => (t.bw, t.bwBits)) = some (bytes [0xF0], 4) := by decide

/-- S5, BW7. -/
theorem test_bwWrite_width :
    record State.reset 0x10000021 0 = some (1, 0x10000021, 33, 0x105) ∧
    record State.reset 0x100000FF 0 = some (1, 0x100000FF, 0xFFFFFFFF, 0x105) := by decide

/-- BW9. -/
theorem test_bwClear :
    (after { State.reset with bw := bytes [0xFF], bwBits := 8 } 0x11000000 3).map
      (fun t => (t.bw, t.bwBits, t.dout)) = some (bytes [0xFF], 0, 0) := by decide

/-- BR6's and BR5's last commands: a field across two bytes, zeros past the end. -/
theorem test_brRead :
    answer { withBr [0xAB, 0xCD] with brPos := 4 } 0x18000008 0 = some (0, 0xBC) ∧
    answer { withBr [0x12, 0x34] with brPos := 4 } 0x18000020 0 = some (0, 0x23400000) := by decide

/-- S6, BR9, and BR10: the end of the 32-bit cursor. -/
theorem test_brAdvance :
    record (withBr [0xA1]) 0x19FFFFFF 0 = some (1, 0x19FFFFFF, 0xFFFFFFFF, 0x101) ∧
    answer (withBr [0xA1]) 0x197FFFFF 0 = some (0, 0x7FFFFF) ∧
    answer { withBr [0xA1] with brPos := 0xFFFFFFF0 } 0x19000010 0 = some (1, 0) := by decide

/-- S3. -/
theorem test_brExhausted :
    answer { withBr [0xFF, 0x00] with brPos := 15 } 0x1A000000 0 = some (0, 0) ∧
    answer { withBr [0xFF, 0x00] with brPos := 16 } 0x1A000000 0 = some (0, 1) := by decide

/-- MW1. -/
theorem test_mwWrite :
    (after { State.reset with mw := bytes [0x34, 0x12], mwLen := 2 } 0x20000003 0xAABBCCDD).map
      (fun t => (t.mw, t.mwLen, t.dout)) = some (bytes [0x34, 0x12, 0xDD, 0xCC, 0xBB], 5, 5) ∧
    record State.reset 0x20000009 0 = some (1, 0x20000009, 9, 0x105) := by decide

/-- MW5. -/
theorem test_mwClear :
    (after { State.reset with mw := bytes [0x7F], mwLen := 1 } 0x21000000 0).map (fun t => (t.mw, t.mwLen))
      = some (bytes [0x7F], 0) := by decide

/-- MR1, MR5. -/
theorem test_mrRead :
    (after (withMr [0x34, 0x12]) 0x28000008 0).map (fun t => (t.dout, t.mrPos)) = some (0x1234, 8) ∧
    record State.reset 0x280000FF 0 = some (1, 0x280000FF, 0xFFFFFFFF, 0x105) := by decide

/-- MK1. -/
theorem test_maskWidth :
    [0x29000000, 0x29000001, 0x29000002, 0x29000003, 0x29000004, 0x29000005, 0x29000006, 0x29000007].map
      (answer State.reset · 0) = [0, 2, 4, 6, 8, 0, 0, 0].map fun n => some (0, n) := by decide

/-- The vectors of CW_OF: two words and a parameter too wide. -/
theorem test_cwOf :
    answer State.reset 0x30C40000 0x123 = some (0, 0xC40123) ∧
    answer State.reset 0x30FE0000 0x1FFFF = some (0, 0xFFFFFF) ∧
    record State.reset 0x30C00000 0x20000 = some (1, 0x30C00000, 0x20000, 0x105) := by decide

/-- The vectors of CW_LONG. -/
theorem test_cwLong :
    answer State.reset 0x31000000 0x1000 = some (0, 0x1000) ∧
    answer State.reset 0x31000000 0x100000 = some (1, 0) := by decide

theorem test_cwCount :
    answer State.reset 0x32000000 0xC40123 = some (0, 12) ∧ answer State.reset 0x32000000 0xABC40123 = some (0, 12) := by
  decide

theorem test_cwType :
    answer State.reset 0x33000000 0xC40123 = some (0, 2) ∧ answer State.reset 0x33000000 0x000FFFFF = some (0, 7) := by
  decide

theorem test_cwParam : answer State.reset 0x34000000 0xC40123 = some (0, 0x123) := by decide

theorem test_cwLongoff : answer State.reset 0x35000000 0xC40123 = some (0, 0x40123) := by decide

theorem test_cwIslong :
    answer State.reset 0x36000000 0x1000 = some (0, 1) ∧ answer State.reset 0x36000000 0xC40123 = some (0, 0) ∧
    answer State.reset 0x36000000 0xFF000000 = some (0, 1) := by decide

theorem test_cwPacked :
    answer State.reset 0x37000002 0xC40123 = some (0, 0x02C40123) ∧
    answer State.reset 0x370000FF 0xFFC40123 = some (0, 0xFFC40123) ∧
    record State.reset 0x37000000 0xC40123 = some (1, 0x37000000, 0, 0x105) := by decide

/-- S11, S12. -/
theorem test_dictPack :
    (after (withDict State.reset [0xC40123, 0xC00001]) 0x38000000 0).map (fun t => (t.ser, t.dout)) =
      some (bytes [6, 0, 0, 0, 0x23, 1, 0xC4, 1, 1, 0, 0xC0, 1], 12) ∧
    (after (withDict State.reset [0xC40123, 0xC40123]) 0x38000000 0).map (·.ser) =
      some (bytes [3, 0, 0, 0, 0x23, 1, 0xC4, 2]) := by decide

/-- UP4, UP5: a run of zero words, and bytes after the serialization. -/
theorem test_dictUnpack :
    record (withSer [3, 0, 0, 0, 0x23, 1, 0xC4, 0]) 0x39000000 0 = some (12, 4, 0xC40123, 0xC04) ∧
    (after (withSer [3, 0, 0, 0, 0x23, 1, 0xC4, 2, 0xFF]) 0x39000000 0).map (fun t => (t.dict, t.dictLen)) =
      some (words [0xC40123, 0xC40123], 2) := by decide

/-- 44_sequencer.md R143: the tables go, DICT stays; refused while a frame is open. -/
theorem test_seqClear :
    (after built 0x40000000 0).map (fun t => (t.opt, t.paths)) = some ([], []) ∧
    (after built 0x40000000 0).map (fun t => (t.phase, t.seqIb, t.dict)) = some (.accumulate, 0, words builtWords) ∧
    answer inFrame 0x40000000 0 = some (1, 0) := by decide

/-- SEQ17, and a second use of an op (S15). -/
theorem test_seqAdd :
    record State.reset 0x41000001 0x20000 = some (3, 0x20000, 0x1FFFF, 0x304) ∧
    (after withOps 0x41000005 0).map (fun t => (Table.find t.opt ⟨.skip, 0⟩, t.dout, t.opt.length)) =
      some (some 6, 6, 5) := by decide

/-- S14: the rank order of the dictionary's words. -/
theorem test_seqBuild :
    (after withOps 0x42000000 0).map (fun t => (t.dict, t.dictLen, t.phase)) = some (words builtWords, 5, .built) ∧
    (after withOps 0x42000000 0).map (fun t => (t.seqDirect, t.seqBlocks, t.seqIb)) = some (5, 0, 12) := by decide

/-- SEQ10: with one direct slot at INDEX_BITS 1, an op more than the 17 that fit. -/
theorem test_seqBuild_overflow :
    record { State.reset with
      indexBits := 1, directLimit := 1
      opt := (List.range 18).map fun p => (⟨.m2, BitVec.ofNat 17 p⟩, 1) } 0x42000000 0 =
    some (4, 18, 17, 0x404) := by decide

/-- SEQ3, SEQ14. -/
theorem test_seqPath :
    answer built 0x43000002 0x10 = some (0, 3) ∧ answer withOps 0x43000001 8 = some (1, 0) := by decide

/-- 44_sequencer.md R152, first half: the writer is emptied. -/
theorem test_seqFrameBegin :
    (after { built with bw := bytes [0xFF], bwBits := 8 } 0x44000000 0).map (fun t => (t.encOpen, t.bwBits)) =
      some (true, 0) ∧
    answer inFrame 0x44000000 0 = some (1, 0) := by decide

/-- SEQ4's fourth command: two pending skips, then the path of (M2, 8). -/
theorem test_seqEmit :
    (after { inFrame with encPend := 2, encCol := 2 } 0x45000001 8).map (fun t => (t.bw, t.dout, t.encPend, t.encCol)) =
      some (bytes [0, 1, 0, 8], 29, 0, 3) ∧
    record inFrame 0x45000001 9 = some (7, 1, 9, 0x71C) := by decide

/-- SEQ6's third skip, which reaches the row end: one marker with L = 31. -/
theorem test_seqEmit_row_end :
    (after { inFrame with hTiles := 3, encPend := 2, encCol := 2 } 0x45000005 0).map
      (fun t => (t.bw, t.dout, t.encPend, t.encCol)) = some (bytes [0, 0xF, 0x80], 17, 0, 0) := by decide

/-- The pending skip of SEQ4's last command: a marker with L = 1 from bit 46 on, the frame closed. -/
theorem test_seqFrameEnd :
    (after { inFrame with bw := bytes [0, 1, 0, 8, 0, 0x7C], bwBits := 46, encPend := 1, encCol := 1 } 0x46000000 0).map
      (fun t => (t.bw, t.dout, t.encOpen, t.encPend)) =
    some (bytes [0, 1, 0, 8, 0, 0x7C, 0, 2], 63, false, 0) := by decide

/-- RES3, S18: two hops; a word that points at itself. -/
theorem test_cwResolve :
    (after (withDict (withBr [0, 0, 0x10]) [1, 3, 0, 0, 0x440077]) 0x48000000 0).map (fun t => (t.dout, t.brPos)) =
      some (0x0000000200440077, 20) ∧
    record (withDict (withBr [0, 0]) [0]) 0x48000000 0 = some (9, 0, 100, 0x902) := by decide +kernel

/-- RES1's first command, S17. -/
theorem test_streamNext :
    (after (withDict (withBr [0, 1, 0, 8, 0, 0x7C, 0, 0x3E]) builtWords) 0x49000000 0).map
      (fun t => (t.dout, t.brPos)) = some (0x0000000200CA0000, 17) ∧
    record (withDict (withBr [0, 0x50]) builtWords) 0x49000000 0 = some (8, 5, 5, 0x802) := by decide

/-! ## The host's notation (30_encoding.md R85, R86) -/

theorem test_assembler :
    assembleLine "MEM_WR DICT[0x10], 0xC40123 ; a word".toList = some [.memWr .dict 0x10 0xC40123] ∧
    assembleLine "BR_ADVANCE -1".toList = some [.brAdvance (-1)] ∧
    assembleLine "CW_OF 12, M4, 0x123".toList = some [.cwOf 12 .m4 0x123] ∧
    assembleLine "MEM_WR BR[0], 256".toList = none := by decide +kernel

/-- Both columns of names of R90 (log entry 22). -/
theorem test_assembler_type_names :
    assembleLine "SEQ_ADD COLOR2_MASKED, 0x10".toList = some [.seqAdd .m2 0x10] ∧
    assembleLine "SEQ_ADD M2, 0x10".toList = some [.seqAdd .m2 0x10] ∧
    assembleLine "MASK_WIDTH 3".toList = some [.maskWidth .m8] := by decide +kernel

/-- A line without its comma, and a reserved register number (log entries 24 and 25). -/
theorem test_assembler_open_points :
    assembleLine "BW_WRITE 12 0xABC".toList = assembleLine "BW_WRITE 12, 0xABC".toList ∧
    assembleLine "REG_RD 0x1C".toList = some [.regRd .seqIb] ∧ assembleLine "REG_RD 0x1D".toList = none := by
  decide +kernel

/-- BR_CONSUME inside and outside format W8 (log entry 23). -/
theorem test_assembler_br_consume :
    assembleLine "BR_CONSUME 127".toList = some [.brRead 127, .brAdvance 127] ∧
    assembleLine "BR_CONSUME 128".toList = none ∧ assembleLine "BR_CONSUME -129".toList = none := by decide +kernel

/-- S1's loader: the bytes, then the length. -/
theorem test_pseudo_command :
    (PseudoCommand.brLoad [0xAB, 0xC0]).expand = [.memWr .br 0 0xAB, .memWr .br 1 0xC0, .regWr .brLen 2] := by decide

/-! ## Witnesses: for each statement with hypotheses, states and operands that meet them, clause by clause -/

/-- The state a command leads to. -/
def nextOf (o : Host.Outcome State Fault Refusal) : State :=
  match o with
  | .next t => t
  | .fault _ => State.reset
  | .refused _ => State.reset

/-- Small capacities, so that full spaces are small. -/
def smallCaps : Config.Capacities where
  br := ⟨8, by decide, by decide⟩
  bw := ⟨6, by decide, by decide⟩
  mr := ⟨8, by decide, by decide⟩
  mw := ⟨8, by decide, by decide⟩
  dict := ⟨3, by decide, by decide⟩
  ser := ⟨12, by decide, by decide⟩
  optab := ⟨2, by decide, by decide⟩

/-- Reset with small capacities. -/
def small : State := { State.reset with caps := smallCaps }

/-- A block that has pending commands. -/
def issued (s : State) (cmd : Word) (din : DWord) : State := s.issue ⟨cmd, din⟩

theorem witness_DecodeInvertsEncode :
    (Instr.bwWrite (-128) 0).wf = true ∧ (Instr.mrRead 127).wf = true ∧ (Instr.brAdvance (-8388608)).wf = true ∧
    (Instr.brAdvance 8388607).wf = true ∧ (Instr.memWr .br 0 255).wf = true ∧ Instr.streamNext.wf = true := by decide

theorem witness_AcceptedWordIsItsEncoding :
    decode ⟨0x100000FF, 0xFFFFFFFFFFFFFFFF⟩ = .ok (.bwWrite (-1) 0xFFFFFFFF) := by decide

theorem witness_StepRunsDecodedCommand :
    (issued State.reset 0x01000004 0).pending = ⟨0x01000004, 0⟩ :: [] ∧
    decode ⟨0x01000004, 0⟩ = .ok (.regRd .indexBits) ∧ State.reset.pending = [] := by decide

theorem witness_ReservedOpcodeRaisesIllegalCmd :
    State.reset.fault = false ∧
    (∀ o ∈ [0x06, 0x0F, 0x12, 0x17, 0x1B, 0x1F, 0x22, 0x27, 0x2A, 0x2F, 0x3A, 0x3F, 0x47, 0x4A, 0xFF],
      ReservedOpcode o) ∧
    ReservedOpcode ((0x06000000 : Word).toNat / 2 ^ 24) := by
  simp only [ReservedOpcode]; decide

theorem witness_ReservedOperandRaisesIllegalCmd :
    State.reset.fault = false ∧ (halted.fault = true ∧ (0x0100001D : Word).toNat / 2 ^ 24 = 0x01) ∧
    (∀ e ∈ [(0x00, 1), (0x49, 0xFFFFFF), (0x01, 0x1D), (0x01, 0x100), (0x02, 0xFF), (0x03, 0x600000),
        (0x04, 0xF00000), (0x10, 0x100), (0x37, 0x100), (0x29, 8), (0x45, 8), (0x30, 1)],
      ReservedOperand e.1 e.2) := by
  simp only [ReservedOperand, bareOpcodes]; decide

theorem witness_UnusedDinBitsAreIgnored :
    (0x19FFFFFF : Word).toNat / 2 ^ 24 ∈ dinlessOpcodes ∧
    ((0x10000020 : Word).toNat / 2 ^ 24 ≠ 0x20 ∧
      (0x100000005 : DWord).toNat % 2 ^ 32 = (0x5 : DWord).toNat % 2 ^ 32) ∧
    ((0x04000000 : Word).toNat / 2 ^ 24 = 0x04 ∧ (0x04000000 : Word).toNat / 2 ^ 20 % 2 ^ 4 ≠ 4 ∧
      (0x1A5 : DWord).toNat % 2 ^ 8 = (0xA5 : DWord).toNat % 2 ^ 8) := by decide

/-- A CONTRACT, and a corrupt stream (RES12). -/
theorem witness_FailedCommandHasOnlyErrorEffects :
    (commandStep ⟨0x02000004, 16⟩ State.reset = .next (nextOf (commandStep ⟨0x02000004, 16⟩ State.reset)) ∧
      (nextOf (commandStep ⟨0x02000004, 16⟩ State.reset)).resp ≠ .ok) ∧
    (commandStep ⟨0x48000000, 0⟩ State.reset = .next (nextOf (commandStep ⟨0x48000000, 0⟩ State.reset)) ∧
      (nextOf (commandStep ⟨0x48000000, 0⟩ State.reset)).resp = .indexRange) :=
  ⟨⟨rfl, by decide⟩, rfl, by decide⟩

theorem witness_FaultHaltsUntilReset :
    halted.fault = true ∧ (0x47FFFFFF : Word).toNat / 2 ^ 24 ≠ 0x01 ∧ (0x47FFFFFF : Word).toNat / 2 ^ 24 ≠ 0x05 ∧
    commandStep ⟨0x05000000, 0⟩ halted = .next (nextOf (commandStep ⟨0x05000000, 0⟩ halted)) ∧
    (nextOf (commandStep ⟨0x05000000, 0⟩ halted)).fault = false ∧
    Instr.nop ≠ .softReset ∧ (∀ r, Instr.nop ≠ .regRd r) :=
  ⟨rfl, by decide, by decide, rfl, rfl, by decide, fun _ h => by cases h⟩

/-- A success, a REG_WR to STATUS, an error that halts, and one that does not. -/
theorem witness_ErrorRecordIsKept :
    (exec .nop State.reset = .next State.reset ∧ State.reset.resp = .ok) ∧
    (nextOf (exec (.regWr .status 5) State.reset)).resp = .ok ∧
    (nextOf (exec (.bwWrite 33 0) State.reset)).resp = .contract ∧
    (nextOf (exec (.seqAdd .s2 0x20000) State.reset)).resp = .paramRange :=
  ⟨⟨rfl, rfl⟩, rfl, rfl, rfl⟩

/-- A stream that stops, one that has stopped, and one that starts again. -/
theorem witness_StreamStopLifecycle :
    State.reset.streamStop = false ∧ (nextOf (exec .cwResolve State.reset)).resp = .indexRange ∧
    (nextOf (exec .cwResolve (withDict (withBr [0]) [0]))).resp = .hopLimit ∧
    (nextOf (exec .streamNext (withDict (withBr [0, 0]) [0xCE0003]))).resp = .unknownType ∧
    (nextOf (exec .cwResolve State.reset)).streamStop = true ∧
    (nextOf (exec (.regWr .brLen 0) { State.reset with streamStop := true })).streamStop = false := by decide +kernel

/-- Every column of the statement has a command that changes it. -/
theorem witness_StateChangesOnlyByItsCommands :
    (nextOf (exec (.memWr .br 0 1) State.reset)).br ≠ [] ∧ (nextOf (exec (.bwWrite 8 1) State.reset)).bw ≠ [] ∧
    (nextOf (exec (.memWr .mr 0 1) State.reset)).mr ≠ [] ∧ (nextOf (exec (.mwWrite 1 1) State.reset)).mw ≠ [] ∧
    (nextOf (exec (.memWr .dict 0 1) State.reset)).dict ≠ [] ∧ (nextOf (exec .dictPack State.reset)).ser ≠ [] ∧
    (nextOf (exec (.brAdvance 1) State.reset)).brPos ≠ 0 ∧ (nextOf (exec (.mrRead 1) State.reset)).mrPos ≠ 0 := by
  decide

theorem witness_ControlWordCommandsReadNoState :
    0x30 ≤ (Instr.cwOf 1 .m2 0).opcode.toNat ∧ (Instr.cwPacked 1 0).opcode.toNat ≤ 0x37 ∧
    State.reset.fault = false ∧ built.fault = false := by decide

theorem witness_NopDoesNothing : State.reset.fault = false ∧ inFrame.fault = false := by decide

theorem witness_RegWrConfiguration :
    State.reset.fault = false ∧ 1 ≤ (1 : Word).toNat ∧ (15 : Word).toNat ≤ 15 ∧
    ((0 : Word).toNat < 1 ∧ 15 < (16 : Word).toNat) ∧ (32768 : Word).toNat ≤ 32768 ∧ 32768 < (32769 : Word).toNat ∧
    ((65535 : Word).toNat ≤ 65535 ∧ State.reset.encOpen = false) ∧ 65535 < (65536 : Word).toNat ∧
    (inFrame.fault = false ∧ inFrame.encOpen = true) := by decide

theorem witness_RegWrLengths :
    small.fault = false ∧ (8 : Word).toNat ≤ small.caps.br.units ∧ small.caps.br.units < (9 : Word).toNat ∧
    (8 : Word).toNat ≤ small.caps.mr.units ∧ small.caps.mr.units < (9 : Word).toNat ∧
    (3 : Word).toNat ≤ small.caps.dict.units ∧ small.caps.dict.units < (4 : Word).toNat ∧
    (12 : Word).toNat ≤ small.caps.ser.units ∧ small.caps.ser.units < (13 : Word).toNat := by decide

theorem witness_RegWrStatusAndReadOnly :
    State.reset.fault = false ∧
    (∀ r ∈ [Reg.id, .errA, .errB, .brPos, .mwLen, .hopLimit, .brCap, .optabCap, .seqIb],
      r.num.toNat ∉ [0x01, 0x04, 0x05, 0x06, 0x07, 0x0A, 0x0D, 0x0E]) := by decide

theorem witness_RegWrThenRegRd :
    Reg.directLimit ≠ .status ∧
    exec (.regWr .directLimit 32768) State.reset = .next (nextOf (exec (.regWr .directLimit 32768) State.reset)) ∧
    (nextOf (exec (.regWr .directLimit 32768) State.reset)).resp = .ok := ⟨by decide, rfl, rfl⟩

/-- The capacity, the last address below it, the last address below the length, the last word of DICT, and a unit below
the length that nothing has written. -/
theorem witness_MemRdReadsWindow :
    small.fault = false ∧ small.capacity .br ≤ (8 : BitVec 20).toNat ∧
    ((7 : BitVec 20).toNat < small.capacity .br ∧ small.length .br ≤ (7 : BitVec 20).toNat) ∧
    ((0 : BitVec 20).toNat < (withBr [0xA1]).capacity .br ∧ (0 : BitVec 20).toNat < (withBr [0xA1]).length .br ∧
      (withBr [0xA1]).unitAt .br 0 = some 0xA1) ∧
    (built.length .dict = 5 ∧ built.unitAt .dict 4 = some 0xC00201) ∧
    ((1 : BitVec 20).toNat < { withBr [0xA1] with brLen := 2 }.length .br ∧
      { withBr [0xA1] with brLen := 2 }.unitAt .br (1 : BitVec 20).toNat = none) := by decide

theorem witness_MemWrStoresOneUnit :
    small.fault = false ∧ (Space.ser ≠ .bw ∧ Space.ser ≠ .mw ∧ (11 : BitVec 20).toNat < small.capacity .ser) ∧
    small.capacity .ser ≤ (12 : BitVec 20).toNat ∧ (2 : BitVec 20).toNat < small.capacity .dict ∧
    small.capacity .dict ≤ (3 : BitVec 20).toNat := by decide

/-- A writer in the middle of a byte, with exactly room for a field. -/
def midByte : State := { small with bw := bytes [0xAB, 0xC0], bwBits := 12 }

theorem witness_BwWriteAppendsField :
    midByte.fault = false ∧ (32 ≤ 32 ∧ 0 ≤ 32) ∧ midByte.BitWriterLegal ∧ midByte.RoomFor 32 ∧ midByte.RoomFor 0 ∧
    { midByte with bwBits := 16 }.BitWriterLegal ∧ { midByte with bwBits := 16 }.RoomFor 32 := by
  simp only [State.BitWriterLegal, State.RoomFor]; decide

theorem witness_BwWriteRefusals :
    midByte.fault = false ∧
    (∀ n ∈ [(-128 : Int), -1, 33, 127], -128 ≤ n ∧ n ≤ 127 ∧ (n < 0 ∨ 32 < n)) ∧
    ¬ { midByte with bwBits := 17 }.RoomFor (32 : Int).toNat ∧ ¬ { midByte with bwBits := 48 }.RoomFor (1 : Int).toNat := by
  simp only [State.RoomFor]; decide

theorem witness_BrReadPeeksField :
    (withBr [0xAB, 0xCD]).fault = false ∧ (withBr [0xAB, 0xCD]).ReaderLoaded ∧ State.reset.ReaderLoaded ∧
    (∀ n ∈ [(-128 : Int), -1, 33, 127], -128 ≤ n ∧ n ≤ 127 ∧ (n < 0 ∨ 32 < n)) := by
  simp only [State.ReaderLoaded]; decide

theorem witness_BrAdvanceMovesCursor :
    State.reset.fault = false ∧
    (0 ≤ (8388607 : Int) ∧ (8388607 : Int) < 2 ^ 23 ∧ State.reset.brPos.toNat + (8388607 : Int).toNat < 2 ^ 32) ∧
    (-(2 ^ 23) ≤ (-1 : Int) ∧ (-1 : Int) < 0) ∧
    2 ^ 32 ≤ { State.reset with brPos := 0xFFFFFFFF }.brPos.toNat + (1 : Int).toNat ∧
    { State.reset with brPos := 0xFFFFFFFE }.brPos.toNat + (1 : Int).toNat < 2 ^ 32 := by decide

theorem witness_BwClearAndBrExhausted : midByte.fault = false ∧ State.reset.fault = false := by decide

/-- Three fields, one of them empty, that fill BW. -/
def someFields : List (Word × Nat) := [(0xFABC, 12), (0xFF, 0), (0xFFFFFFFF, 32), (0xA, 4)]

/-- small after the fields are written. -/
def wrote : State := nextOf (runCommands (someFields.map fun f => Instr.bwWrite f.2 f.1) small)

/-- A reader loaded with what small wrote, at the third field. -/
def readBack : State := { small with br := wrote.bw, brLen := 6, brPos := 12 }

theorem witness_BitFieldsRoundTrip :
    (small.fault = false ∧ small.bwBits = 0 ∧ (∀ f ∈ someFields, f.2 ≤ 32) ∧
      small.RoomFor (someFields.map Prod.snd).sum) ∧
    runCommands (someFields.map fun f => Instr.bwWrite f.2 f.1) small = .next wrote ∧
    someFields = [(0xFABC, 12), (0xFF, 0)] ++ (0xFFFFFFFF, 32) :: [(0xA, 4)] ∧
    readBack.fault = false ∧ readBack.brLen.toNat = bytesFor wrote.bwBits.toNat ∧
    (∀ a < bytesFor wrote.bwBits.toNat, Memory.read readBack.br a = Memory.read wrote.bw a) ∧
    readBack.brPos.toNat = (([(0xFABC, 12), (0xFF, 0)] : List (Word × Nat)).map Prod.snd).sum :=
  ⟨by simp only [State.RoomFor]; decide, rfl, by decide, rfl, by decide +kernel, fun _ _ => rfl, by decide⟩

/-- Eight bytes fill MW; then one more does not fit. -/
theorem witness_MwWriteAppendsBytes :
    small.fault = false ∧ (8 ≤ 8 ∧ small.mwLen.toNat + 8 ≤ small.caps.mw.units) ∧
    (∀ k ∈ [(-128 : Int), -1, 9, 127], -128 ≤ k ∧ k ≤ 127 ∧ (k < 0 ∨ 8 < k)) ∧
    small.caps.mw.units < { small with mwLen := 8 }.mwLen.toNat + 1 := by decide

theorem witness_MwClearAndMaskWidth : { small with mwLen := 8 }.fault = false := rfl

theorem witness_MrReadConsumesBytes :
    (withMr [0x34, 0x12]).fault = false ∧ (withMr [0x34, 0x12]).MaskLoaded ∧
    (8 ≤ 8 ∧ { withMr [0x34] with mrPos := 0xFFFFFFF7 }.mrPos.toNat + 8 < 2 ^ 32) ∧
    2 ^ 32 ≤ { withMr [0x34] with mrPos := 0xFFFFFFF8 }.mrPos.toNat + (8 : Int).toNat ∧
    (∀ k ∈ [(-128 : Int), -1, 9, 127], -128 ≤ k ∧ k ≤ 127 ∧ (k < 0 ∨ 8 < k)) := by
  simp only [State.MaskLoaded]; decide

/-- A mask reader loaded with what small wrote. -/
def maskBack : State := { small with mr := (nextOf (exec (.mwWrite 8 0x0123456789ABCDEF) small)).mw, mrLen := 8 }

theorem witness_MaskValueRoundTrip :
    small.fault = false ∧ small.mwLen = 0 ∧ 8 ≤ 8 ∧ 8 ≤ small.caps.mw.units ∧ maskBack.fault = false ∧
    maskBack.mrPos = 0 ∧ maskBack.mrLen.toNat = 8 ∧
    (∀ a < 8, Memory.read maskBack.mr a =
      Memory.read (nextOf (exec (.mwWrite 8 0x0123456789ABCDEF) small)).mw a) := by decide

theorem witness_CwConstructors :
    State.reset.fault = false ∧ (0x1FFFF : Word).toNat < 2 ^ 17 ∧ 2 ^ 17 ≤ (0x20000 : Word).toNat ∧
    (0xFFFFF : Word).toNat < 2 ^ 20 ∧ 2 ^ 20 ≤ (0x100000 : Word).toNat ∧ (1 : Byte) ≠ 0 ∧ (255 : Byte) ≠ 0 := by decide

theorem witness_CwAccessors : State.reset.fault = false := rfl

/-- 256 equal words: a full run followed by a run of the same word. -/
theorem witness_RunsAreMaximalGroups :
    runs (List.replicate 256 (0xC40123 : Word)) = [] ++ (0xC40123, 255) :: (0xC40123, 1) :: [] := by decide +kernel

theorem witness_DictPackWritesSerialization :
    (withDict small [1, 2, 2]).fault = false ∧ ([1, 2, 2] : List Word).length = (withDict small [1, 2, 2]).dictLen.toNat ∧
    (∀ k (h : k < ([1, 2, 2] : List Word).length),
      Memory.read (withDict small [1, 2, 2]).dict k = some ([1, 2, 2] : List Word)[k]) ∧
    4 + 4 * (runs ([1, 2, 2] : List Word)).length ≤ (withDict small [1, 2, 2]).caps.ser.units ∧
    (∀ k (h : k < ([1, 2, 3] : List Word).length),
      Memory.read (withDict small [1, 2, 3]).dict k = some ([1, 2, 3] : List Word)[k]) ∧
    (withDict small [1, 2, 3]).caps.ser.units < 4 + 4 * (runs ([1, 2, 3] : List Word)).length := by decide

/-- One packed word of a count, and a byte after it. -/
def serialized (times : Byte) : State :=
  { withSer [3, 0, 0, 0, 0x23, 1, 0xC4, times, 0xFF] with caps := smallCaps }

theorem witness_DictUnpackReadsSerialization :
    (serialized 3).fault = false ∧ SerHolds (serialized 3) 0 (3 * 1) ∧
    (SerHolds (serialized 3) 4 (0x03C40123 : Word).toNat ∧ 2 ^ 24 ≤ (0x03C40123 : Word).toNat) ∧
    4 + 4 * 1 ≤ (serialized 3).serLen.toNat ∧ 3 ≤ (serialized 3).caps.dict.units ∧
    (SerHolds (serialized 4) 4 (0x04C40123 : Word).toNat ∧ (serialized 4).caps.dict.units < 4) := by
  simp only [SerHolds]; decide

theorem witness_MalformedSerializationIsReported :
    (withSer [3, 0, 0]).fault = false ∧ (withSer [3, 0, 0]).serLen.toNat < 4 ∧
    (4 ≤ (withSer [1, 0, 0, 0]).serLen.toNat ∧ SerHolds (withSer [1, 0, 0, 0]) 0 1 ∧ 1 % 3 ≠ 0) ∧
    (SerHolds (withSer [3, 0, 0, 0, 1, 1, 1]) 0 3 ∧ (withSer [3, 0, 0, 0, 1, 1, 1]).serLen.toNat < 4 + 4 * (3 / 3)) ∧
    (SerHolds (withSer [6, 0, 0, 0, 1, 0, 0, 1, 1, 0, 0, 0]) 0 (3 * 2) ∧
      4 + 4 * 2 ≤ (withSer [6, 0, 0, 0, 1, 0, 0, 1, 1, 0, 0, 0]).serLen.toNat ∧
      SerHolds (withSer [6, 0, 0, 0, 1, 0, 0, 1, 1, 0, 0, 0]) (4 + 4 * 0) (2 ^ 24 + 1) ∧
      SerHolds (withSer [6, 0, 0, 0, 1, 0, 0, 1, 1, 0, 0, 0]) (4 + 4 * 1) 1) := by
  simp only [SerHolds]; decide

theorem witness_PackThenUnpackRestoresDictionary :
    (withDict small [0xFFC40123, 2, 2]).fault = false ∧ (withDict small [0xFFC40123, 2, 2]).LengthsInRange ∧
    ([0xFFC40123, 2, 2] : List Word).length = (withDict small [0xFFC40123, 2, 2]).dictLen.toNat ∧
    (∀ k (h : k < ([0xFFC40123, 2, 2] : List Word).length),
      Memory.read (withDict small [0xFFC40123, 2, 2]).dict k = some ([0xFFC40123, 2, 2] : List Word)[k]) ∧
    4 + 4 * (runs ([0xFFC40123, 2, 2] : List Word)).length ≤ (withDict small [0xFFC40123, 2, 2]).caps.ser.units :=
  ⟨by decide, fun sp => by cases sp <;> decide, by decide, by decide, by decide⟩

/-- Two ops of use 2 and 1, one direct slot: the second op is extended. -/
def accumulated : State :=
  { small with indexBits := 4, directLimit := 1, opt := [(⟨.skip, 0⟩, 2), (⟨.m2, 8⟩, 1)] }

/-- accumulated after SEQ_BUILD. -/
def laidOut : State := nextOf (exec .seqBuild accumulated)

/-- Each sequencer command in a phase that refuses it, and in one that allows it. -/
theorem witness_PhasesAllowTheirCommands :
    (0x40 ≤ Instr.seqClear.opcode.toNat ∧ Instr.seqFrameEnd.opcode.toNat ≤ 0x46) ∧ inFrame.fault = false ∧
    (RefusedInPhase inFrame .seqClear ∧ RefusedInPhase inFrame .seqBuild ∧ RefusedInPhase inFrame (.seqAdd .m2 8) ∧
      RefusedInPhase inFrame .seqFrameBegin ∧ RefusedInPhase withOps (.seqPath .m2 8) ∧
      RefusedInPhase built (.seqEmit .m2 8) ∧ RefusedInPhase built .seqFrameEnd) ∧
    (nextOf (exec .seqBuild inFrame)).resp = .contract ∧
    ((inFrame.encOpen = true → inFrame.phase = .built) ∧ (nextOf (step inFrame)).encOpen = true) ∧
    (nextOf (exec .seqClear built)).resp = .ok := by
  simp only [RefusedInPhase]; decide

theorem witness_SeqClearEmptiesSequencer : built.fault = false ∧ built.encOpen = false := by decide

/-- A full table, a frequency of 2^32 − 1 and one below it, a new op beside one other. -/
theorem witness_SeqAddCountsUse :
    accumulated.fault = false ∧ accumulated.phase = .accumulate ∧ 2 ^ 17 ≤ (0x20000 : Word).toNat ∧
    ((0x1FFFF : Word).toNat < 2 ^ 17 ∧ Table.find accumulated.opt ⟨.s2, 0x1FFFF⟩ = none ∧
      accumulated.opt.length = accumulated.caps.optab.ops) ∧
    Table.find { accumulated with opt := [(⟨.skip, 0⟩, 0xFFFFFFFF)] }.opt ⟨.skip, 0⟩ = some 0xFFFFFFFF ∧
    (Table.wf ([(⟨.skip, 0⟩, 0xFFFFFFFE)] : List (Op × Word)) ∧
      ((Table.find ([(⟨.skip, 0⟩, 0xFFFFFFFE)] : List (Op × Word)) ⟨.skip, 0⟩).getD 0).toNat < 2 ^ 32 - 1) ∧
    (Table.wf accumulated.opt ∧ Table.find accumulated.opt ⟨.m2, 8⟩ = some 1) ∧
    { accumulated with opt := [(⟨.skip, 0⟩, 2)] }.opt.length ≠ accumulated.caps.optab.ops := by decide

theorem witness_RankOrderSortsByUse : (withOps.opt.map Prod.fst).Nodup := by decide

/-- 18 ops where 17 fit; four direct words where DICT holds three; two ops and a pointer, which DICT holds exactly. -/
theorem witness_SeqBuildCapacity :
    small.fault = false ∧ small.encOpen = false ∧
    (BuildDirect { small with indexBits := 1, directLimit := 1 } = 1 ∧ 1 + 16 * (2 ^ 1 - 1) < 18 ∧
      { small with opt := (List.range 18).map fun p => (⟨.m2, BitVec.ofNat 17 p⟩, 1) }.opt.length = 18) ∧
    (BuildDirect small = 4096 ∧ 4 ≤ 4096 + 16 * (2 ^ small.indexBits.toNat - 4096) ∧
      small.caps.dict.units < 4 + (4 - 4096 + 15) / 16) := by
  simp only [BuildDirect]; decide +kernel

theorem witness_SeqBuildLaysOutDictionary :
    accumulated.fault = false ∧ accumulated.encOpen = false ∧ Table.wf accumulated.opt ∧ 2 = accumulated.opt.length ∧
    1 = BuildDirect accumulated ∧ 1 = min 2 1 ∧ 1 = (2 - 1 + 15) / 16 ∧
    [⟨.skip, 0⟩, ⟨.m2, 8⟩] = (rankOrder accumulated.opt).map Prod.fst ∧
    2 ≤ 1 + 16 * (2 ^ accumulated.indexBits.toNat - 1) ∧ 2 + 1 ≤ accumulated.caps.dict.units := by
  simp only [BuildDirect]; decide

theorem witness_SeqPathReturnsPath :
    laidOut.fault = false ∧ laidOut.phase = .built ∧
    ((0 : Word).toNat < 2 ^ 17 ∧ Table.find laidOut.paths ⟨.skip, BitVec.ofNat 17 (0 : Word).toNat⟩ = some (.direct 0 4)) ∧
    Table.find laidOut.paths ⟨.m2, BitVec.ofNat 17 (8 : Word).toNat⟩ = some (.extended 1 4 0) ∧
    2 ^ 17 ≤ (0x20000 : Word).toNat ∧ Table.find laidOut.paths ⟨.s2, BitVec.ofNat 17 (0x1FFFF : Word).toNat⟩ = none := by
  decide

/-- Shared facts about the tables of accumulated. -/
theorem legal_accumulated : accumulated.Legal where
  memories := by simp only [State.MemoriesCanonical]; decide
  units := by simp only [State.UnitsInRange]; decide
  lengths := fun sp => by cases sp <;> decide
  config := by simp only [State.ConfigLegal]; decide
  bitWriter := by simp only [State.BitWriterLegal]; decide
  maskWriter := by simp only [State.MaskWriterLegal]; decide
  sequencer := by simp only [State.SequencerLegal]; exact ⟨by decide, by decide, by decide, fun h => by cases h⟩
  encoder := by simp only [State.EncoderLegal]; decide
  errors := by simp only [State.ErrorsLegal]; decide

/-- A reader over laidOut's dictionary, whose stream is the paths 0000 and 0001 0000 at the end of BR. -/
def reader (pos : Nat) : State :=
  { laidOut with br := bytes [0x01, 0x00], brLen := 2, brPos := BitVec.ofNat 32 pos }

/-- A direct path at bit 0 and an extended path at bit 4. -/
theorem witness_BuiltPathResolvesToItsOp :
    accumulated.Legal ∧ exec .seqBuild accumulated = .next laidOut ∧ laidOut.resp = .ok ∧
    (Table.find accumulated.opt ⟨.skip, 0⟩ = some 2 ∧ Table.find laidOut.paths ⟨.skip, 0⟩ = some (.direct 0 4)) ∧
    (Table.find accumulated.opt ⟨.m2, 8⟩ = some 1 ∧ Table.find laidOut.paths ⟨.m2, 8⟩ = some (.extended 1 4 0)) ∧
    ((reader 4).fault = false ∧ (reader 4).streamStop = false ∧ (reader 4).ReaderLoaded ∧
      (reader 4).dict = laidOut.dict ∧ (reader 4).dictLen = laidOut.dictLen ∧ (reader 4).indexBits = laidOut.seqIb) ∧
    (∀ k < fieldWidth (Path.direct 0 4).frags,
      streamBit (reader 0) ((reader 0).brPos.toNat + k) = (fieldBits (Path.direct 0 4).frags).getD k false) ∧
    (∀ k < fieldWidth (Path.extended 1 4 0).frags,
      streamBit (reader 4) ((reader 4).brPos.toNat + k) = (fieldBits (Path.extended 1 4 0).frags).getD k false) :=
  ⟨legal_accumulated, rfl, rfl, by decide, by decide, by simp only [State.ReaderLoaded]; decide, by decide, by decide⟩

theorem witness_FrameBeginOpensFrame : built.fault = false ∧ built.phase = .built ∧ built.encOpen = false := by decide

/-- A frame of h tiles a column with p pending skips at column c, the command SEQ_FRAME_END issued. -/
def frame (h : BitVec 16) (p : BitVec 5) (c : BitVec 16) (bits : Word) : State :=
  { laidOut with
    pending := [⟨0x46000000, 0⟩], encOpen := true, hTiles := h, encPend := p, encCol := c
    bw := bytes [0, 0, 0, 0, 0, 0], bwBits := bits }

/-- What does not depend on the encoder's registers is decided at one frame. -/
theorem legal_frame (h : BitVec 16) (p : BitVec 5) (c : BitVec 16) (bits : Word) (hb : bits.toNat ≤ 48)
    (he : (frame h p c bits).EncoderLegal) : (frame h p c bits).Legal where
  memories := (by simp only [State.MemoriesCanonical]; decide : (frame 0 0 0 0).MemoriesCanonical)
  units := (by simp only [State.UnitsInRange]; decide : (frame 0 0 0 0).UnitsInRange)
  lengths := fun sp => by
    have h0 : (frame 0 0 0 0).length sp ≤ (frame 0 0 0 0).capacity sp := by cases sp <;> decide
    cases sp
    case bw => show bytesFor bits.toNat ≤ 6; unfold bytesFor; omega
    all_goals exact h0
  config := (by simp only [State.ConfigLegal]; decide : (frame 0 0 0 0).ConfigLegal)
  bitWriter := by
    have hz : ∀ a < 6, Memory.read (bytes [0, 0, 0, 0, 0, 0]) a = some 0 := by decide
    refine ⟨fun a ha => ?_, fun hm b hr k _ => ?_⟩
    · have ha' : a < bytesFor bits.toNat := ha
      show (Memory.read (bytes [0, 0, 0, 0, 0, 0]) a).isSome
      rw [hz a (by unfold bytesFor at ha'; omega)]; rfl
    · have hm' : bits.toNat % 8 ≠ 0 := hm
      have hr' : Memory.read (bytes [0, 0, 0, 0, 0, 0]) (bits.toNat / 8) = some b := hr
      rw [hz _ (by omega)] at hr'
      cases hr'
      simp
  maskWriter := (by simp only [State.MaskWriterLegal]; decide : (frame 0 0 0 0).MaskWriterLegal)
  sequencer := by
    show (frame 0 0 0 0).SequencerLegal
    refine ⟨by decide, by decide, fun h => absurd h (by decide), fun _ => ⟨by decide, by decide, ?_, by decide⟩⟩
    show ∀ e ∈ [((⟨.skip, 0⟩ : Op), Path.direct 0 4), (⟨.m2, 8⟩, .extended 1 4 0)], e.2.Fits 4
    simp [Path.Fits]
  encoder := he
  errors := (by simp only [State.ErrorsLegal]; decide : (frame 0 0 0 0).ErrorsLegal)

/-- With no skip pending and with one, BW then full to its last bit. -/
theorem witness_FrameEndFlushesAndCloses :
    (frame 0 0 0 48).Legal ∧ (frame 0 0 0 48).encPend = 0 ∧ (frame 0 0 0 48).RoomFor (fieldWidth []) ∧
    (frame 4 1 1 39).Legal ∧ (frame 4 1 1 39).fault = false ∧ (frame 4 1 1 39).encOpen = true ∧
    (frame 4 1 1 39).encPend ≠ 0 ∧
    Table.find (frame 4 1 1 39).paths (frame 4 1 1 39).encSkipop = some (.direct 0 4) ∧
    (frame 4 1 1 39).RoomFor (fieldWidth ((Path.direct 0 4).frags ++ [((frame 4 1 1 39).encPend.toNat, 5)])) :=
  ⟨legal_frame _ _ _ _ (by decide) (by simp only [State.EncoderLegal]; decide), by decide,
    by simp only [State.RoomFor]; decide,
    legal_frame _ _ _ _ (by decide) (by simp only [State.EncoderLegal]; decide), by decide, by decide, by decide,
    by decide, by simp only [State.RoomFor]; decide⟩

/-- With no skip pending and with 29, BW then full to its last bit. -/
theorem witness_EmitWritesPendingThenPath :
    (frame 0 0 0 40).Legal ∧ (frame 0 0 0 40).fault = false ∧ (frame 0 0 0 40).encOpen = true ∧
    (CtrlType.m2 ≠ .skip ∧ (8 : Word).toNat < 2 ^ 17) ∧
    Table.find (frame 0 0 0 40).paths ⟨.m2, BitVec.ofNat 17 (8 : Word).toNat⟩ = some (.extended 1 4 0) ∧
    (frame 0 0 0 40).RoomFor (fieldWidth (Path.extended 1 4 0).frags) ∧
    (frame 40 29 30 31).Legal ∧ (frame 40 29 30 31).encPend ≠ 0 ∧
    Table.find (frame 40 29 30 31).paths (frame 40 29 30 31).encSkipop = some (.direct 0 4) ∧
    (frame 40 29 30 31).RoomFor
      (fieldWidth ((Path.direct 0 4).frags ++ [((frame 40 29 30 31).encPend.toNat, 5)] ++
        (Path.extended 1 4 0).frags)) :=
  ⟨legal_frame _ _ _ _ (by decide) (by simp only [State.EncoderLegal]; decide), by decide, by decide, by decide,
    by decide, by simp only [State.RoomFor]; decide,
    legal_frame _ _ _ _ (by decide) (by simp only [State.EncoderLegal]; decide), by decide, by decide,
    by simp only [State.RoomFor]; decide⟩

/-- The four cases: no tile height, the row end, the 30th skip of a run, the first and the 29th. -/
theorem witness_EmitCoalescesSkips :
    ((frame 0 0 0 39).Legal ∧ (frame 3 2 2 39).Legal ∧ (frame 40 29 30 39).Legal ∧ (frame 40 28 29 48).Legal ∧
      (frame 40 0 0 48).Legal) ∧
    ((frame 3 2 2 39).fault = false ∧ (frame 3 2 2 39).encOpen = true ∧ (0 : Word).toNat < 2 ^ 17 ∧
      Table.find (frame 3 2 2 39).paths ⟨.skip, BitVec.ofNat 17 (0 : Word).toNat⟩ = some (.direct 0 4) ∧
      (frame 3 2 2 39).encSkipop = ⟨.skip, 0⟩) ∧
    (frame 0 0 0 39).hTiles = 0 ∧ (frame 3 2 2 39).encCol.toNat + 1 = (frame 3 2 2 39).hTiles.toNat ∧
    ((frame 40 29 30 39).encCol.toNat + 1 ≠ (frame 40 29 30 39).hTiles.toNat ∧
      (frame 40 29 30 39).encPend.toNat = 29) ∧
    ((frame 40 28 29 48).encCol.toNat + 1 ≠ (frame 40 28 29 48).hTiles.toNat ∧
      (frame 40 28 29 48).encPend.toNat ≠ 29) ∧
    (frame 3 2 2 39).RoomFor (fieldWidth ((Path.direct 0 4).frags ++ [(31, 5)])) ∧
    (frame 40 28 29 48).RoomFor (fieldWidth []) :=
  ⟨⟨legal_frame _ _ _ _ (by decide) (by simp only [State.EncoderLegal]; decide),
      legal_frame _ _ _ _ (by decide) (by simp only [State.EncoderLegal]; decide),
      legal_frame _ _ _ _ (by decide) (by simp only [State.EncoderLegal]; decide),
      legal_frame _ _ _ _ (by decide) (by simp only [State.EncoderLegal]; decide),
      legal_frame _ _ _ _ (by decide) (by simp only [State.EncoderLegal]; decide)⟩,
    by decide, by decide, by decide, by decide, by decide, by simp only [State.RoomFor]; decide,
    by simp only [State.RoomFor]; decide⟩

/-- One bit too few: for a path, for a marker and a path, for the markers of a skip that is alone, ends its row or is the
30th of its run, and for a flush. -/
theorem witness_EncoderRefusals :
    (frame 0 0 0 41).Legal ∧ (frame 4 1 1 32).Legal ∧ (frame 0 0 0 40).Legal ∧ (frame 3 2 2 40).Legal ∧
    (frame 40 29 30 40).Legal ∧ (frame 4 1 1 40).Legal ∧
    ((frame 0 0 0 41).fault = false ∧ (frame 0 0 0 41).encOpen = true) ∧
    (Table.find (frame 0 0 0 41).paths ⟨.m2, BitVec.ofNat 17 (9 : Word).toNat⟩ = none ∧ 2 ^ 17 ≤ (0x20000 : Word).toNat) ∧
    (Table.find (frame 0 0 0 41).paths ⟨.m2, BitVec.ofNat 17 (8 : Word).toNat⟩ = some (.extended 1 4 0) ∧
      (frame 0 0 0 41).encPend = 0 ∧ ¬ (frame 0 0 0 41).RoomFor (fieldWidth (Path.extended 1 4 0).frags)) ∧
    ((frame 4 1 1 32).encPend ≠ 0 ∧ (frame 4 1 1 32).encSkipop = ⟨.skip, 0⟩ ∧
      Table.find (frame 4 1 1 32).paths ⟨.skip, 0⟩ = some (.direct 0 4) ∧
      ¬ (frame 4 1 1 32).RoomFor (fieldWidth (Path.direct 0 4).frags + 5 + fieldWidth (Path.extended 1 4 0).frags)) ∧
    ((frame 0 0 0 40).hTiles = 0 ∧ ¬ (frame 0 0 0 40).RoomFor (fieldWidth (Path.direct 0 4).frags + 5)) ∧
    ((frame 3 2 2 40).encCol.toNat + 1 = (frame 3 2 2 40).hTiles.toNat ∧ (frame 3 2 2 40).encSkipop = ⟨.skip, 0⟩ ∧
      ¬ (frame 3 2 2 40).RoomFor (fieldWidth (Path.direct 0 4).frags + 5)) ∧
    ((frame 40 29 30 40).encPend.toNat = 29 ∧ (frame 40 29 30 40).encSkipop = ⟨.skip, 0⟩ ∧
      ¬ (frame 40 29 30 40).RoomFor (fieldWidth (Path.direct 0 4).frags + 5)) ∧
    ((frame 4 1 1 40).encPend ≠ 0 ∧
      Table.find (frame 4 1 1 40).paths (frame 4 1 1 40).encSkipop = some (.direct 0 4) ∧
      ¬ (frame 4 1 1 40).RoomFor (fieldWidth (Path.direct 0 4).frags + 5)) :=
  ⟨legal_frame _ _ _ _ (by decide) (by simp only [State.EncoderLegal]; decide),
    legal_frame _ _ _ _ (by decide) (by simp only [State.EncoderLegal]; decide),
    legal_frame _ _ _ _ (by decide) (by simp only [State.EncoderLegal]; decide),
    legal_frame _ _ _ _ (by decide) (by simp only [State.EncoderLegal]; decide),
    legal_frame _ _ _ _ (by decide) (by simp only [State.EncoderLegal]; decide),
    legal_frame _ _ _ _ (by decide) (by simp only [State.EncoderLegal]; decide),
    by simp only [State.RoomFor]; decide⟩

/-- An empty stream over a dictionary of 100 pointers, each to the next word, and one more word. -/
def pointers (last : Word) : State :=
  withDict State.reset ((List.range 100).map (fun k => BitVec.ofNat 32 (k + 1)) ++ [last])

theorem streamField_empty (s : State) (hs : s.brLen = 0) (n : Nat) : ∀ pos, streamField s pos n = 0 := by
  induction n with
  | zero => exact fun _ => rfl
  | succ n ih => intro pos; simp [streamField, ih, streamBit, hs]

/-- The chain through the pointers from any of them on. -/
theorem chain_pointers (s : State) (hs : s.brLen = 0)
    (hd : ∀ k < 100, dictAt s k = some (BitVec.ofNat 32 (k + 1))) (h : Nat) :
    ∀ k pos, k + h = 100 → pos + 4 * h ≤ cursorMax → Chain s h pos 4 k (pos + 4 * h) 4 100 := by
  induction h with
  | zero => intro k pos hk _; obtain rfl : k = 100 := by omega
            exact .here pos 4 100
  | succ h ih =>
    intro k pos hk hp
    have hw : (BitVec.ofNat 32 (k + 1)).toNat = k + 1 := by simp; omega
    refine .hop (hd k (by omega)) (by rw [hw]; omega) (by omega) ?_
    rw [streamField_empty s hs, hw, show (k + 1) % 2 ^ 20 + 0 = k + 1 by omega]
    simpa [Nat.mul_add, Nat.add_assoc, Nat.add_comm 4] using ih (k + 1) (pos + 4) (by omega) (by omega)

theorem resolve_pointers (s : State) (hs : s.brLen = 0) (hp : s.brPos = 0) (hi : s.indexBits = 12)
    (hd : ∀ k < 100, dictAt s k = some (BitVec.ofNat 32 (k + 1))) : ResolveChain s 100 408 4 100 := by
  unfold ResolveChain
  rw [hp, hi, streamField_empty s hs]
  refine .hop (hd 0 (by decide)) (by decide) (by decide) ?_
  rw [streamField_empty s hs]
  exact chain_pointers s hs hd 99 1 12 (by decide) (by decide)

theorem resolve_here (s : State) (idx : Nat) (h : streamField s s.brPos.toNat s.indexBits.toNat = idx) :
    ResolveChain s 0 s.brPos.toNat s.indexBits.toNat idx := by
  subst h; exact Chain.here _ _ _

/-- A reader of zeros at a cursor, over one dictionary word. -/
def atCursor (pos : Word) (w : Word) : State := { withDict State.reset [w] with brPos := pos }

theorem resolve_atCursor (pos w : Word) (n : Nat) (hn : pos.toNat = n) : ResolveChain (atCursor pos w) 0 n 12 0 := by
  subst hn
  unfold ResolveChain
  rw [streamField_empty _ rfl]
  exact Chain.here pos.toNat 12 0

/-- 100 pointers (RES4), and a path that ends at the cursor 2^32 − 1. -/
theorem witness_CwResolveFollowsChain :
    ((pointers 0x440055).fault = false ∧ (pointers 0x440055).streamStop = false ∧ (pointers 0x440055).ReaderLoaded ∧
      ResolveChain (pointers 0x440055) 100 408 4 100 ∧ dictAt (pointers 0x440055) 100 = some 0x440055 ∧
      (0x440055 : Word).toNat / 2 ^ 20 % 2 ^ 4 ≠ 0 ∧ 408 + (0x440055 : Word).toNat / 2 ^ 20 % 2 ^ 4 < 2 ^ 32) ∧
    ResolveChain (atCursor 0xFFFFFFF3 0xC00000) 0 4294967283 12 0 ∧
    dictAt (atCursor 0xFFFFFFF3 0xC00000) 0 = some 0xC00000 ∧
    4294967283 + (0xC00000 : Word).toNat / 2 ^ 20 % 2 ^ 4 < 2 ^ 32 :=
  ⟨⟨rfl, rfl, fun a h => absurd h (Nat.not_lt_zero a), resolve_pointers _ rfl rfl rfl (by decide +kernel),
      by decide +kernel, by decide, by decide⟩,
    resolve_atCursor 0xFFFFFFF3 0xC00000 _ (by decide), by decide +kernel, by decide +kernel⟩

/-- An index at DICT_LEN in either command, the 101st pointer (RES5), and cursors at 2^32 after a word's own fragment
and after a pointer's. -/
theorem witness_CorruptPathIsReported :
    (State.reset.fault = false ∧ State.reset.streamStop = false ∧ State.reset.ReaderLoaded ∧
      ResolveChain State.reset 0 0 12 0 ∧ State.reset.dictLen.toNat ≤ 0) ∧
    (let s := withDict (withBr [0, 0x50]) builtWords;
      s.ReaderLoaded ∧ s.brPos.toNat < 8 * s.brLen.toNat ∧ ResolveChain s 0 0 12 5 ∧ s.dictLen.toNat ≤ 5) ∧
    (ResolveChain (pointers 101) 100 408 4 100 ∧ dictAt (pointers 101) 100 = some 101 ∧
      (101 : Word).toNat / 2 ^ 20 % 2 ^ 4 = 0) ∧
    (ResolveChain (atCursor 0xFFFFFFF4 0xC00000) 0 4294967284 12 0 ∧
      dictAt (atCursor 0xFFFFFFF4 0xC00000) 0 = some 0xC00000 ∧
      2 ^ 32 ≤ 4294967284 + (0xC00000 : Word).toNat / 2 ^ 20 % 2 ^ 4) ∧
    (ResolveChain (atCursor 0xFFFFFFF4 7) 0 4294967284 12 0 ∧ dictAt (atCursor 0xFFFFFFF4 7) 0 = some 7 ∧
      (7 : Word).toNat / 2 ^ 20 % 2 ^ 4 = 0 ∧ 2 ^ 32 ≤ 4294967284 + 12) :=
  ⟨⟨rfl, rfl, fun a h => absurd h (Nat.not_lt_zero a), resolve_here _ 0 (by decide +kernel), by decide⟩,
    ⟨by simp only [State.ReaderLoaded]; decide, by decide, resolve_here _ 5 (by decide +kernel), by decide⟩,
    ⟨resolve_pointers _ rfl rfl rfl (by decide +kernel), by decide +kernel, by decide⟩,
    ⟨resolve_atCursor 0xFFFFFFF4 0xC00000 _ (by decide), by decide +kernel, by decide +kernel⟩,
    resolve_atCursor 0xFFFFFFF4 7 _ (by decide), by decide +kernel, by decide +kernel, by decide +kernel⟩

/-- A stream of two zero bytes over a dictionary of one word. -/
def oneWord (w : Word) : State := withDict (withBr [0, 0]) [w]

/-- The end of a stream, and the first element of one whose dictionary has one word: a skip, an unknown type, an op. -/
theorem witness_StreamNextReadsElement :
    8 * (withBr [0, 0]).brLen.toNat ≤ { withBr [0, 0] with brPos := 16 }.brPos.toNat ∧
    (oneWord 0xCA0000).fault = false ∧ (oneWord 0xCA0000).streamStop = false ∧
    (oneWord 0xCA0000).brPos.toNat < 8 * (oneWord 0xCA0000).brLen.toNat ∧ (oneWord 0xCA0000).ReaderLoaded ∧
    (ResolveChain (oneWord 0xCA0000) 0 0 12 0 ∧ ResolveChain (oneWord 0xCE0003) 0 0 12 0 ∧
      ResolveChain (oneWord 0xC20008) 0 0 12 0 ∧ ∀ w : Word, dictAt (oneWord w) 0 = some w) ∧
    ((0xCA0000 : Word).toNat / 2 ^ 20 % 2 ^ 4 = 12 ∧ (0xCA0000 : Word).toNat / 2 ^ 17 % 2 ^ 3 = 5 ∧
      0 + 12 + 5 < 2 ^ 32) ∧
    ((0xCE0003 : Word).toNat / 2 ^ 20 % 2 ^ 4 = 12 ∧ (0xCE0003 : Word).toNat / 2 ^ 17 % 2 ^ 3 = 7) ∧
    ((0xC20008 : Word).toNat / 2 ^ 20 % 2 ^ 4 = 12 ∧ (0xC20008 : Word).toNat / 2 ^ 17 % 2 ^ 3 = 1) :=
  ⟨by decide, rfl, rfl, by decide, by simp only [State.ReaderLoaded]; decide,
    ⟨resolve_here _ 0 (by decide +kernel), resolve_here _ 0 (by decide +kernel), resolve_here _ 0 (by decide +kernel),
      fun _ => rfl⟩, by decide, by decide, by decide⟩

theorem witness_StepKeepsMemoriesCanonical :
    (frame 4 1 1 39).MemoriesCanonical ∧ step (frame 4 1 1 39) = .next (nextOf (step (frame 4 1 1 39))) :=
  ⟨by simp only [State.MemoriesCanonical]; decide, rfl⟩

theorem witness_StepKeepsLegal :
    (frame 4 1 1 39).Legal ∧ step (frame 4 1 1 39) = .next (nextOf (step (frame 4 1 1 39))) ∧
    (nextOf (step (frame 4 1 1 39))).resp = .ok :=
  ⟨legal_frame _ _ _ _ (by decide) (by simp only [State.EncoderLegal]; decide), rfl, by decide⟩

/-- Reset with two units under each length that the host may raise, of which nothing has written the second. -/
def halfWritten : State :=
  { State.reset with
    br := [(0, 0)], brLen := 2, mr := [(0, 1)], mrLen := 2, dict := [(0, 0xC20008)], dictLen := 2
    ser := [(0, 3)], serLen := 4 }

/-- A loaded reader over a dictionary of two words, of which nothing has written the second. -/
def halfDict (stream : List Byte) (w : Word) : State := { withBr stream with dict := [(0, w)], dictLen := 2 }

/-- A loaded block; a peek and a mask read whose last bit or byte is unwritten; an unwritten word selected at once, and
after one pointer; an unwritten word under DICT_PACK, and a byte of the count under DICT_UNPACK. -/
theorem witness_LoadedBlockNeverStops :
    ((frame 4 1 1 39).Legal ∧ (frame 4 1 1 39).Loaded) ∧
    step (issued { State.reset with brLen := 1 } 0x18000001 0) = .fault (.unwrittenUnit .br 0) ∧
    (halfWritten.fault = false ∧ halfWritten.brPos.toNat + 8 < 8 * halfWritten.brLen.toNat ∧
      Memory.read halfWritten.br ((halfWritten.brPos.toNat + 8) / 8) = none) ∧
    (halfWritten.mrPos.toNat + 1 < halfWritten.mrLen.toNat ∧
      Memory.read halfWritten.mr (halfWritten.mrPos.toNat + 1) = none) ∧
    ((halfDict [0, 0x10] 0xC20008).streamStop = false ∧ (halfDict [0, 0x10] 0xC20008).ReaderLoaded ∧
      (halfDict [0, 0x10] 0xC20008).brPos.toNat < 8 * (halfDict [0, 0x10] 0xC20008).brLen.toNat ∧
      1 < (halfDict [0, 0x10] 0xC20008).dictLen.toNat ∧ Memory.read (halfDict [0, 0x10] 0xC20008).dict 1 = none) ∧
    (ResolveChain (halfDict [0, 0x10] 0xC20008) 0 0 12 1 ∧ ResolveChain (halfDict [0, 0] 1) 1 12 4 1) ∧
    (1 < halfWritten.dictLen.toNat ∧ Memory.read halfWritten.dict 1 = none) ∧
    (4 ≤ halfWritten.serLen.toNat ∧ Memory.read halfWritten.ser 3 = none) :=
  ⟨⟨legal_frame _ _ _ _ (by decide) (by simp only [State.EncoderLegal]; decide),
      by simp only [State.Loaded, State.ReaderLoaded, State.MaskLoaded, State.DictLoaded, State.SerLoaded]; decide⟩,
    rfl, by decide, by decide, by simp only [State.ReaderLoaded]; decide,
    ⟨resolve_here _ 1 (by decide +kernel), by
      have h0 : streamField (halfDict [0, 0] 1) 0 12 = 0 := by decide +kernel
      have h1 : streamField (halfDict [0, 0] 1) 12 4 = 0 := by decide +kernel
      show Chain (halfDict [0, 0] 1) 1 0 12 (streamField (halfDict [0, 0] 1) 0 12) 12 4 1
      rw [h0]
      refine .hop (w := 1) (by decide) (by decide) (by decide) ?_
      rw [show 0 + 12 = 12 from rfl, h1]
      exact .here 12 4 1⟩,
    by decide, by decide⟩

end Sys2Proof.Tests
end

namespace Sys2Proof.Machine

open Sys2Proof

/-! # Reserved encodings (30_encoding.md R82, R83)

An accepted command word is the encoding of the instruction it is read as, and no instruction's encoding is reserved:
so no reserved word is accepted, and the block answers it as R87 says. -/

/-! ## The operand bits each format accepts -/

theorem formatBare_ok {f : BitVec 24} {i j : Instr} (h : formatBare f i = .ok j) : f = 0 ∧ i = j := by
  unfold formatBare at h
  split at h
  · next hf => exact ⟨hf, Except.ok.inj h⟩
  · cases h

theorem formatByte_ok {f : BitVec 24} {k : Byte → Except Reject Instr} {j : Instr} (h : formatByte f k = .ok j) :
    ∃ n, f = 0#16 ++ n ∧ k n = .ok j := by
  unfold formatByte at h
  split at h
  · next hf =>
    have hsplit : f.extractLsb' 8 16 ++ f.extractLsb' 0 8 = f := BitVec.extractLsb'_append_extractLsb'
    rw [hf] at hsplit
    exact ⟨_, hsplit.symm, h⟩
  · cases h

theorem formatReg_ok {f : BitVec 24} {k : Reg → Instr} {j : Instr} (h : formatReg f k = .ok j) :
    ∃ r : Reg, f = 0#16 ++ r.num ∧ k r = j := by
  obtain ⟨n, hf, h⟩ := formatByte_ok h
  split at h
  · next r hr => exact ⟨r, by rw [hf, Reg.num_of_ofNum hr], Except.ok.inj h⟩
  · cases h

theorem formatWidth_ok {f : BitVec 24} {k : Int → Instr} {j : Instr} (h : formatWidth f k = .ok j) :
    ∃ n : Int, f = 0#16 ++ BitVec.ofInt 8 n ∧ k n = j := by
  obtain ⟨n, hf, h⟩ := formatByte_ok h
  exact ⟨n.toInt, by rw [hf, BitVec.ofInt_toInt], Except.ok.inj h⟩

theorem formatMem_ok {f : BitVec 24} {k : Space → BitVec 20 → Instr} {j : Instr} (h : formatMem f k = .ok j) :
    ∃ (sp : Space) (a : BitVec 20), f = sp.num ++ a ∧ k sp a = j := by
  unfold formatMem at h
  split at h
  · next sp hsp =>
    have hsplit : f.extractLsb' 20 4 ++ f.extractLsb' 0 20 = f := BitVec.extractLsb'_append_extractLsb'
    rw [← Space.num_of_ofNum hsp] at hsplit
    exact ⟨sp, _, hsplit.symm, Except.ok.inj h⟩
  · cases h

theorem formatType_ok {f : BitVec 24} {k : CtrlType → Instr} {j : Instr} (h : formatType f k = .ok j) :
    ∃ t : CtrlType, f = 0#21 ++ t.code ∧ k t = j := by
  unfold formatType at h
  split at h
  · next hf =>
    have hsplit : f.extractLsb' 3 21 ++ f.extractLsb' 0 3 = f := BitVec.extractLsb'_append_extractLsb'
    rw [hf, ← CtrlType.code_ofCode (f.extractLsb' 0 3)] at hsplit
    exact ⟨_, hsplit.symm, Except.ok.inj h⟩
  · cases h

theorem formatControl_ok {f : BitVec 24} {k : BitVec 4 → CtrlType → Instr} {j : Instr} (h : formatControl f k = .ok j) :
    ∃ (n : BitVec 4) (t : CtrlType), f = n ++ t.code ++ 0#17 ∧ k n t = j := by
  unfold formatControl at h
  split at h
  · next hf =>
    have htop : f.extractLsb' 20 4 ++ f.extractLsb' 17 3 = f.extractLsb' 17 7 :=
      BitVec.extractLsb'_append_extractLsb'_eq_extractLsb' rfl
    have hsplit : f.extractLsb' 17 7 ++ f.extractLsb' 0 17 = f := BitVec.extractLsb'_append_extractLsb'
    rw [hf, ← htop, ← CtrlType.code_ofCode (f.extractLsb' 17 3)] at hsplit
    exact ⟨_, _, hsplit.symm, Except.ok.inj h⟩
  · cases h

/-! ## An accepted command word is an encoding -/

theorem cmdWord_eq_of_fields {cmd : Word} {i : Instr} (ho : (opcodeField cmd).toNat = i.opcode.toNat)
    (hf : operandField cmd = i.operands) : i.cmdWord = cmd := by
  rw [Instr.cmdWord, ← BitVec.eq_of_toNat_eq ho, ← hf, opcode_append_operand]

/-- The decoder drops no bit of CMD. -/
theorem cmdWord_of_decode {c : Command} {i : Instr} (h : decode c = .ok i) : i.cmdWord = c.cmd := by
  simp only [decode] at h
  split at h
  -- Formats Z and D.
  case h_1 ho | h_6 ho | h_8 ho | h_11 ho | h_13 ho | h_17 ho | h_18 ho | h_19 ho | h_20 ho | h_21 ho | h_22 ho
      | h_24 ho | h_25 ho | h_26 ho | h_28 ho | h_30 ho | h_32 ho | h_33 ho | h_34 ho =>
    obtain ⟨hf, rfl⟩ := formatBare_ok h
    exact cmdWord_eq_of_fields ho hf
  -- Format R.
  case h_2 ho | h_3 ho =>
    obtain ⟨r, hf, rfl⟩ := formatReg_ok h
    exact cmdWord_eq_of_fields ho hf
  -- Format M.
  case h_4 ho | h_5 ho =>
    obtain ⟨sp, a, hf, rfl⟩ := formatMem_ok h
    exact cmdWord_eq_of_fields ho hf
  -- Format W8.
  case h_7 ho | h_9 ho | h_12 ho | h_14 ho =>
    obtain ⟨n, hf, rfl⟩ := formatWidth_ok h
    exact cmdWord_eq_of_fields ho hf
  -- Format A24, which has no reserved bit.
  case h_10 ho =>
    obtain rfl := Except.ok.inj h
    exact cmdWord_eq_of_fields ho BitVec.ofInt_toInt.symm
  -- Formats O and T.
  case h_15 ho | h_27 ho | h_29 ho | h_31 ho =>
    obtain ⟨t, hf, rfl⟩ := formatType_ok h
    exact cmdWord_eq_of_fields ho hf
  -- Format C.
  case h_16 ho =>
    obtain ⟨n, t, hf, rfl⟩ := formatControl_ok h
    exact cmdWord_eq_of_fields ho hf
  -- Format P.
  case h_23 ho =>
    obtain ⟨n, hf, hk⟩ := formatByte_ok h
    obtain rfl := Except.ok.inj hk
    exact cmdWord_eq_of_fields ho hf
  -- A reserved OPC.
  case h_35 => cases h

theorem opcode_of_decode {c : Command} {i : Instr} (h : decode c = .ok i) : i.opcode.toNat = c.cmd.toNat / 2 ^ 24 := by
  rw [← opcodeField_toNat, ← cmdWord_of_decode h, opcodeField_cmdWord]

theorem operands_of_decode {c : Command} {i : Instr} (h : decode c = .ok i) :
    i.operands.toNat = c.cmd.toNat % 2 ^ 24 := by
  rw [← operandField_toNat, ← cmdWord_of_decode h, operandField_cmdWord]

/-! ## No instruction's encoding is reserved -/

theorem opcode_not_reserved (i : Instr) : ¬ ReservedOpcode i.opcode.toNat := by
  unfold ReservedOpcode
  cases i <;> simp only [Instr.opcode] <;> decide

/-- Operand bits 0 are no reserved operand of any format, so they find a command under every OPC that has one. -/
theorem exists_opcode_of_not_reserved {o : Byte} (h : ¬ ReservedOpcode o.toNat) : ∃ i : Instr, i.opcode = o := by
  have hd : ∃ i, decode ⟨o ++ 0#24, 0⟩ = .ok i := by
    simp only [decode, opcodeField_append, operandField_append]
    split
    case h_35 =>
      refine absurd ?_ h
      have := o.isLt
      unfold ReservedOpcode
      simp only [imp_false] at *
      omega
    all_goals exact ⟨_, rfl⟩
  obtain ⟨i, hi⟩ := hd
  exact ⟨i, by rw [← opcodeField_cmdWord, cmdWord_of_decode hi, opcodeField_append]⟩

theorem operands_not_reserved (i : Instr) : ¬ ReservedOperand i.opcode.toNat i.operands.toNat := by
  unfold ReservedOperand bareOpcodes
  cases i with
  | regRd r | regWr r =>
    have := r.num_lt
    simp [Instr.opcode, Instr.operands, byteOperand_toNat]
    omega
  | memRd sp a | memWr sp a =>
    have := sp.num_lt
    have := a.isLt
    simp [Instr.opcode, Instr.operands, memOperand_toNat]
    omega
  | bwWrite n | brRead n | mwWrite n | mrRead n | cwPacked n =>
    simp [Instr.opcode, Instr.operands, byteOperand_toNat]
    omega
  | brAdvance => simp [Instr.opcode]
  | maskWidth t | seqAdd t | seqPath t | seqEmit t =>
    have := t.code.isLt
    simp [Instr.opcode, Instr.operands, typeOperand_toNat]
    omega
  | cwOf n t =>
    simp [Instr.opcode, Instr.operands, controlOperand_toNat]
    omega
  | _ => simp [Instr.opcode, Instr.operands]

/-! ## What the block does with a reserved command word -/

/-- A word that stands for no instruction raises ILLEGAL_CMD(CMD, 0), unless FAULT halts the command (R87, check 1). -/
theorem commandStep_undecodable {s : State} {c : Command} (hd : ∀ i, decode c ≠ .ok i)
    (hf : s.fault = false ∨ c.cmd.toNat / 2 ^ 24 = 0x01 ∨ c.cmd.toNat / 2 ^ 24 = 0x05) :
    commandStep c s = .next (illegalState s c.cmd) := by
  cases hr : decode c with
  | ok i => exact absurd hr (hd i)
  | error r =>
    rw [commandStep_reject hr]
    obtain ⟨hfault, h1, h5, -⟩ | ⟨-, hnext⟩ := rejectCommand_cases c.cmd s
    · rw [← opcodeField_toNat] at hf
      obtain hf | hf | hf := hf
      · simp [hfault] at hf
      · exact absurd (BitVec.eq_of_toNat_eq hf) h1
      · exact absurd (BitVec.eq_of_toNat_eq hf) h5
    · exact hnext

/-- Settles O5: no instruction has a reserved OPC, every other OPC has one, and a word with a reserved OPC cannot be
accepted because an accepted word carries its instruction's OPC. -/
theorem reservedOpcodeRaisesIllegalCmd : Obligations.ReservedOpcodeRaisesIllegalCmd := by
  refine ⟨fun o => ⟨?_, ?_⟩, fun s c hf ho => commandStep_undecodable ?_ (.inl hf)⟩
  · rintro ho i rfl
    exact opcode_not_reserved i ho
  · intro hnone
    by_contra ho
    obtain ⟨i, hi⟩ := exists_opcode_of_not_reserved ho
    exact hnone i hi
  · intro i hd
    exact opcode_not_reserved i (opcode_of_decode hd ▸ ho)

/-- Settles O6: an accepted word carries the OPC and operand bits of its instruction, which are never reserved. -/
theorem reservedOperandRaisesIllegalCmd : Obligations.ReservedOperandRaisesIllegalCmd := by
  intro s c hf hr
  refine commandStep_undecodable (fun i hd => operands_not_reserved i ?_) hf
  rwa [opcode_of_decode hd, operands_of_decode hd]

end Sys2Proof.Machine

namespace Sys2Proof.Machine

open Sys2Proof

/-! # The round trip of the bit channel (41_bit_channel.md R118)

Writing: a list of BW_WRITEs makes one `Appended` of all its fields, by induction over the list. Reading: a peek gives
the number whose bits, first one most significant, are the stream's, and over the writer's bytes those at a field's
cursor are that field's. -/

/-! ## The two commands, on a width that they accept -/

theorem widthUpTo_of_le {limit n : Nat} (cmd : Word) (h : n ≤ limit) : widthUpTo limit cmd n = .ok n := by
  unfold widthUpTo
  rw [if_neg (by omega), Int.toNat_natCast]

/-- BW_WRITE of an accepted width, with room, into a legal writer. -/
theorem exec_bwWrite_spec {s : State} {n : Nat} (v : Word) (hf : s.fault = false) (hn : n ≤ 32)
    (hw : s.BitWriterLegal) (hroom : s.RoomFor n) :
    ∃ t, exec (.bwWrite n v) s = .next t ∧ Appended s t [(v.toNat, n)] ∧
      t = { s with bw := t.bw, bwBits := t.bwBits, dout := t.bwBits.setWidth 64, resp := .ok } := by
  obtain ⟨t, hput, happ, hframe⟩ := putBits_spec n (v.toNat % 2 ^ n) hw hroom
  refine ⟨t.completed (t.bwBits.setWidth 64), ?_, happ.congr (fieldBits_mod _ _), ?_⟩
  · simp only [exec, execBwWrite, command_ready hf, widthUpTo_of_le _ (show n ≤ maxBits from hn), Attempt.bind_ok, hput,
      Attempt.pure_eq, finish_ok]
  · rw [hframe]
    rfl

/-- BR_READ of an accepted width over a loaded reader. -/
theorem exec_brRead_spec {s : State} {n : Nat} (hf : s.fault = false) (hn : n ≤ 32) (hl : s.ReaderLoaded) :
    exec (.brRead n) s =
      .next { s with dout := BitVec.ofNat 64 (streamField s s.brPos.toNat n), resp := .ok } := by
  simp only [exec, execBrRead, command_ready hf, widthUpTo_of_le _ (show n ≤ maxBits from hn), Attempt.bind_ok,
    peekFrom_loaded hl, Attempt.pure_eq, finish_ok, State.completed]

/-! ## Writing a list of fields -/

/-- The values of BW_WRITEs as the numbers that `Appended` speaks of. -/
def writtenFields (fs : List (Word × Nat)) : List (Nat × Nat) := fs.map fun f => (f.1.toNat, f.2)

@[simp] theorem fieldWidth_writtenFields (fs : List (Word × Nat)) :
    fieldWidth (writtenFields fs) = (fs.map Prod.snd).sum := by
  simp [fieldWidth, writtenFields, Function.comp_def]

theorem writtenFields_split (pre post : List (Word × Nat)) (v : Word) (n : Nat) :
    writtenFields (pre ++ (v, n) :: post) = writtenFields pre ++ ([(v.toNat, n)] ++ writtenFields post) := by
  simp [writtenFields]

/-- An empty writer has no byte to keep a form of. -/
theorem bitWriterLegal_of_empty {s : State} (h : s.bwBits = 0) : s.BitWriterLegal := by
  simp [State.BitWriterLegal, h, bytesFor]

theorem runCommands_next {i : Instr} {is : List Instr} {s t : State} (h : exec i s = .next t) (hok : t.resp = .ok) :
    runCommands (i :: is) s = runCommands is t := by
  simp [runCommands, h, hok]

/-- BW_WRITEs for which there is room all complete, and append their fields in order. -/
theorem runCommands_bwWrites_spec {s : State} (fs : List (Word × Nat)) (hf : s.fault = false)
    (hw : s.BitWriterLegal) (hn : ∀ f ∈ fs, f.2 ≤ 32) (hroom : s.RoomFor (fieldWidth (writtenFields fs))) :
    ∃ t, runCommands (fs.map fun f => Instr.bwWrite f.2 f.1) s = .next t ∧ Appended s t (writtenFields fs) := by
  induction fs generalizing s with
  | nil => exact ⟨s, rfl, .refl hw⟩
  | cons f fs ih =>
    obtain ⟨v, n⟩ := f
    obtain ⟨hn1, hn⟩ := List.forall_mem_cons.1 hn
    have hsplit : writtenFields ((v, n) :: fs) = [(v.toNat, n)] ++ writtenFields fs := rfl
    rw [hsplit, fieldWidth_append] at hroom
    obtain ⟨t, hexec, happ, hframe⟩ := exec_bwWrite_spec v hf hn1 hw (hroom.mono (by simp))
    have hroom' : t.RoomFor (fieldWidth (writtenFields fs)) := (happ.roomFor (by rw [hframe]) _).2 hroom
    obtain ⟨u, hrun, happ'⟩ := ih (by rw [hframe]; exact hf) happ.bitWriterLegal hn hroom'
    exact ⟨u, (runCommands_next hexec (by rw [hframe])).trans hrun, happ.trans happ'⟩

/-! ## The bits of one field among those of all -/

theorem fieldBits_single_getD {v n k : Nat} (hk : k < n) :
    (fieldBits [(v, n)]).getD k false = v.testBit (n - 1 - k) := by
  simp [fieldBits, List.getD_eq_getElem?_getD, hk]

/-- Past the fields before it, a field's own bits come next. -/
theorem fieldBits_getD_field (fs gs : List (Nat × Nat)) {v n k : Nat} (hk : k < n) :
    (fieldBits (fs ++ ([(v, n)] ++ gs))).getD (fieldWidth fs + k) false = v.testBit (n - 1 - k) := by
  have hlen : k < (fieldBits [(v, n)]).length := by simpa using hk
  rw [fieldBits_append, fieldBits_append, ← fieldBits_length fs, List.getD_append_right _ _ _ _ (by omega),
    Nat.add_sub_cancel_left, List.getD_append _ _ _ _ hlen, fieldBits_single_getD hk]

/-! ## Reading a field back -/

/-- A peek over the bits of a value gives the value masked to the width. -/
theorem streamField_eq_mod {s : State} {pos n v : Nat} (h : ∀ k < n, streamBit s (pos + k) = v.testBit (n - 1 - k)) :
    streamField s pos n = v % 2 ^ n := by
  refine Nat.eq_of_testBit_eq fun j => ?_
  rw [Nat.testBit_mod_two_pow]
  by_cases hj : j < n
  · have hbit := streamField_testBit s pos n (n - 1 - j) (by omega)
    rw [h _ (by omega), show n - 1 - (n - 1 - j) = j by omega] at hbit
    simp [hbit, hj]
  · have hlt : streamField s pos n < 2 ^ j :=
      (streamField_lt s pos n).trans_le (Nat.pow_le_pow_right (by omega) (by omega))
    simp [Nat.testBit_lt_two_pow hlt, hj]

/-- The host has loaded the bit reader of u with what the bit writer of t holds (R118's transfer). -/
def LoadedFrom (t u : State) : Prop :=
  u.brLen.toNat = bytesFor t.bwBits.toNat ∧
    ∀ a < bytesFor t.bwBits.toNat, Memory.read u.br a = Memory.read t.bw a

theorem LoadedFrom.readerLoaded {t u : State} (h : LoadedFrom t u) (hw : t.BitWriterLegal) : u.ReaderLoaded := by
  obtain ⟨hlen, hread⟩ := h
  intro a ha
  rw [hlen] at ha
  rw [hread a ha]
  exact hw.1 a ha

theorem LoadedFrom.streamBit_eq {t u : State} (h : LoadedFrom t u) {i : Nat} (hi : i < t.bwBits.toNat) :
    streamBit u i = bufferBit t.bw i := by
  obtain ⟨hlen, hread⟩ := h
  have hbyte : i / 8 < bytesFor t.bwBits.toNat := by unfold bytesFor; omega
  have hin : i < 8 * u.brLen.toNat := by omega
  simp [streamBit, hin, bufferBit, hread _ hbyte]

/-- What was appended to an empty writer, a loaded reader finds at each field's cursor. -/
theorem streamField_of_appended {s t u : State} {fs gs : List (Nat × Nat)} {v n : Nat} (h0 : s.bwBits.toNat = 0)
    (h : Appended s t (fs ++ ([(v, n)] ++ gs))) (hu : LoadedFrom t u) :
    streamField u (fieldWidth fs) n = v % 2 ^ n := by
  obtain ⟨hcount, -, hbits, -⟩ := h
  simp only [h0, Nat.zero_add] at hcount hbits
  have hwidth : fieldWidth (fs ++ ([(v, n)] ++ gs)) = fieldWidth fs + (n + fieldWidth gs) := by
    simp [fieldWidth_append]
  refine streamField_eq_mod fun k hk => ?_
  rw [hu.streamBit_eq (by omega), hbits _ (by omega), fieldBits_getD_field fs gs hk]

/-- Settles O29: the writes make one append to the empty writer, and a peek over the transferred bytes at a field's
cursor reads that field's bits. -/
theorem bitFieldsRoundTrip : Obligations.BitFieldsRoundTrip := by
  intro s fs hf h0 hn hroom
  rw [← fieldWidth_writtenFields] at hroom
  obtain ⟨t, hrun, happ⟩ := runCommands_bwWrites_spec fs hf (bitWriterLegal_of_empty h0) hn hroom
  have hempty : s.bwBits.toNat = 0 := by simp [h0]
  refine ⟨t, hrun, by simpa [hempty] using happ.1, ?_⟩
  intro pre post v n u hsplit huf hlen hbytes hpos
  have hu : LoadedFrom t u := ⟨hlen, hbytes⟩
  have hn' : n ≤ 32 := hn (v, n) (by simp [hsplit])
  rw [hsplit, writtenFields_split] at happ
  rw [exec_brRead_spec huf hn' (hu.readerLoaded happ.bitWriterLegal), hpos, ← fieldWidth_writtenFields,
    streamField_of_appended hempty happ hu]

end Sys2Proof.Machine

namespace Sys2Proof.Machine

open Sys2Proof

/-! # The round trip of the mask channel (42_mask_channel.md R127)

MW_WRITE leaves the low bytes of the value at the start of an empty writer, MR_READ answers the number that the bytes at
the cursor stand for, and the low k bytes of a value stand for its remainder modulo 2 ^ (8 k). -/

/-! ## The two commands, on a byte count that they accept -/

/-- MW_WRITE of an accepted count, with room. -/
theorem exec_mwWrite_spec {s : State} {n : Nat} (v : DWord) (hf : s.fault = false) (hn : n ≤ 8)
    (hroom : s.mwLen.toNat + n ≤ s.caps.mw.units) :
    exec (.mwWrite n v) s =
      .next { s with
        mw := Memory.writeAll s.mw s.mwLen.toNat (bytesLE v n)
        mwLen := BitVec.ofNat 21 (s.mwLen.toNat + n)
        dout := (BitVec.ofNat 21 (s.mwLen.toNat + n)).setWidth 64
        resp := .ok } := by
  simp only [exec, execMwWrite, command_ready hf, widthUpTo_of_le _ (show n ≤ maxMaskBytes from hn), Attempt.bind_ok,
    if_neg (Nat.not_lt.2 hroom), Attempt.pure_eq, finish_ok, State.completed]

/-- MR_READ of an accepted count that keeps the cursor in range, over the bytes at the cursor. -/
theorem exec_mrRead_spec {s : State} {n : Nat} {bs : List Byte} (hf : s.fault = false) (hn : n ≤ 8)
    (hpos : s.mrPos.toNat + n ≤ cursorMax) (hbs : maskBytesFrom s s.mrPos.toNat n = .ok bs) :
    exec (.mrRead n) s =
      .next { s with
        mrPos := BitVec.ofNat 32 (s.mrPos.toNat + n)
        dout := BitVec.ofNat 64 (natOfLE bs)
        resp := .ok } := by
  simp only [exec, execMrRead, command_ready hf, widthUpTo_of_le _ (show n ≤ maxMaskBytes from hn), Attempt.bind_ok,
    if_neg (Nat.not_lt.2 hpos), hbs, Attempt.pure_eq, finish_ok, State.completed]

/-! ## Bytes written, transferred and read -/

/-- Bytes that stand in MR below MR_LEN are the maskstream's there. -/
theorem maskBytesFrom_of_read {s : State} {pos : Nat} {bs : List Byte} (hlen : pos + bs.length ≤ s.mrLen.toNat)
    (hread : ∀ j (hj : j < bs.length), Memory.read s.mr (pos + j) = some bs[j]) :
    maskBytesFrom s pos bs.length = .ok bs := by
  induction bs generalizing pos with
  | nil => rfl
  | cons b bs ih =>
    rw [List.length_cons] at hlen
    have hfirst : maskByte s pos = .ok b := by
      rw [maskByte, if_pos (by omega)]
      exact fetchUnit_ok.2 (hread 0 (by simp))
    have hrest : maskBytesFrom s (pos + 1) bs.length = .ok bs := by
      refine ih (by omega) fun j hj => ?_
      rw [Nat.add_assoc, Nat.add_comm 1 j]
      exact hread (j + 1) (by simpa using hj)
    simp only [List.length_cons, maskBytesFrom, hfirst, hrest, Attempt.bind_ok, Attempt.pure_eq]

/-- The low k bytes of a value stand for the value with the bytes from k on zeroed. -/
theorem natOfLE_bytesLE {w : Nat} (v : BitVec w) (k : Nat) : natOfLE (bytesLE v k) = v.toNat % 2 ^ (8 * k) := by
  rw [natOfLE_of_bytes (getElem_bytesLE v k), bytesLE_length]

/-- Settles O33: the writer holds the low k bytes of v from address 0 on, so a reader over a copy of them reads these
bytes at cursor 0, and they stand for v modulo 2 ^ (8 k). -/
theorem maskValueRoundTrip : Obligations.MaskValueRoundTrip := by
  intro s k v hf hempty hk hcap
  have hroom : s.mwLen.toNat + k ≤ s.caps.mw.units := by simpa [hempty] using hcap
  refine ⟨_, exec_mwWrite_spec v hf hk hroom, ?_⟩
  intro u huf hpos hlen hcopy
  have hread : ∀ j (hj : j < (bytesLE v k).length), Memory.read u.mr (0 + j) = some (bytesLE v k)[j] := by
    intro j hj
    have hwritten := Memory.read_writeAll_at s.mw (a := 0) (bytesLE v k) hj
    rw [← hwritten, Nat.zero_add, hcopy j (by simpa using hj), hempty]
    rfl
  have hbytes : maskBytesFrom u u.mrPos.toNat k = .ok (bytesLE v k) := by
    simpa [hpos] using maskBytesFrom_of_read (by simp [hlen]) hread
  have hcursor : u.mrPos.toNat + k ≤ cursorMax := by
    rw [hpos]
    exact (show 0 + k ≤ 8 by omega).trans (by decide)
  rw [exec_mrRead_spec huf hk hcursor hbytes, natOfLE_bytesLE, hpos]
  simp

end Sys2Proof.Machine

namespace Sys2Proof.Machine

open Sys2Proof

/-! # The runs of a word list (43_control_word.md R136)

Every fact is proved of runsFrom, whose current run is n words w, by induction on the words still to come: the next word
either extends the current run, or closes it and becomes the first word of a new one. -/

/-- Spelled out, the runs are the n words of the current run and the words after it. -/
theorem runsFrom_flatMap_replicate (w : Word) (n : Nat) (l : List Word) :
    (runsFrom w n l).flatMap (fun r => List.replicate r.2 r.1) = List.replicate n w ++ l := by
  induction l generalizing w n with
  | nil => simp [runsFrom]
  | cons d ds ih =>
    rw [runsFrom]
    split
    next hext => rw [ih, hext.1, List.replicate_succ', List.append_assoc, List.singleton_append]
    next => rw [List.flatMap_cons, ih, List.replicate_one, List.singleton_append]

theorem runsFrom_count_bounds {w : Word} {n : Nat} (l : List Word) (hpos : 1 ≤ n) (hmax : n ≤ packedTimesMax) :
    ∀ r ∈ runsFrom w n l, 1 ≤ r.2 ∧ r.2 ≤ packedTimesMax := by
  induction l generalizing w n with
  | nil => simpa [runsFrom] using ⟨hpos, hmax⟩
  | cons d ds ih =>
    rw [runsFrom]
    split
    next hext => exact ih (Nat.le_add_left 1 n) hext.2
    next => exact List.forall_mem_cons.mpr ⟨⟨hpos, hmax⟩, ih le_rfl (by decide)⟩

/-- The first run is one of the current run's word. -/
theorem runsFrom_eq_cons (w : Word) (n : Nat) (l : List Word) : ∃ k rs, runsFrom w n l = (w, k) :: rs := by
  induction l generalizing n with
  | nil => exact ⟨n, [], rfl⟩
  | cons d ds ih =>
    rw [runsFrom]
    split
    next => exact ih (n + 1)
    next => exact ⟨n, _, rfl⟩

/-- A run that a run of the same word follows is full. -/
def FullIfRepeated (a b : Word × Nat) : Prop := a.1 = b.1 → a.2 = packedTimesMax

theorem runsFrom_isChain_fullIfRepeated {w : Word} {n : Nat} (l : List Word) (hmax : n ≤ packedTimesMax) :
    (runsFrom w n l).IsChain FullIfRepeated := by
  induction l generalizing w n with
  | nil => exact .singleton _
  | cons d ds ih =>
    rw [runsFrom]
    split
    next hext => exact ih hext.2
    next hclosed =>
      have htail : (runsFrom d 1 ds).IsChain FullIfRepeated := ih (by decide)
      obtain ⟨k, rs, hnext⟩ := runsFrom_eq_cons d 1 ds
      rw [hnext] at htail ⊢
      have hfull : FullIfRepeated (w, n) (d, k) := fun hw =>
        le_antisymm hmax (Nat.le_of_not_lt fun hlt => hclosed ⟨hw, hlt⟩)
      exact .cons_cons hfull htail

/-- Settles O36: a nonempty list is a current run of one word and the words after it, and of such runs the three facts
above hold. -/
theorem runsAreMaximalGroups : Obligations.RunsAreMaximalGroups := by
  intro d
  cases d with
  | nil => simp [runs]
  | cons w ws =>
    have hchain : (runs (w :: ws)).IsChain FullIfRepeated := runsFrom_isChain_fullIfRepeated ws (by decide)
    exact ⟨runsFrom_flatMap_replicate w 1 ws, runsFrom_count_bounds ws le_rfl (by decide),
      fun _ _ _ _ hsplit => List.isChain_iff_forall_rel_of_append_cons_cons.mp hchain hsplit⟩

end Sys2Proof.Machine

namespace Sys2Proof.Machine

open Sys2Proof

/-! # The sequencer's phases (44_sequencer.md R142)

A command that completes is described by `Effect`, and one that fails changes neither ENC_OPEN nor PHASE: so what the
steps keep is a case split over the commands that write one of the two. -/

/-! ## What a command that answers has done -/

/-- It completed with its effect, or it raised an error; one that a phase governs raises CONTRACT only where the phase
refuses it. -/
theorem exec_next_cases {i : Instr} {s t : State} (h : exec i s = .next t) :
    (∃ u v, t = u.completed v ∧ Effect i s u) ∨
    (∃ e a b, t = s.raised e a b ∧ e ≠ .ok ∧ (e = .contract → PhaseRefuses s i)) := by
  by_cases hrun : s.fault = false ∨ i = .softReset ∨ ∃ r, i = .regRd r
  · obtain ⟨u, v, ho, he⟩ | ⟨e, a, b, ho, hne, -, -, hphase⟩ | ⟨sp, a, ho, -⟩ := exec_answers i s hrun <;>
      rw [h] at ho
    · exact .inl ⟨u, v, Host.Outcome.next.inj ho, he⟩
    · exact .inr ⟨e, a, b, Host.Outcome.next.inj ho, hne, hphase⟩
    · cases ho
  · simp only [not_or, not_exists, Bool.not_eq_false] at hrun
    obtain ⟨hfault, hreset, hread⟩ := hrun
    rw [exec_halted i s hfault hreset hread] at h
    exact .inr ⟨_, _, _, (Host.Outcome.next.inj h).symm, nofun, nofun⟩

/-! ## The commands that a phase refuses -/

theorem Phase.ne_built_iff {p : Phase} : p ≠ .built ↔ p = .accumulate := by
  cases p <;> decide

/-- A command raises the CONTRACT of its phase before it looks at its operands. -/
theorem exec_of_refusedInPhase {s : State} {i : Instr} (hf : s.fault = false) (h : RefusedInPhase s i) :
    exec i s = .next (contractState s i.cmdWord 0) := by
  cases i with
  | seqClear =>
    have hopen : s.encOpen = true := h
    simp [exec, execSeqClear, command_ready hf, hopen, raised_contract]
  | seqAdd ty p =>
    have hbuilt : s.phase = .built := h
    simp [exec, execSeqAdd, command_ready hf, hbuilt, raised_contract]
  | seqBuild =>
    have hopen : s.encOpen = true := h
    simp [exec, execSeqBuild, command_ready hf, hopen, raised_contract]
  | seqPath ty p =>
    have hacc : s.phase = .accumulate := h
    simp [exec, execSeqPath, command_ready hf, hacc, raised_contract]
  | seqFrameBegin =>
    have hrefused : s.phase ≠ .built ∨ s.encOpen = true := Or.imp_left Phase.ne_built_iff.2 h
    simp only [exec, execSeqFrameBegin, command_ready hf, if_pos hrefused, finish_raise, raised_contract]
  | seqEmit ty p =>
    have hclosed : s.encOpen = false := h
    simp [exec, execSeqEmit, command_ready hf, hclosed, raised_contract]
  | seqFrameEnd =>
    have hclosed : s.encOpen = false := h
    simp [exec, execSeqFrameEnd, command_ready hf, hclosed, raised_contract]
  | _ => exact h.elim

/-- For the sequencer's opcodes, the phases of `PhaseRefuses` are those of R142's table. -/
theorem refusedInPhase_of_phaseRefuses {s : State} {i : Instr} (hlow : 0x40 ≤ i.opcode.toNat)
    (hhigh : i.opcode.toNat ≤ 0x46) (h : PhaseRefuses s i) : RefusedInPhase s i := by
  cases i with
  | seqClear | seqAdd | seqBuild | seqEmit | seqFrameEnd => exact h
  | seqPath => exact Phase.ne_built_iff.1 h
  | seqFrameBegin => exact Or.imp_left Phase.ne_built_iff.1 h
  | cwResolve | streamNext => exact absurd hhigh (by decide)
  | _ => exact absurd hlow (by simp [Instr.opcode])

/-- A command that answers CONTRACT stood in a phase that refuses it. -/
theorem phaseRefuses_of_exec_contract {s t : State} {i : Instr} (h : exec i s = .next t) (hresp : t.resp = .contract) :
    PhaseRefuses s i := by
  obtain ⟨u, v, rfl, -⟩ | ⟨e, a, b, rfl, -, hphase⟩ := exec_next_cases h
  · cases hresp
  · exact hphase hresp

/-! ## A frame is open only in phase BUILT -/

/-- R142's rule about ENC_OPEN. -/
def State.OpenOnlyBuilt (s : State) : Prop := s.encOpen = true → s.phase = .built

/-- The rule speaks of two fields only. -/
theorem State.OpenOnlyBuilt.congr {s t : State} (h : s.OpenOnlyBuilt) (hopen : t.encOpen = s.encOpen)
    (hphase : t.phase = s.phase) : t.OpenOnlyBuilt := by
  unfold State.OpenOnlyBuilt
  rwa [hopen, hphase]

/-- REG_WR writes neither ENC_OPEN nor PHASE. -/
theorem writeReg_keeps_phase {cmd : Word} {r : Reg} {v : Word} {s t : State} (h : writeReg cmd r v s = .ok t) :
    t.encOpen = s.encOpen ∧ t.phase = s.phase := by
  cases r <;> simp only [writeReg, raise] at h
  case status => cases h; exact ⟨rfl, rfl⟩
  case indexBits | directLimit | brLen | mrLen | dictLen | serLen =>
    split at h <;> cases h
    exact ⟨rfl, rfl⟩
  case hTiles =>
    split at h
    · cases h
    · split at h <;> cases h
      exact ⟨rfl, rfl⟩
  all_goals cases h

theorem BwOnly.encOpen {s t : State} (h : BwOnly s t) : t.encOpen = s.encOpen := by rw [h.frame]

theorem BwOnly.phase {s t : State} (h : BwOnly s t) : t.phase = s.phase := by rw [h.frame]

/-- The commands that write ENC_OPEN or PHASE are SOFT_RESET, SEQ_CLEAR, SEQ_BUILD, SEQ_FRAME_BEGIN and
SEQ_FRAME_END. -/
theorem Effect.openOnlyBuilt {i : Instr} {s t : State} (he : Effect i s t) (hs : s.OpenOnlyBuilt) :
    t.OpenOnlyBuilt := by
  cases i with
  | softReset =>
    obtain rfl := he
    exact nofun
  | seqClear =>
    obtain ⟨hclosed, rfl⟩ := he
    exact fun hopen => absurd (hclosed.symm.trans hopen) nofun
  | seqBuild =>
    obtain ⟨-, words, dd, p, -, -, -, -, rfl⟩ := he
    exact fun _ => rfl
  | seqFrameBegin =>
    obtain ⟨hbuilt, -, rfl⟩ := he
    exact fun _ => hbuilt
  | seqFrameEnd =>
    obtain ⟨-, u, -, rfl⟩ := he
    exact nofun
  | seqEmit ty p =>
    obtain ⟨-, u, pend, op, hbw, rfl, -⟩ := he
    exact hs.congr (by simp [hbw.encOpen]) (by simp [hbw.phase])
  | seqAdd ty p =>
    obtain ⟨-, op, f, -, rfl⟩ := he
    exact hs
  | regWr r v =>
    obtain ⟨cmd, hw⟩ := he
    obtain ⟨hopen, hphase⟩ := writeReg_keeps_phase hw
    exact hs.congr hopen hphase
  | memWr sp a v =>
    obtain ⟨-, -, -, rfl⟩ := he
    exact hs.congr (by simp) (by simp)
  | bwWrite n v => exact hs.congr (BwOnly.encOpen he) (BwOnly.phase he)
  | mwWrite n v =>
    obtain ⟨k, -, rfl⟩ := he
    exact hs
  | brAdvance | mrRead | cwResolve | streamNext =>
    obtain ⟨pos, rfl⟩ := he
    exact hs
  | dictPack | dictUnpack =>
    obtain ⟨units, -, rfl⟩ := he
    exact hs
  | _ =>
    obtain rfl := he
    exact hs

theorem exec_openOnlyBuilt {i : Instr} {s t : State} (hs : s.OpenOnlyBuilt) (h : exec i s = .next t) :
    t.OpenOnlyBuilt := by
  obtain ⟨u, v, rfl, he⟩ | ⟨e, a, b, rfl, -⟩ := exec_next_cases h
  · exact (he.openOnlyBuilt hs).congr rfl rfl
  · exact hs.congr rfl rfl

theorem rejectCommand_openOnlyBuilt {cmd : Word} {s t : State} (hs : s.OpenOnlyBuilt)
    (h : rejectCommand cmd s = .next t) : t.OpenOnlyBuilt := by
  obtain ⟨-, -, -, ho⟩ | ⟨-, ho⟩ := rejectCommand_cases cmd s <;>
    · obtain rfl := Host.Outcome.next.inj (h.symm.trans ho)
      exact hs.congr rfl rfl

/-- Every step keeps the rule: taking a command from the pending ones touches neither field. -/
theorem step_openOnlyBuilt {s t : State} (hs : s.OpenOnlyBuilt) (h : step s = .next t) : t.OpenOnlyBuilt := by
  obtain ⟨-, ho⟩ | ⟨c, rest, -, ⟨i, -, ho⟩ | ⟨r, -, ho⟩⟩ := step_cases s <;> rw [ho] at h
  · obtain rfl := Host.Outcome.next.inj h
    exact hs
  · exact exec_openOnlyBuilt (s := { s with pending := rest }) hs h
  · exact rejectCommand_openOnlyBuilt (s := { s with pending := rest }) hs h

/-! ## Back to ACCUMULATE -/

/-- A command that answers OK had its effect. -/
theorem effect_of_exec_ok {i : Instr} {s t : State} (h : exec i s = .next t) (hok : t.resp = .ok) :
    ∃ u v, t = u.completed v ∧ Effect i s u := by
  obtain heffect | ⟨e, a, b, rfl, hne, -⟩ := exec_next_cases h
  · exact heffect
  · exact absurd hok hne

/-- SEQ_CLEAR and SOFT_RESET leave an empty OPT in phase ACCUMULATE. -/
theorem Effect.accumulate_of_clearing {i : Instr} {s t : State} (hi : i = .seqClear ∨ i = .softReset)
    (he : Effect i s t) : t.phase = .accumulate ∧ t.opt = [] := by
  obtain rfl | rfl := hi
  · obtain ⟨-, rfl⟩ := he
    exact ⟨rfl, rfl⟩
  · obtain rfl := he
    exact ⟨rfl, rfl⟩

/-- Settles O41: the phase check comes first in every sequencer command and nothing else in it raises CONTRACT, ENC_OPEN
is set in phase BUILT alone, which no command leaves while a frame is open, and the two clearing commands empty OPT. -/
theorem phasesAllowTheirCommands : Obligations.PhasesAllowTheirCommands := by
  refine ⟨fun s t i hlow hhigh hf => ⟨exec_of_refusedInPhase hf, fun h hresp => ?_⟩,
    fun s t hs h => step_openOnlyBuilt hs h, ⟨rfl, rfl, rfl⟩, fun s t i hi h hok => ?_⟩
  · exact refusedInPhase_of_phaseRefuses hlow hhigh (phaseRefuses_of_exec_contract h hresp)
  · obtain ⟨u, v, rfl, he⟩ := effect_of_exec_ok h hok
    obtain ⟨hphase, hopt⟩ := he.accumulate_of_clearing hi
    exact ⟨hphase, hopt⟩

end Sys2Proof.Machine

namespace Sys2Proof.Machine

open Sys2Proof

/-! # Failed and halted commands (60_exceptions.md R173 to R175)

A command fails in one way only, `State.raised`, whatever raised the error and whether or not its word decodes. While
FAULT = 1 a command is REG_RD, or SOFT_RESET, or is halted. -/

/-! ## A command that fails -/

theorem ErrCode.setsFault_eq_decide (e : ErrCode) : e.setsFault = decide (e = .contract ∨ e = .illegalCmd) := by
  cases e <;> rfl

theorem ErrCode.stopsStream_eq_decide (e : ErrCode) :
    e.stopsStream = decide (e = .indexRange ∨ e = .hopLimit ∨ e = .unknownType) := by
  cases e <;> rfl

theorem rejectCommand_eq_raised (cmd : Word) (s : State) : ∃ e a b, rejectCommand cmd s = .next (s.raised e a b) := by
  obtain ⟨-, -, -, ho⟩ | ⟨-, ho⟩ := rejectCommand_cases cmd s
  · exact ⟨.halted, 0, 0, by rw [ho, raised_halted]⟩
  · exact ⟨.illegalCmd, cmd, 0, by rw [ho, raised_illegal]⟩

/-- An answer other than OK leaves the state that some error makes of the old one. -/
theorem eq_raised_of_commandStep_failed {c : Command} {s t : State} (h : commandStep c s = .next t)
    (hfail : t.resp ≠ .ok) : ∃ e a b, t = s.raised e a b := by
  cases hd : decode c with
  | ok i =>
    rw [commandStep_ok hd] at h
    obtain ⟨u, v, rfl, -⟩ | ⟨e, a, b, ht, -⟩ := exec_next_cases h
    · exact absurd rfl hfail
    · exact ⟨e, a, b, ht⟩
  | error r =>
    rw [commandStep_reject hd] at h
    obtain ⟨e, a, b, ho⟩ := rejectCommand_eq_raised c.cmd s
    exact ⟨e, a, b, Host.Outcome.next.inj (h.symm.trans ho)⟩

/-- Settles O8: the new state is `State.raised` of the old one, which writes the fields of R173 and no other. -/
theorem failedCommandHasOnlyErrorEffects : Obligations.FailedCommandHasOnlyErrorEffects := by
  intro s t c h hfail
  obtain ⟨e, a, b, rfl⟩ := eq_raised_of_commandStep_failed h hfail
  by_cases he : e = .halted <;>
    simp [State.raised, he, ErrCode.setsFault_eq_decide, ErrCode.stopsStream_eq_decide]

/-! ## A command while FAULT = 1 -/

/-- REG_RD does not look at FAULT, and cannot fail. -/
theorem exec_regRd (r : Reg) (s : State) : exec (.regRd r) s = .next (s.completed ((s.readReg r).setWidth 64)) := rfl

/-- SOFT_RESET does not look at FAULT, and cannot fail. -/
theorem exec_softReset (s : State) : exec .softReset s = .next (s.resetAction.completed 0) := rfl

/-- OPC as the obligations write it. -/
theorem opcodeField_eq_iff (cmd : Word) (o : Byte) : opcodeField cmd = o ↔ cmd.toNat / 2 ^ 24 = o.toNat := by
  rw [← BitVec.toNat_inj, opcodeField_toNat]

/-- Check 1 of 30_encoding.md R87 comes before the reserved encodings. -/
theorem commandStep_halted {c : Command} {s : State} (hf : s.fault = true) (hread : c.cmd.toNat / 2 ^ 24 ≠ 0x01)
    (hreset : c.cmd.toNat / 2 ^ 24 ≠ 0x05) : commandStep c s = .next (haltedState s) := by
  cases hd : decode c with
  | ok i =>
    have hopc := opcode_of_decode hd
    rw [commandStep_ok hd, exec_halted i s hf, raised_halted]
    · rintro rfl
      exact hreset hopc.symm
    · rintro r rfl
      exact hread hopc.symm
  | error r =>
    rw [commandStep_reject hd]
    obtain ⟨-, -, -, ho⟩ | ⟨hrun, -⟩ := rejectCommand_cases c.cmd s
    · exact ho
    · rw [opcodeField_eq_iff, opcodeField_eq_iff, hf] at hrun
      obtain h | h | h := hrun
      · cases h
      · exact absurd h hread
      · exact absurd h hreset

theorem exec_keeps_fault {i : Instr} {s t : State} (hf : s.fault = true) (hi : i ≠ .softReset)
    (h : exec i s = .next t) : t.fault = true := by
  by_cases hr : ∃ r, i = .regRd r
  · obtain ⟨r, rfl⟩ := hr
    rw [exec_regRd] at h
    obtain rfl := Host.Outcome.next.inj h
    exact hf
  · rw [exec_halted i s hf hi (not_exists.mp hr)] at h
    obtain rfl := Host.Outcome.next.inj h
    simp [hf]

theorem rejectCommand_keeps_fault {cmd : Word} {s t : State} (hf : s.fault = true)
    (h : rejectCommand cmd s = .next t) : t.fault = true := by
  obtain ⟨e, a, b, ho⟩ := rejectCommand_eq_raised cmd s
  obtain rfl := Host.Outcome.next.inj (h.symm.trans ho)
  simp [hf]

/-- A word that does not decode clears no FAULT, not even one with the OPC of SOFT_RESET. -/
theorem decode_eq_softReset_of_fault_cleared {c : Command} {s t : State} (hf : s.fault = true)
    (h : commandStep c s = .next t) (ht : t.fault = false) : decode c = .ok .softReset := by
  cases hd : decode c with
  | ok i =>
    rw [commandStep_ok hd] at h
    by_contra hi
    exact Bool.eq_false_iff.mp ht (exec_keeps_fault hf (fun hreset => hi (by rw [hreset])) h)
  | error r =>
    rw [commandStep_reject hd] at h
    exact absurd (rejectCommand_keeps_fault hf h) (Bool.eq_false_iff.mp ht)

/-- Settles O9: every command but REG_RD and SOFT_RESET checks FAULT before its encoding and its operands; REG_RD
changes only the outputs, and every error keeps FAULT, so SOFT_RESET alone clears it. -/
theorem faultHaltsUntilReset : Obligations.FaultHaltsUntilReset :=
  ⟨fun _ _ => commandStep_halted,
    fun _ _ _ => decode_eq_softReset_of_fault_cleared,
    fun s i hf hreset hread => by rw [exec_halted i s hf hreset hread, raised_halted],
    fun s => ⟨_, exec_softReset s, rfl, rfl⟩,
    fun s r => ⟨_, exec_regRd r s, rfl⟩⟩

end Sys2Proof.Machine

namespace Sys2Proof

/-! # Decode and encode agree (30_encoding.md E1 to E3)

Each format reads back the operand bits that it lays out, so every instruction is read back from its encoding; and the
decoder looks at DIN through `dinWord` and `memValue` alone, but for MW_WRITE. -/

/-! ## Each format reads back the operands it lays out -/

theorem formatBare_zero (i : Instr) : formatBare 0 i = .ok i := rfl

theorem formatByte_append (n : Byte) (k : Byte → Except Reject Instr) : formatByte (0#16 ++ n) k = k n := by
  rw [formatByte, BitVec.extractLsb'_append_eq_left, BitVec.extractLsb'_append_eq_right]
  rfl

theorem formatReg_append (r : Reg) (k : Reg → Instr) : formatReg (0#16 ++ r.num) k = .ok (k r) := by
  rw [formatReg, formatByte_append, Reg.ofNum_num]

theorem formatWidth_append {n : Int} (h : widthEncodable n = true) (k : Int → Instr) :
    formatWidth (0#16 ++ BitVec.ofInt 8 n) k = .ok (k n) := by
  rw [formatWidth, formatByte_append, toInt_ofInt_width h]

theorem formatMem_append (sp : Space) (a : BitVec 20) (k : Space → BitVec 20 → Instr) :
    formatMem (sp.num ++ a) k = .ok (k sp a) := by
  rw [formatMem, BitVec.extractLsb'_append_eq_left, BitVec.extractLsb'_append_eq_right, Space.ofNum_num]

theorem formatType_append (t : CtrlType) (k : CtrlType → Instr) : formatType (0#21 ++ t.code) k = .ok (k t) := by
  rw [formatType, BitVec.extractLsb'_append_eq_left, BitVec.extractLsb'_append_eq_right, CtrlType.ofCode_code]
  rfl

theorem formatControl_append (n : BitVec 4) (t : CtrlType) (k : BitVec 4 → CtrlType → Instr) :
    formatControl (n ++ t.code ++ 0#17) k = .ok (k n t) := by
  have hops := controlOperand_toNat n t.code
  have hn := n.isLt
  have ht := t.code.isLt
  have hcount : (n ++ t.code ++ 0#17 : BitVec 24).extractLsb' 20 4 = n := by
    apply BitVec.eq_of_toNat_eq
    rw [BitVec.extractLsb'_toNat, hops, Nat.shiftRight_eq_div_pow]
    omega
  have htype : (n ++ t.code ++ 0#17 : BitVec 24).extractLsb' 17 3 = t.code := by
    apply BitVec.eq_of_toNat_eq
    rw [BitVec.extractLsb'_toNat, hops, Nat.shiftRight_eq_div_pow]
    omega
  rw [formatControl, BitVec.extractLsb'_append_eq_right, hcount, htype, CtrlType.ofCode_code]
  rfl

/-- MEM_WR reads back the value that its term may hold (log entry 20). -/
theorem memValue_setWidth {sp : Space} {v : Word} (h : unitEncodable sp v = true) :
    memValue sp (v.setWidth 64) = v := by
  unfold memValue
  split
  next => exact dinWord_setWidth v
  next hsp =>
    have hv : v.toNat < 2 ^ 8 := by simpa [unitEncodable, hsp] using h
    apply BitVec.eq_of_toNat_eq
    simp [BitVec.extractLsb'_toNat]
    omega

/-- Settles O1: the opcode selects the instruction's own format, and that format reads its operands back. -/
theorem decodeInvertsEncode : Obligations.DecodeInvertsEncode := by
  intro i hi
  have hopc : opcodeField (encode i).cmd = i.opcode := opcodeField_cmdWord i
  have hops : operandField (encode i).cmd = i.operands := operandField_cmdWord i
  rw [decode, hopc, hops]
  cases i with
  | regRd r => exact formatReg_append r _
  | regWr r v => exact (formatReg_append r _).trans (by simp only [encode, Instr.data, dinWord_setWidth])
  | memRd sp a => exact formatMem_append sp a _
  | memWr sp a v => exact (formatMem_append sp a _).trans (by rw [encode, Instr.data, memValue_setWidth hi])
  | bwWrite n v => exact (formatWidth_append hi _).trans (by simp only [encode, Instr.data, dinWord_setWidth])
  | brRead n | mwWrite n | mrRead n => exact formatWidth_append hi _
  | brAdvance a => exact congrArg (Except.ok ∘ Instr.brAdvance) (toInt_ofInt_amount hi)
  | maskWidth t => exact formatType_append t _
  | seqAdd t p | seqPath t p | seqEmit t p =>
    exact (formatType_append t _).trans (by simp only [encode, Instr.data, dinWord_setWidth])
  | cwOf n t p => exact (formatControl_append n t _).trans (by simp only [encode, Instr.data, dinWord_setWidth])
  | cwPacked n w => exact (formatByte_append n _).trans (by simp only [encode, Instr.data, dinWord_setWidth])
  | cwLong w | cwCount w | cwType w | cwParam w | cwLongoff w | cwIslong w =>
    exact (formatBare_zero _).trans (by simp only [encode, Instr.data, dinWord_setWidth])
  | _ => rfl

/-! ## What the decoder accepts is well formed -/

theorem formatWidth_encodable {f : BitVec 24} {k : Int → Instr} {j : Instr} (h : formatWidth f k = .ok j) :
    ∃ n : Int, widthEncodable n = true ∧ k n = j := by
  obtain ⟨n, -, h⟩ := Machine.formatByte_ok h
  refine ⟨n.toInt, ?_, Except.ok.inj h⟩
  have hlo := BitVec.le_toInt n
  have hhi := BitVec.toInt_lt (x := n)
  simp only [widthEncodable, Bool.and_eq_true, decide_eq_true_eq]
  omega

theorem toInt_amountEncodable (f : BitVec 24) : amountEncodable f.toInt = true := by
  have hlo := BitVec.le_toInt f
  have hhi := BitVec.toInt_lt (x := f)
  simp only [amountEncodable, Bool.and_eq_true, decide_eq_true_eq]
  omega

theorem memValue_encodable (sp : Space) (din : DWord) : unitEncodable sp (memValue sp din) = true := by
  unfold unitEncodable memValue
  split
  next h => simp [h]
  next =>
    simp
    omega

/-- An accepted command is a well-formed instruction: the formats W8, A24 and M bound what they read. -/
theorem wf_of_decode {c : Command} {i : Instr} (h : decode c = .ok i) : i.wf = true := by
  simp only [decode] at h
  split at h
  case h_7 | h_9 | h_12 | h_14 =>
    obtain ⟨n, hn, rfl⟩ := formatWidth_encodable h
    exact hn
  case h_5 =>
    obtain ⟨sp, a, -, rfl⟩ := Machine.formatMem_ok h
    exact memValue_encodable sp c.din
  case h_10 =>
    obtain rfl := Except.ok.inj h
    exact toInt_amountEncodable _
  case h_2 | h_3 =>
    obtain ⟨r, -, rfl⟩ := Machine.formatReg_ok h
    rfl
  case h_4 =>
    obtain ⟨sp, a, -, rfl⟩ := Machine.formatMem_ok h
    rfl
  case h_15 | h_27 | h_29 | h_31 =>
    obtain ⟨t, -, rfl⟩ := Machine.formatType_ok h
    rfl
  case h_16 =>
    obtain ⟨n, t, -, rfl⟩ := Machine.formatControl_ok h
    rfl
  case h_23 =>
    obtain ⟨n, -, hk⟩ := Machine.formatByte_ok h
    obtain rfl := Except.ok.inj hk
    rfl
  case h_35 => cases h
  all_goals
    obtain ⟨-, rfl⟩ := Machine.formatBare_ok h
    rfl

/-- Settles O2: the operand bits are laid out again as they were read, and each format reads only values it lays out. -/
theorem acceptedWordIsItsEncoding : Obligations.AcceptedWordIsItsEncoding :=
  fun _ _ h => ⟨wf_of_decode h, Machine.cmdWord_of_decode h⟩

/-! ## The DIN bits that the decoder looks at -/

theorem dinWord_toNat (din : DWord) : (dinWord din).toNat = din.toNat % 2 ^ 32 := by
  simp [dinWord, BitVec.extractLsb'_toNat]

theorem dinWord_congr {din din' : DWord} (h : din.toNat % 2 ^ 32 = din'.toNat % 2 ^ 32) : dinWord din = dinWord din' :=
  BitVec.eq_of_toNat_eq (by rw [dinWord_toNat, dinWord_toNat, h])

/-- A byte space takes DIN[7:0] alone (40_block_control.md R107). -/
theorem memValue_congr_byte {sp : Space} {din din' : DWord} (hsp : sp ≠ .dict)
    (h : din.toNat % 2 ^ 8 = din'.toNat % 2 ^ 8) : memValue sp din = memValue sp din' := by
  rw [memValue, memValue, if_neg hsp, if_neg hsp]
  apply BitVec.eq_of_toNat_eq
  simp only [BitVec.toNat_setWidth, BitVec.extractLsb'_toNat, Nat.shiftRight_zero, h]

theorem memValue_congr {sp : Space} {din din' : DWord} (h : din.toNat % 2 ^ 32 = din'.toNat % 2 ^ 32) :
    memValue sp din = memValue sp din' := by
  by_cases hsp : sp = .dict
  · rw [memValue, memValue, if_pos hsp, if_pos hsp, dinWord_congr h]
  · exact memValue_congr_byte hsp (by omega)

/-- Under an opcode whose format uses no DIN bit the decoder does not look at DIN. -/
theorem decode_congr_dinless {cmd : Word} (din din' : DWord) (h : (opcodeField cmd).toNat ∈ Machine.dinlessOpcodes) :
    decode ⟨cmd, din⟩ = decode ⟨cmd, din'⟩ := by
  simp only [Machine.dinlessOpcodes, List.mem_cons, List.not_mem_nil, or_false] at h
  unfold decode
  rcases h with h | h | h | h | h | h | h | h | h | h | h | h | h | h | h | h | h | h | h <;> simp only [h]

/-- Under every opcode but MW_WRITE's the decoder looks at DIN[31:0] alone. -/
theorem decode_congr_low {cmd : Word} {din din' : DWord} (hopc : (opcodeField cmd).toNat ≠ 0x20)
    (h : din.toNat % 2 ^ 32 = din'.toNat % 2 ^ 32) : decode ⟨cmd, din⟩ = decode ⟨cmd, din'⟩ := by
  have hmem : ∀ sp, memValue sp din = memValue sp din' := fun sp => memValue_congr h
  simp only [decode, dinWord_congr h, hmem]
  split
  case h_12 hmw => exact absurd hmw hopc
  all_goals rfl

/-- MEM_WR into a byte space looks at DIN[7:0] alone. -/
theorem decode_congr_byte {cmd : Word} {din din' : DWord} (hopc : (opcodeField cmd).toNat = 0x04)
    (hsp : (operandField cmd).extractLsb' 20 4 ≠ Space.dict.num) (h : din.toNat % 2 ^ 8 = din'.toNat % 2 ^ 8) :
    decode ⟨cmd, din⟩ = decode ⟨cmd, din'⟩ := by
  simp only [decode, hopc, formatMem]
  split
  next sp hof =>
    have hne : sp ≠ .dict := by
      rintro rfl
      exact hsp (Space.num_of_ofNum hof).symm
    rw [memValue_congr_byte hne h]
  next => rfl

/-- What a command does depends on DIN through the decoder alone. -/
theorem commandStep_congr {cmd : Word} {din din' : DWord} (h : decode ⟨cmd, din⟩ = decode ⟨cmd, din'⟩)
    (s : Machine.State) : Machine.commandStep ⟨cmd, din⟩ s = Machine.commandStep ⟨cmd, din'⟩ s := by
  rw [Machine.commandStep, Machine.commandStep, h]

/-- SPACE = CMD[23:20] as a number. -/
theorem spaceField_toNat (cmd : Word) :
    ((operandField cmd).extractLsb' 20 4).toNat = cmd.toNat / 2 ^ 20 % 2 ^ 4 := by
  simp only [BitVec.extractLsb'_toNat, operandField_toNat, Nat.shiftRight_eq_div_pow]
  omega

/-- Settles O7: the three kinds of unused DIN bits are bits that the decoder does not look at. -/
theorem unusedDinBitsAreIgnored : Obligations.UnusedDinBitsAreIgnored := by
  intro s cmd din din' h
  simp only [← opcodeField_toNat, ← spaceField_toNat] at h
  apply commandStep_congr
  rcases h with hopc | ⟨hopc, hdin⟩ | ⟨hopc, hsp, hdin⟩
  · exact decode_congr_dinless din din' hopc
  · exact decode_congr_low hopc hdin
  · refine decode_congr_byte hopc (fun hdict => hsp ?_) hdin
    rw [hdict]
    rfl

/-! ## Words and steps -/

/-- Settles O3: ten closed words, each evaluated by the decoder. -/
theorem sampleWordsDecode : Obligations.SampleWordsDecode := by
  unfold Obligations.SampleWordsDecode
  decide

/-- Settles O4: the step's own equations, for a command that decodes, for any command, and for none. -/
theorem stepRunsDecodedCommand : Obligations.StepRunsDecodedCommand :=
  ⟨fun _ _ _ _ hp hd => Machine.step_ok hp hd, fun _ _ _ hp => Machine.step_head hp, fun _ hp => Machine.step_idle hp⟩

end Sys2Proof

namespace Sys2Proof.Machine

open Sys2Proof

/-! # What a command can lead to (40_block_control.md R102, R105; 60_exceptions.md R173 to R176)

The state that REG_WR leaves, said once for each register; the ways a command answers, each with what it says of FAULT;
and what may change in the error record, FAULT and STREAM_STOP. -/

/-! ## The registers that REG_WR writes -/

/-- From s, REG_WR of the value v leaves this state, before its outputs are set (R105). -/
inductive RegWritten (v : Word) (s : State) : Reg → State → Prop where
  | status : RegWritten v s .status { s with lastErr := .ok, errA := 0, errB := 0 }
  | indexBits (hlow : 1 ≤ v.toNat) (hhigh : v.toNat ≤ 15) :
      RegWritten v s .indexBits { s with indexBits := v.setWidth 4 }
  | directLimit (hhigh : v.toNat ≤ 32768) : RegWritten v s .directLimit { s with directLimit := v.setWidth 16 }
  | hTiles (hhigh : v.toNat ≤ 65535) (hclosed : s.encOpen = false) :
      RegWritten v s .hTiles { s with hTiles := v.setWidth 16 }
  | brLen (hcap : v.toNat ≤ s.caps.br.units) :
      RegWritten v s .brLen { s with brLen := v.setWidth 21, brPos := 0, streamStop := false }
  | mrLen (hcap : v.toNat ≤ s.caps.mr.units) : RegWritten v s .mrLen { s with mrLen := v.setWidth 21, mrPos := 0 }
  | dictLen (hcap : v.toNat ≤ s.caps.dict.units) : RegWritten v s .dictLen { s with dictLen := v.setWidth 21 }
  | serLen (hcap : v.toNat ≤ s.caps.ser.units) : RegWritten v s .serLen { s with serLen := v.setWidth 21 }

theorem writeReg_of_regWritten {v : Word} {r : Reg} {s t : State} (cmd : Word) (h : RegWritten v s r t) :
    writeReg cmd r v s = .ok t := by
  cases h with
  | status => rfl
  | indexBits hlow hhigh => rw [writeReg, if_neg (by omega)]
  | hTiles hhigh hclosed => rw [writeReg, if_neg (by omega), if_neg (by simp [hclosed])]
  | directLimit h | brLen h | mrLen h | dictLen h | serLen h => rw [writeReg, if_neg (by omega)]

theorem regWritten_of_writeReg {cmd v : Word} {r : Reg} {s t : State} (h : writeReg cmd r v s = .ok t) :
    RegWritten v s r t := by
  cases r <;> simp only [writeReg, raise] at h
  case status =>
    cases h
    exact .status
  case indexBits =>
    split at h <;> cases h
    exact .indexBits (by omega) (by omega)
  case directLimit =>
    split at h <;> cases h
    exact .directLimit (by omega)
  case hTiles =>
    split at h
    · cases h
    · split at h <;> cases h
      exact .hTiles (by omega) (by simpa using ‹¬ s.encOpen = true›)
  case brLen =>
    split at h <;> cases h
    exact .brLen (by omega)
  case mrLen =>
    split at h <;> cases h
    exact .mrLen (by omega)
  case dictLen =>
    split at h <;> cases h
    exact .dictLen (by omega)
  case serLen =>
    split at h <;> cases h
    exact .serLen (by omega)
  all_goals cases h

/-! ## The ways a command answers -/

/-- A command completed with its effect, or FAULT halted it, or it raised an error of its own while FAULT was 0. -/
theorem exec_next_outcome {i : Instr} {s t : State} (h : exec i s = .next t) :
    (∃ u v, t = u.completed v ∧ Effect i s u ∧ (s.fault = false ∨ i = .softReset ∨ ∃ r, i = .regRd r)) ∨
    (s.fault = true ∧ t = s.raised .halted 0 0) ∨
    (s.fault = false ∧ ∃ e a b, t = s.raised e a b ∧ Failure i s (.raise e a b)) := by
  by_cases hf : s.fault = false
  · obtain ⟨u, v, ho, he⟩ | ⟨e, a, b, ho, hfail⟩ | ⟨sp, a, ho, -⟩ := exec_answers i s (.inl hf) <;> rw [h] at ho
    · exact .inl ⟨u, v, Host.Outcome.next.inj ho, he, .inl hf⟩
    · exact .inr (.inr ⟨hf, e, a, b, Host.Outcome.next.inj ho, hfail⟩)
    · cases ho
  · by_cases hreset : i = .softReset
    · subst hreset
      exact .inl ⟨_, _, (Host.Outcome.next.inj h).symm, rfl, .inr (.inl rfl)⟩
    · by_cases hread : ∃ r, i = .regRd r
      · obtain ⟨r, rfl⟩ := hread
        exact .inl ⟨_, _, (Host.Outcome.next.inj h).symm, rfl, .inr (.inr ⟨r, rfl⟩)⟩
      · have hfault : s.fault = true := by simpa using hf
        rw [exec_halted i s hfault hreset (not_exists.mp hread)] at h
        exact .inr (.inl ⟨hfault, (Host.Outcome.next.inj h).symm⟩)

/-- What every command's run and every undecodable word keep, every step keeps. -/
theorem step_keeps {P : State → Prop} (hpending : ∀ s rest, P s → P { s with pending := rest })
    (hexec : ∀ i s t, P s → exec i s = .next t → P t)
    (hreject : ∀ cmd s t, P s → rejectCommand cmd s = .next t → P t) {s t : State} (hs : P s)
    (h : step s = .next t) : P t := by
  obtain ⟨-, ho⟩ | ⟨c, rest, -, ⟨i, -, ho⟩ | ⟨r, -, ho⟩⟩ := step_cases s <;> rw [ho] at h
  · obtain rfl := Host.Outcome.next.inj h
    exact hs
  · exact hexec i _ t (hpending s rest hs) h
  · exact hreject c.cmd _ t (hpending s rest hs) h

/-! ## The error record, FAULT and STREAM_STOP -/

/-- What a completed command other than SOFT_RESET leaves of the error record, FAULT and STREAM_STOP. -/
structure ErrorFrame (i : Instr) (s t : State) : Prop where
  fault : t.fault = s.fault
  record : (∃ v, i = .regWr .status v) ∨ (t.lastErr = s.lastErr ∧ t.errA = s.errA ∧ t.errB = s.errB)
  streamStop : t.streamStop = s.streamStop ∨ (t.streamStop = false ∧ ∃ v, i = .regWr .brLen v)

theorem ErrorFrame.refl (i : Instr) (s : State) : ErrorFrame i s s := ⟨rfl, .inr ⟨rfl, rfl, rfl⟩, .inl rfl⟩

theorem RegWritten.errorFrame {v : Word} {r : Reg} {s t : State} (h : RegWritten v s r t) :
    ErrorFrame (.regWr r v) s t := by
  cases h with
  | status => exact ⟨rfl, .inl ⟨v, rfl⟩, .inl rfl⟩
  | brLen => exact ⟨rfl, .inr ⟨rfl, rfl, rfl⟩, .inr ⟨rfl, v, rfl⟩⟩
  | _ => exact ⟨rfl, .inr ⟨rfl, rfl, rfl⟩, .inl rfl⟩

theorem BwOnly.errorFrame {i : Instr} {s t : State} (h : BwOnly s t) : ErrorFrame i s t := by
  rw [h.frame]
  exact ⟨rfl, .inr ⟨rfl, rfl, rfl⟩, .inl rfl⟩

/-- Of the commands that complete, only REG_WR and SOFT_RESET write the error record or STREAM_STOP. -/
theorem Effect.errorFrame {i : Instr} {s t : State} (he : Effect i s t) (hi : i ≠ .softReset) : ErrorFrame i s t := by
  cases i with
  | softReset => exact absurd rfl hi
  | regWr r v =>
    obtain ⟨cmd, hw⟩ := he
    exact (regWritten_of_writeReg hw).errorFrame
  | memWr sp a v =>
    obtain ⟨-, -, -, rfl⟩ := he
    exact ⟨by simp, .inr (by simp), .inl (by simp)⟩
  | bwWrite n v => exact BwOnly.errorFrame he
  | seqEmit ty p =>
    obtain ⟨-, u, pend, op, hbw, rfl, -⟩ := he
    obtain ⟨hfault, hrecord, hstop⟩ := hbw.errorFrame (i := .seqEmit ty p)
    exact ⟨by simpa using hfault, by simpa using hrecord, by simpa using hstop⟩
  | seqFrameEnd =>
    obtain ⟨-, u, hbw, rfl⟩ := he
    exact { hbw.errorFrame (i := .seqFrameEnd) with }
  | seqBuild =>
    obtain ⟨-, words, dd, p, -, -, -, -, rfl⟩ := he
    exact { ErrorFrame.refl _ s with }
  | seqAdd ty p =>
    obtain ⟨-, op, f, -, rfl⟩ := he
    exact { ErrorFrame.refl _ s with }
  | seqClear =>
    obtain ⟨-, rfl⟩ := he
    exact { ErrorFrame.refl _ s with }
  | seqFrameBegin =>
    obtain ⟨-, -, rfl⟩ := he
    exact { ErrorFrame.refl _ s with }
  | mwWrite n v =>
    obtain ⟨k, -, rfl⟩ := he
    exact { ErrorFrame.refl _ s with }
  | dictPack | dictUnpack =>
    obtain ⟨units, -, rfl⟩ := he
    exact { ErrorFrame.refl _ s with }
  | brAdvance | mrRead | cwResolve | streamNext =>
    obtain ⟨pos, rfl⟩ := he
    exact { ErrorFrame.refl _ s with }
  | bwClear | mwClear =>
    obtain rfl := he
    exact { ErrorFrame.refl _ s with }
  | _ =>
    obtain rfl := he
    exact .refl _ _

/-- REG_WR to STATUS clears the record. -/
theorem Effect.record_of_status {v : Word} {s t : State} (he : Effect (.regWr .status v) s t) :
    t.lastErr = .ok ∧ t.errA = 0 ∧ t.errB = 0 := by
  obtain ⟨cmd, hw⟩ := he
  cases regWritten_of_writeReg hw
  exact ⟨rfl, rfl, rfl⟩

/-- Settles O10: a completed command writes the record only as `ErrorFrame` says, and an error writes its own code, and
sets FAULT only where it is one of the two that halt. -/
theorem errorRecordIsKept : Obligations.ErrorRecordIsKept := by
  intro s t i h
  obtain ⟨u, v, rfl, he, -⟩ | ⟨hf, rfl⟩ | ⟨-, e, a, b, rfl, hok, -⟩ := exec_next_outcome h
  · refine ⟨fun _ hreset hstatus => ?_, ?_, fun hne => absurd rfl hne, fun _ _ hreset => (he.errorFrame hreset).fault⟩
    · exact (he.errorFrame hreset).record.resolve_left fun ⟨v, hv⟩ => hstatus v hv
    · rintro - ⟨v, rfl⟩
      exact he.record_of_status
  · exact ⟨nofun, nofun, fun _ hne => absurd rfl hne, fun _ _ _ => by simp [hf]⟩
  · refine ⟨fun hr => absurd hr hok, fun hr => absurd hr hok, fun _ hne => by simpa using fun h => absurd h hne, ?_⟩
    intro h1 h2 _
    simp only [State.raised_resp] at h1 h2
    simp [ErrCode.setsFault_eq_decide, h1, h2]

/-- A completed command sets STREAM_STOP to 0 or leaves it. -/
theorem Effect.streamStop_le {i : Instr} {s t : State} (he : Effect i s t) (hs : s.streamStop = false) :
    t.streamStop = false := by
  by_cases hi : i = .softReset
  · subst hi
    obtain rfl := he
    rfl
  · obtain h | ⟨h, -⟩ := (he.errorFrame hi).streamStop
    · rw [h, hs]
    · exact h

/-- While STREAM_STOP is 1, CW_RESOLVE and STREAM_NEXT report it and do nothing else. -/
theorem exec_streamStopped {s : State} (hf : s.fault = false) (hs : s.streamStop = true) :
    exec .cwResolve s = .next (reportState s .streamStopped 0 0) ∧
      exec .streamNext s = .next (reportState s .streamStopped 0 0) := by
  have hreport : s.raised .streamStopped 0 0 = reportState s .streamStopped 0 0 :=
    raised_report s 0 0 nofun rfl rfl
  constructor
  · simp only [exec, execCwResolve, command_ready hf, if_pos hs, finish_raise, hreport]
  · simp only [exec, execStreamNext, command_ready hf, if_pos hs, finish_raise, hreport]

/-- Settles O11: only an error with `stopsStream` sets the bit, `Failure` names the two commands that raise one, and of
the completed commands only REG_WR of BR_LEN and SOFT_RESET write it. -/
theorem streamStopLifecycle : Obligations.StreamStopLifecycle := by
  refine ⟨fun s t i h hs => ?_, fun s t i h hresp => ?_, fun s => exec_streamStopped, fun s t i h hs ht => ?_⟩
  · obtain ⟨u, v, rfl, he, -⟩ | ⟨-, rfl⟩ | ⟨-, e, a, b, rfl, -⟩ := exec_next_outcome h
    · simp [he.streamStop_le hs]
    · simp [hs, ErrCode.stopsStream]
    · simp [hs, ErrCode.stopsStream_eq_decide]
  · obtain ⟨u, v, rfl, he, -⟩ | ⟨-, rfl⟩ | ⟨-, e, a, b, rfl, -, -, hstops, -⟩ := exec_next_outcome h
    · simp at hresp
    · simp at hresp
    · exact hstops (by simpa [ErrCode.stopsStream_eq_decide] using hresp)
  · obtain ⟨u, v, rfl, he, -⟩ | ⟨-, rfl⟩ | ⟨-, e, a, b, rfl, -⟩ := exec_next_outcome h
    · by_cases hi : i = .softReset
      · exact .inl hi
      · obtain hsame | ⟨-, hbr⟩ := (he.errorFrame hi).streamStop
        · exact absurd ((hsame.trans hs).symm.trans ht) nofun
        · exact .inr hbr
    · simp [hs] at ht
    · simp [hs] at ht

/-! ## The spaces, the cursors and the constants -/

/-- Each space and cursor differs from s to t only after one of its own commands (20_memory.md R51; 10_state.md R34,
R37, R45). -/
structure ChangedBy (i : Instr) (s t : State) : Prop where
  br : t.br ≠ s.br → ∃ a v, i = .memWr .br a v
  bw : t.bw ≠ s.bw → (∃ n v, i = .bwWrite n v) ∨ (∃ ty p, i = .seqEmit ty p) ∨ i = .seqFrameEnd
  mr : t.mr ≠ s.mr → ∃ a v, i = .memWr .mr a v
  mw : t.mw ≠ s.mw → ∃ k v, i = .mwWrite k v
  dict : t.dict ≠ s.dict → (∃ a v, i = .memWr .dict a v) ∨ i = .seqBuild ∨ i = .dictUnpack
  ser : t.ser ≠ s.ser → (∃ a v, i = .memWr .ser a v) ∨ i = .dictPack
  brPos : t.brPos ≠ s.brPos →
    (∃ a, i = .brAdvance a) ∨ i = .cwResolve ∨ i = .streamNext ∨ ∃ v, i = .regWr .brLen v
  mrPos : t.mrPos ≠ s.mrPos → (∃ k, i = .mrRead k) ∨ ∃ v, i = .regWr .mrLen v
  caps : t.caps = s.caps
  pending : t.pending = s.pending

/-- Nothing changed. -/
theorem ChangedBy.refl (i : Instr) (s : State) : ChangedBy i s s := by
  constructor <;> first | rfl | exact fun h => absurd rfl h

theorem RegWritten.changedBy {v : Word} {r : Reg} {s t : State} (h : RegWritten v s r t) :
    ChangedBy (.regWr r v) s t := by
  cases h with
  | brLen =>
    exact { ChangedBy.refl (.regWr .brLen v) s with brPos := fun _ => .inr (.inr (.inr ⟨v, rfl⟩)) }
  | mrLen => exact { ChangedBy.refl (.regWr .mrLen v) s with mrPos := fun _ => .inr ⟨v, rfl⟩ }
  | _ => exact { ChangedBy.refl _ s with }

theorem BwOnly.changedBy {i : Instr} {s t : State} (h : BwOnly s t)
    (hi : (∃ n v, i = .bwWrite n v) ∨ (∃ ty p, i = .seqEmit ty p) ∨ i = .seqFrameEnd) : ChangedBy i s t := by
  rw [h.frame]
  exact { ChangedBy.refl i s with bw := fun _ => hi }

theorem withUnit_changedBy (s : State) {sp : Space} (a : BitVec 20) (v : Word) (hbw : sp ≠ .bw) (hmw : sp ≠ .mw) :
    ChangedBy (.memWr sp a v) s (s.withUnit sp a.toNat v) := by
  cases sp with
  | br => exact { ChangedBy.refl (.memWr .br a v) s with br := fun _ => ⟨a, v, rfl⟩ }
  | bw => exact absurd rfl hbw
  | mr => exact { ChangedBy.refl (.memWr .mr a v) s with mr := fun _ => ⟨a, v, rfl⟩ }
  | mw => exact absurd rfl hmw
  | dict => exact { ChangedBy.refl (.memWr .dict a v) s with dict := fun _ => .inl ⟨a, v, rfl⟩ }
  | ser => exact { ChangedBy.refl (.memWr .ser a v) s with ser := fun _ => .inl ⟨a, v, rfl⟩ }

theorem Effect.changedBy {i : Instr} {s t : State} (he : Effect i s t) (hi : i ≠ .softReset) : ChangedBy i s t := by
  cases i with
  | softReset => exact absurd rfl hi
  | regWr r v =>
    obtain ⟨cmd, hw⟩ := he
    exact (regWritten_of_writeReg hw).changedBy
  | memWr sp a v =>
    obtain ⟨hbw, hmw, -, rfl⟩ := he
    exact withUnit_changedBy s a v hbw hmw
  | bwWrite n v => exact BwOnly.changedBy he (.inl ⟨n, v, rfl⟩)
  | seqEmit ty p =>
    obtain ⟨-, u, pend, op, hbw, rfl, -⟩ := he
    have hu : ChangedBy (.seqEmit ty p) s u := hbw.changedBy (.inr (.inl ⟨ty, p, rfl⟩))
    constructor <;> simp only [advanceColumn_br, advanceColumn_bw, advanceColumn_mr, advanceColumn_mw,
      advanceColumn_dict, advanceColumn_ser, advanceColumn_brPos, advanceColumn_mrPos, advanceColumn_caps,
      advanceColumn_pending]
    exacts [hu.br, hu.bw, hu.mr, hu.mw, hu.dict, hu.ser, hu.brPos, hu.mrPos, hu.caps, hu.pending]
  | seqFrameEnd =>
    obtain ⟨-, u, hbw, rfl⟩ := he
    exact { hbw.changedBy (i := .seqFrameEnd) (.inr (.inr rfl)) with }
  | seqBuild =>
    obtain ⟨-, words, dd, p, -, -, -, -, rfl⟩ := he
    exact { ChangedBy.refl .seqBuild s with dict := fun _ => .inr (.inl rfl) }
  | dictUnpack =>
    obtain ⟨words, -, rfl⟩ := he
    exact { ChangedBy.refl .dictUnpack s with dict := fun _ => .inr (.inr rfl) }
  | dictPack =>
    obtain ⟨bytes, -, rfl⟩ := he
    exact { ChangedBy.refl .dictPack s with ser := fun _ => .inr rfl }
  | mwWrite n v =>
    obtain ⟨k, -, rfl⟩ := he
    exact { ChangedBy.refl (.mwWrite n v) s with mw := fun _ => ⟨n, v, rfl⟩ }
  | brAdvance a =>
    obtain ⟨pos, rfl⟩ := he
    exact { ChangedBy.refl (.brAdvance a) s with brPos := fun _ => .inl ⟨a, rfl⟩ }
  | cwResolve =>
    obtain ⟨pos, rfl⟩ := he
    exact { ChangedBy.refl .cwResolve s with brPos := fun _ => .inr (.inl rfl) }
  | streamNext =>
    obtain ⟨pos, rfl⟩ := he
    exact { ChangedBy.refl .streamNext s with brPos := fun _ => .inr (.inr (.inl rfl)) }
  | mrRead k =>
    obtain ⟨pos, rfl⟩ := he
    exact { ChangedBy.refl (.mrRead k) s with mrPos := fun _ => .inl ⟨k, rfl⟩ }
  | seqAdd ty p =>
    obtain ⟨-, op, f, -, rfl⟩ := he
    exact { ChangedBy.refl (.seqAdd ty p) s with }
  | seqClear =>
    obtain ⟨-, rfl⟩ := he
    exact { ChangedBy.refl .seqClear s with }
  | seqFrameBegin =>
    obtain ⟨-, -, rfl⟩ := he
    exact { ChangedBy.refl .seqFrameBegin s with }
  | bwClear =>
    obtain rfl := he
    exact { ChangedBy.refl .bwClear s with }
  | mwClear =>
    obtain rfl := he
    exact { ChangedBy.refl .mwClear s with }
  | _ =>
    obtain rfl := he
    exact .refl _ _

/-- An error changes none of them. -/
theorem raised_changedBy (i : Instr) (s : State) (e : ErrCode) (a b : Word) : ChangedBy i s (s.raised e a b) :=
  { ChangedBy.refl i s with }

/-- Settles O12: a completed command changes what its `Effect` says, and an error none of these. -/
theorem stateChangesOnlyByItsCommands : Obligations.StateChangesOnlyByItsCommands := by
  intro s t i h hi
  have hchanged : ChangedBy i s t := by
    obtain ⟨u, v, rfl, he, -⟩ | ⟨-, rfl⟩ | ⟨-, e, a, b, rfl, -⟩ := exec_next_outcome h
    · exact { he.changedBy hi with }
    · exact raised_changedBy ..
    · exact raised_changedBy ..
  obtain ⟨hbr, hbw, hmr, hmw, hdict, hser, hbrPos, hmrPos, hcaps, hpending⟩ := hchanged
  exact ⟨hbr, hbw, hmr, hmw, hdict, hser, hbrPos, hmrPos, hcaps, hpending⟩

end Sys2Proof.Machine

namespace Sys2Proof.Machine

open Sys2Proof

/-! # The invariants (10_state.md, 20_memory.md B6)

`State.Legal` is nine rules. A command's `Effect` touches the fields of a few of them; for those the rule is proved
again, and the others are kept as they are. An error touches the rule of the error record alone. -/

/-! ## Every step keeps the canonical form of the spaces -/

theorem RegWritten.memoriesCanonical {v : Word} {r : Reg} {s t : State} (h : RegWritten v s r t)
    (hs : s.MemoriesCanonical) : t.MemoriesCanonical := by
  cases h <;> exact hs

theorem Effect.memoriesCanonical {i : Instr} {s t : State} (he : Effect i s t) (hs : s.MemoriesCanonical) :
    t.MemoriesCanonical := by
  cases i with
  | softReset =>
    obtain rfl := he
    exact s.resetAction_memoriesCanonical
  | regWr r v =>
    obtain ⟨cmd, hw⟩ := he
    exact (regWritten_of_writeReg hw).memoriesCanonical hs
  | memWr sp a v =>
    obtain ⟨-, -, -, rfl⟩ := he
    exact State.withUnit_memoriesCanonical hs sp _ v
  | bwWrite n v => exact BwOnly.memoriesCanonical he hs
  | mwWrite n v =>
    obtain ⟨k, -, rfl⟩ := he
    exact maskWriter_memoriesCanonical hs _ _ _
  | dictPack =>
    obtain ⟨bytes, -, rfl⟩ := he
    exact serializer_memoriesCanonical hs _ _ _
  | dictUnpack =>
    obtain ⟨words, -, rfl⟩ := he
    exact dictionary_memoriesCanonical hs _ _ _
  | seqBuild =>
    obtain ⟨-, words, dd, p, -, -, -, -, rfl⟩ := he
    exact dictionary_memoriesCanonical hs 0 words (BitVec.ofNat 21 words.length)
  | seqEmit ty p =>
    obtain ⟨-, u, pend, op, hbw, rfl, -⟩ := he
    simpa [State.MemoriesCanonical] using hbw.memoriesCanonical hs
  | seqFrameEnd =>
    obtain ⟨-, u, hbw, rfl⟩ := he
    exact hbw.memoriesCanonical hs
  | seqAdd ty p =>
    obtain ⟨-, op, f, -, rfl⟩ := he
    exact hs
  | seqClear =>
    obtain ⟨-, rfl⟩ := he
    exact hs
  | seqFrameBegin =>
    obtain ⟨-, -, rfl⟩ := he
    exact hs
  | brAdvance | mrRead | cwResolve | streamNext =>
    obtain ⟨pos, rfl⟩ := he
    exact hs
  | _ =>
    obtain rfl := he
    exact hs

/-- Settles O58: a completed command keeps the form by its `Effect`, and an error touches no space. -/
theorem stepKeepsMemoriesCanonical : Obligations.StepKeepsMemoriesCanonical := by
  intro s t
  refine step_keeps (P := State.MemoriesCanonical) (fun _ _ hs => hs) (fun i s t hs h => ?_) (fun cmd s t hs h => ?_)
  · obtain ⟨u, v, rfl, he, -⟩ | ⟨-, rfl⟩ | ⟨-, e, a, b, rfl, -⟩ := exec_next_outcome h
    · exact he.memoriesCanonical hs
    · exact hs
    · exact hs
  · obtain ⟨e, a, b, ho⟩ := rejectCommand_eq_raised cmd s
    obtain rfl := Host.Outcome.next.inj (h.symm.trans ho)
    exact hs

/-! ## Lengths and units -/

/-- A count up to a capacity fits a 21-bit length register. -/
theorem toNat_ofNat_of_le_units {c : Config.UnitCapacity} {n : Nat} (h : n ≤ c.units) :
    (BitVec.ofNat 21 n).toNat = n := by
  have := c.atMost
  rw [BitVec.toNat_ofNat]
  omega

theorem toNat_setWidth_of_le_units {c : Config.UnitCapacity} {v : Word} (h : v.toNat ≤ c.units) :
    (v.setWidth 21).toNat = v.toNat := by
  rw [← BitVec.ofNat_toNat, toNat_ofNat_of_le_units h]

/-- The rule of the lengths, space by space. -/
theorem lengthsInRange_iff {s : State} :
    s.LengthsInRange ↔
      s.brLen.toNat ≤ s.caps.br.units ∧ bytesFor s.bwBits.toNat ≤ s.caps.bw.units ∧
      s.mrLen.toNat ≤ s.caps.mr.units ∧ s.mwLen.toNat ≤ s.caps.mw.units ∧
      s.dictLen.toNat ≤ s.caps.dict.units ∧ s.serLen.toNat ≤ s.caps.ser.units := by
  refine ⟨fun h => ⟨h .br, h .bw, h .mr, h .mw, h .dict, h .ser⟩, ?_⟩
  rintro ⟨hbr, hbw, hmr, hmw, hdict, hser⟩ (_ | _ | _ | _ | _ | _)
  exacts [hbr, hbw, hmr, hmw, hdict, hser]

/-- Units written from address a on lie below the capacity if the last one does. -/
theorem writeAll_in_range {w c a : Nat} {m : List (Nat × BitVec w)} {vs : List (BitVec w)} (hm : ∀ e ∈ m, e.1 < c)
    (h : a + vs.length ≤ c) : ∀ e ∈ Memory.writeAll m a vs, e.1 < c := by
  intro e he
  obtain hold | ⟨-, hnew⟩ := Memory.mem_writeAll he
  · exact hm e hold
  · omega

theorem write_in_range {w c a : Nat} {m : List (Nat × BitVec w)} {v : BitVec w} (hm : ∀ e ∈ m, e.1 < c) (h : a < c) :
    ∀ e ∈ Memory.write m a v, e.1 < c :=
  writeAll_in_range (vs := [v]) hm h

theorem State.withUnit_unitsInRange {s : State} (h : s.UnitsInRange) {sp : Space} {a : Nat} (v : Word)
    (ha : a < s.capacity sp) : (s.withUnit sp a v).UnitsInRange := by
  obtain ⟨hbr, hbw, hmr, hmw, hdict, hser⟩ := h
  cases sp
  · exact ⟨write_in_range hbr ha, hbw, hmr, hmw, hdict, hser⟩
  · exact ⟨hbr, write_in_range hbw ha, hmr, hmw, hdict, hser⟩
  · exact ⟨hbr, hbw, write_in_range hmr ha, hmw, hdict, hser⟩
  · exact ⟨hbr, hbw, hmr, write_in_range hmw ha, hdict, hser⟩
  · exact ⟨hbr, hbw, hmr, hmw, write_in_range hdict ha, hser⟩
  · exact ⟨hbr, hbw, hmr, hmw, hdict, write_in_range hser ha⟩

/-! ## The error record -/

theorem State.Legal.completed {s : State} (h : s.Legal) (v : DWord) : (s.completed v).Legal :=
  { h with errors := ⟨fun hne => absurd rfl hne, h.errors.2⟩ }

/-- An error that is raised while FAULT is 0, or that sets FAULT, or HALTED, keeps the record's rule. -/
theorem State.Legal.raised {s : State} (h : s.Legal) {e : ErrCode} (a b : Word)
    (he : s.fault = false ∨ e.setsFault = true ∨ e = .halted) : (s.raised e a b).Legal := by
  obtain ⟨-, hlast, hfault⟩ := h.errors
  refine { h with errors := ⟨fun _ => rfl, ?_, ?_⟩ }
  · rw [State.raised_lastErr]
    split
    · exact hlast
    · assumption
  · rw [State.raised_fault, State.raised_lastErr, ErrCode.setsFault_eq_decide] at *
    split
    next hhalted => simpa [hhalted] using hfault
    next => obtain hf | hf | hf := he <;> simp_all

/-! ## The bit writer and the mask writer -/

theorem bytesFor_zero_le (c : Nat) : bytesFor (0 : Word).toNat ≤ c := by simp [bytesFor]

theorem emptyWriter_legal {s : State} (h : s.Legal) : ({ s with bwBits := 0 } : State).Legal :=
  { h with
    lengths := lengthsInRange_iff.2 <| by
      obtain ⟨hbr, -, hmr, hmw, hdict, hser⟩ := lengthsInRange_iff.1 h.lengths
      exact ⟨hbr, bytesFor_zero_le _, hmr, hmw, hdict, hser⟩
    bitWriter := bitWriterLegal_of_empty rfl }

/-- What BW_WRITE and the encoder's writes leave. -/
theorem BwOnly.legal {s t : State} (h : BwOnly s t) (hs : s.Legal) : t.Legal := by
  have hmem := h.memoriesCanonical hs.memories
  obtain ⟨hbr, hbw, hmr, hmw, hdict, hser⟩ := hs.units
  obtain ⟨lbr, lbw, lmr, lmw, ldict, lser⟩ := lengthsInRange_iff.1 hs.lengths
  have hrange := h.range hbw
  have hroom := h.room lbw
  have hwriter := h.writers hs.bitWriter
  rw [h.frame] at hmem hroom hwriter ⊢
  exact { hs with
    memories := hmem
    units := ⟨hbr, hrange, hmr, hmw, hdict, hser⟩
    lengths := lengthsInRange_iff.2 ⟨lbr, hroom, lmr, lmw, ldict, lser⟩
    bitWriter := hwriter }

theorem maskWriter_legal {s : State} (h : s.Legal) {bs : List Byte}
    (hroom : s.mwLen.toNat + bs.length ≤ s.caps.mw.units) :
    ({ s with
      mw := Memory.writeAll s.mw s.mwLen.toNat bs
      mwLen := BitVec.ofNat 21 (s.mwLen.toNat + bs.length) } : State).Legal := by
  obtain ⟨hbr, hbw, hmr, hmw, hdict, hser⟩ := h.units
  obtain ⟨lbr, lbw, lmr, -, ldict, lser⟩ := lengthsInRange_iff.1 h.lengths
  have hlen := toNat_ofNat_of_le_units hroom
  refine { h with
    memories := maskWriter_memoriesCanonical h.memories _ _ _
    units := ⟨hbr, hbw, hmr, writeAll_in_range hmw hroom, hdict, hser⟩
    lengths := lengthsInRange_iff.2 ⟨lbr, lbw, lmr, hlen.trans_le hroom, ldict, lser⟩
    maskWriter := ?_ }
  intro a ha
  rw [hlen] at ha
  rw [Memory.read_writeAll]
  split
  next hin =>
    rw [List.getElem?_eq_getElem (by omega)]
    rfl
  next hout => exact h.maskWriter a (by omega)

theorem emptyMaskWriter_legal {s : State} (h : s.Legal) : ({ s with mwLen := 0 } : State).Legal :=
  { h with
    lengths := lengthsInRange_iff.2 <| by
      obtain ⟨hbr, hbw, hmr, -, hdict, hser⟩ := lengthsInRange_iff.1 h.lengths
      exact ⟨hbr, hbw, hmr, Nat.zero_le _, hdict, hser⟩
    maskWriter := fun _ ha => absurd ha (Nat.not_lt_zero _) }

/-! ## The dictionary and its serialization -/

theorem dictionary_legal {s : State} (h : s.Legal) {ws : List Word} (hroom : ws.length ≤ s.caps.dict.units) :
    ({ s with dict := Memory.writeAll s.dict 0 ws, dictLen := BitVec.ofNat 21 ws.length } : State).Legal := by
  obtain ⟨hbr, hbw, hmr, hmw, hdict, hser⟩ := h.units
  obtain ⟨lbr, lbw, lmr, lmw, -, lser⟩ := lengthsInRange_iff.1 h.lengths
  exact { h with
    memories := dictionary_memoriesCanonical h.memories _ _ _
    units := ⟨hbr, hbw, hmr, hmw, writeAll_in_range hdict ((Nat.zero_add _).trans_le hroom), hser⟩
    lengths := lengthsInRange_iff.2 ⟨lbr, lbw, lmr, lmw, (toNat_ofNat_of_le_units hroom).trans_le hroom, lser⟩ }

theorem serialization_legal {s : State} (h : s.Legal) {bs : List Byte} (hroom : bs.length ≤ s.caps.ser.units) :
    ({ s with ser := Memory.writeAll s.ser 0 bs, serLen := BitVec.ofNat 21 bs.length } : State).Legal := by
  obtain ⟨hbr, hbw, hmr, hmw, hdict, hser⟩ := h.units
  obtain ⟨lbr, lbw, lmr, lmw, ldict, -⟩ := lengthsInRange_iff.1 h.lengths
  exact { h with
    memories := serializer_memoriesCanonical h.memories _ _ _
    units := ⟨hbr, hbw, hmr, hmw, hdict, writeAll_in_range hser ((Nat.zero_add _).trans_le hroom)⟩
    lengths := lengthsInRange_iff.2 ⟨lbr, lbw, lmr, lmw, ldict, (toNat_ofNat_of_le_units hroom).trans_le hroom⟩ }

/-! ## Block control -/

/-- A register that REG_WR stores keeps the rules, in a block that is not halted. -/
theorem RegWritten.legal {v : Word} {r : Reg} {s t : State} (h : RegWritten v s r t) (hs : s.Legal)
    (hf : s.fault = false) : t.Legal := by
  obtain ⟨hbr, hbw, hmr, hmw, hdict, hser⟩ := lengthsInRange_iff.1 hs.lengths
  cases h with
  | status => exact { hs with errors := ⟨hs.errors.1, nofun, fun hfault => absurd (hf.symm.trans hfault) nofun⟩ }
  | indexBits hlow hhigh =>
    refine { hs with config := ⟨?_, hs.config.2⟩ }
    rw [BitVec.toNat_setWidth]
    omega
  | directLimit hhigh =>
    refine { hs with config := ⟨hs.config.1, ?_⟩ }
    rw [BitVec.toNat_setWidth]
    omega
  | hTiles hhigh hclosed =>
    obtain ⟨hopen, hidle, h29, -⟩ := hs.encoder
    obtain ⟨hpend, hcol⟩ := hidle hclosed
    refine { hs with encoder := ⟨hopen, hidle, h29, fun _ => ⟨hpend, hcol⟩, fun hne => ?_, fun h => absurd hpend h⟩ }
    rw [hcol]
    exact Nat.pos_of_ne_zero fun h0 => hne (BitVec.eq_of_toNat_eq h0)
  | brLen hcap =>
    exact { hs with
      lengths := lengthsInRange_iff.2 ⟨(toNat_setWidth_of_le_units hcap).trans_le hcap, hbw, hmr, hmw, hdict, hser⟩ }
  | mrLen hcap =>
    exact { hs with
      lengths := lengthsInRange_iff.2 ⟨hbr, hbw, (toNat_setWidth_of_le_units hcap).trans_le hcap, hmw, hdict, hser⟩ }
  | dictLen hcap =>
    exact { hs with
      lengths := lengthsInRange_iff.2 ⟨hbr, hbw, hmr, hmw, (toNat_setWidth_of_le_units hcap).trans_le hcap, hser⟩ }
  | serLen hcap =>
    exact { hs with
      lengths := lengthsInRange_iff.2 ⟨hbr, hbw, hmr, hmw, hdict, (toNat_setWidth_of_le_units hcap).trans_le hcap⟩ }

/-- A unit of a space that the host may write. -/
theorem withUnit_legal {s : State} (h : s.Legal) {sp : Space} {a : Nat} (v : Word) (hbw : sp ≠ .bw) (hmw : sp ≠ .mw)
    (ha : a < s.capacity sp) : (s.withUnit sp a v).Legal := by
  have hmem := State.withUnit_memoriesCanonical h.memories sp a v
  have hunits := State.withUnit_unitsInRange h.units v ha
  cases sp with
  | bw => exact absurd rfl hbw
  | mw => exact absurd rfl hmw
  | br | mr | dict | ser => exact { h with memories := hmem, units := hunits }

theorem emptyTables_legal {s : State} (hseq : s.phase = .accumulate) (hopt : s.opt = []) (hpaths : s.paths = [])
    (hregs : s.seqIb = 0 ∧ s.seqDirect = 0 ∧ s.seqBlocks = 0) : s.SequencerLegal := by
  refine ⟨by simp [hopt], by simp [hopt], fun _ => ⟨hpaths, hregs⟩, fun hbuilt => ?_⟩
  exact absurd (hseq.symm.trans hbuilt) nofun

theorem closedEncoder_legal {s : State} (hclosed : s.encOpen = false) (hpend : s.encPend = 0) (hcol : s.encCol = 0) :
    s.EncoderLegal := by
  refine ⟨fun ho => absurd (hclosed.symm.trans ho) nofun, fun _ => ⟨hpend, hcol⟩, by simp [hpend],
    fun _ => ⟨hpend, hcol⟩, fun hne => ?_, fun h => absurd hpend h⟩
  rw [hcol]
  exact Nat.pos_of_ne_zero fun h0 => hne (BitVec.eq_of_toNat_eq h0)

theorem resetAction_legal (s : State) : s.resetAction.Legal where
  memories := s.resetAction_memoriesCanonical
  units := ⟨nofun, nofun, nofun, nofun, nofun, nofun⟩
  lengths := lengthsInRange_iff.2
    ⟨Nat.zero_le _, bytesFor_zero_le _, Nat.zero_le _, Nat.zero_le _, Nat.zero_le _, Nat.zero_le _⟩
  config := ⟨(by decide : 1 ≤ (12 : BitVec 4).toNat), (by decide : (4096 : BitVec 16).toNat ≤ 32768)⟩
  bitWriter := bitWriterLegal_of_empty rfl
  maskWriter := fun _ ha => absurd ha (Nat.not_lt_zero _)
  sequencer := emptyTables_legal rfl rfl rfl ⟨rfl, rfl, rfl⟩
  encoder := closedEncoder_legal rfl rfl rfl
  errors := ⟨fun h => absurd rfl h, nofun, nofun⟩

/-! ## The sequencer -/

theorem clearedSequencer_legal {s : State} (h : s.Legal) (hclosed : s.encOpen = false) :
    ({ s with opt := [], paths := [], phase := .accumulate, seqDirect := 0, seqBlocks := 0, seqIb := 0 } :
      State).Legal := by
  obtain ⟨hpend, hcol⟩ := h.encoder.2.1 hclosed
  exact { h with
    sequencer := emptyTables_legal rfl rfl rfl ⟨rfl, rfl, rfl⟩
    encoder := closedEncoder_legal hclosed hpend hcol }

theorem countedUse_legal {s : State} (h : s.Legal) (hphase : s.phase = .accumulate) {op : Op} (f : Word)
    (hroom : Table.find s.opt op = none → s.opt.length ≠ s.caps.optab.ops) :
    ({ s with opt := Table.set s.opt op f } : State).Legal := by
  obtain ⟨hwf, hlen, hacc, -⟩ := h.sequencer
  refine { h with sequencer := ⟨Table.wf_set op f hwf, ?_, hacc, fun hb => absurd (hphase.symm.trans hb) nofun⟩ }
  rw [Table.length_set op f hwf]
  split
  next hnone => exact Nat.lt_of_le_of_ne hlen (hroom hnone)
  next => exact hlen

/-- D is at most the 2^IB indices of a fragment. -/
theorem directSlots_le (ib limit : Nat) : directSlots ib limit ≤ 2 ^ ib := min_le_right _ _

theorem directCount_eq_min (n d : Nat) : directCount n d = min n d := by
  unfold directCount
  split <;> omega

/-- The index fragment of a rank below N is one of the 2^IB that IB bits name (44_sequencer.md R146 to R148). -/
theorem pathOfRank_fits {ib : BitVec 4} {n d k : Nat} (hd : d ≤ 2 ^ ib.toNat) (hn : n ≤ d + 16 * (2 ^ ib.toNat - d))
    (hk : k < n) : (pathOfRank ib (directCount n d) k).Fits ib := by
  have hpow : 2 ^ ib.toNat ≤ 2 ^ 15 := Nat.pow_le_pow_right (by omega) (by have := ib.isLt; omega)
  have hindex : ∀ i, i < 2 ^ ib.toNat → (BitVec.ofNat 15 i).toNat < 2 ^ ib.toNat := fun i hi =>
    (BitVec.toNat_ofNat i 15).trans_lt ((Nat.mod_le i _).trans_lt hi)
  rw [directCount_eq_min]
  unfold pathOfRank
  split
  next => exact ⟨rfl, hindex k (by omega)⟩
  next hge =>
    refine ⟨rfl, hindex _ ?_⟩
    unfold blockSlots
    omega

/-- The rank of an op of OPT is below N. -/
theorem rank_lt {opt : List (Op × Word)} {e : Op × Word} (h : e ∈ opt) :
    ((rankOrder opt).map Prod.fst).idxOf e.1 < opt.length := by
  rw [← rankOrder_length opt, ← List.length_map (f := Prod.fst)]
  exact List.idxOf_lt_length_of_mem (List.mem_map_of_mem (mem_rankOrder.2 h))

/-- PATHS after a build holds the ops of OPT, in its order. -/
theorem buildPaths_ops (ib : BitVec 4) (dd : Nat) (opt : List (Op × Word)) :
    (buildPaths ib dd opt).map Prod.fst = opt.map Prod.fst := by
  simp [buildPaths, Function.comp_def]

theorem builtSequencer_legal {s : State} (h : s.Legal) (hclosed : s.encOpen = false) {ws : List Word} {dd p : Nat}
    (hroom : ws.length ≤ s.caps.dict.units)
    (hdd : dd = directCount s.opt.length (directSlots s.indexBits.toNat s.directLimit.toNat))
    (havail : s.opt.length ≤ availableSlots s.indexBits.toNat s.directLimit.toNat) :
    ({ s with
      dict := Memory.writeAll s.dict 0 ws
      dictLen := BitVec.ofNat 21 ws.length
      paths := buildPaths s.indexBits dd s.opt
      phase := .built
      seqIb := s.indexBits
      seqDirect := BitVec.ofNat 16 dd
      seqBlocks := BitVec.ofNat 16 p } : State).Legal := by
  obtain ⟨hwf, hlen, -, -⟩ := h.sequencer
  obtain ⟨hpend, hcol⟩ := h.encoder.2.1 hclosed
  have hd := directSlots_le s.indexBits.toNat s.directLimit.toNat
  have hdict := dictionary_legal h hroom
  refine { hdict with
    sequencer := ⟨hwf, hlen, nofun, fun _ => ⟨buildPaths_ops _ _ _, h.config.1, ?_, ?_⟩⟩
    encoder := closedEncoder_legal hclosed hpend hcol }
  · intro e he
    obtain ⟨x, hx, rfl⟩ := List.mem_map.1 he
    rw [hdd]
    exact pathOfRank_fits hd havail (rank_lt hx)
  · rw [hdd]
    refine (BitVec.toNat_ofNat _ 16).trans_le ((Nat.mod_le _ _).trans ?_)
    rw [directCount_eq_min]
    exact (min_le_right _ _).trans hd

/-! ## The frame encoder -/

theorem openedFrame_legal {s : State} (h : s.Legal) (hphase : s.phase = .built) :
    ({ s with bwBits := 0, encOpen := true, encPend := 0, encCol := 0 } : State).Legal :=
  { emptyWriter_legal h with
    encoder := ⟨fun _ => hphase, nofun, Nat.zero_le _, fun _ => ⟨rfl, rfl⟩,
      fun hne => Nat.pos_of_ne_zero fun h0 => hne (BitVec.eq_of_toNat_eq h0), fun h => absurd rfl h⟩ }

theorem closedFrame_legal {s : State} (h : s.Legal) :
    ({ s with encPend := 0, encCol := 0, encOpen := false } : State).Legal :=
  { h with encoder := closedEncoder_legal rfl rfl rfl }

/-- A pending run that is empty, or one longer than before and not yet full, or untouched while HTILES is unset, with
its op beside it: what `EmitEffect` says of ENC_PEND and ENC_SKIPOP. -/
def PendingRun (s : State) (pend : BitVec 5) (op : Op) : Prop :=
  pend = 0 ∨
  (s.hTiles ≠ 0 ∧ pend = s.encPend + 1 ∧ pend.toNat ≠ 30 ∧
    (op = s.encSkipop ∧ s.encPend ≠ 0 ∨ op.type = .skip ∧ (Table.find s.paths op).isSome)) ∨
  (pend = s.encPend ∧ op = s.encSkipop ∧ s.hTiles = 0)

/-- Such a run is shorter than 30, empty while HTILES is unset, and one of a skip op that has a path. -/
theorem PendingRun.bounds {s : State} {pend : BitVec 5} {op : Op} (h : PendingRun s pend op) (hs : s.EncoderLegal) :
    pend.toNat ≤ 29 ∧ (s.hTiles = 0 → pend = 0) ∧
      (pend ≠ 0 → op.type = .skip ∧ (Table.find s.paths op).isSome) := by
  obtain ⟨-, -, h29, hunset, -, hskip⟩ := hs
  obtain rfl | ⟨hz, rfl, h30, hop⟩ | ⟨rfl, rfl, hz⟩ := h
  · exact ⟨Nat.zero_le _, fun _ => rfl, fun h => absurd rfl h⟩
  · refine ⟨?_, fun h => absurd h hz, fun _ => ?_⟩
    · have hone : (1 : BitVec 5).toNat = 1 := rfl
      rw [BitVec.toNat_add] at h30 ⊢
      omega
    · obtain ⟨rfl, hne⟩ | hnew := hop
      · exact hskip hne
      · exact hnew
  · exact ⟨h29, fun h => (hunset h).1, hskip⟩

/-- The next column of a row lies in the row. -/
theorem advanceColumn_encCol_lt {s : State} (hz : s.hTiles ≠ 0) : (advanceColumn s).encCol.toNat < s.hTiles.toNat := by
  have hpos : 0 < s.hTiles.toNat := Nat.pos_of_ne_zero fun h0 => hz (BitVec.eq_of_toNat_eq h0)
  rw [advanceColumn, if_neg hz]
  exact (BitVec.toNat_ofNat _ 16).trans_lt ((Nat.mod_le _ _).trans_lt (Nat.mod_lt _ hpos))

theorem advanceColumn_encCol_unset {s : State} (hz : s.hTiles = 0) : (advanceColumn s).encCol = s.encCol := by
  rw [advanceColumn, if_pos hz]

theorem advanceColumn_frame (s : State) : advanceColumn s = { s with encCol := (advanceColumn s).encCol } := by
  unfold advanceColumn
  split <;> rfl

/-- Moving to the next column with a pending run keeps the rules, while the frame is open. -/
theorem emitted_legal {s : State} (h : s.Legal) (hopen : s.encOpen = true) {pend : BitVec 5} {op : Op}
    (hrun : PendingRun s pend op) : (advanceColumn { s with encPend := pend, encSkipop := op }).Legal := by
  obtain ⟨h29, hempty, hskip⟩ := hrun.bounds h.encoder
  obtain ⟨hphase, -, -, hunset, -, -⟩ := h.encoder
  have hcol (hz : s.hTiles = 0) : (advanceColumn { s with encPend := pend, encSkipop := op }).encCol = 0 :=
    (advanceColumn_encCol_unset (s := { s with encPend := pend, encSkipop := op }) hz).trans (hunset hz).2
  rw [advanceColumn_frame]
  exact { h with encoder := ⟨hphase, fun hc => absurd (hopen.symm.trans hc) nofun, h29, fun hz => ⟨hempty hz, hcol hz⟩,
    fun hz => advanceColumn_encCol_lt hz, hskip⟩ }

/-- The bit writer leaves what the encoder's rule speaks of. -/
theorem BwOnly.pendingRun {s u : State} (h : BwOnly s u) {pend : BitVec 5} {op : Op} (hrun : PendingRun s pend op) :
    PendingRun u pend op := by
  rw [h.frame]
  exact hrun

/-! ## Every step -/

theorem Effect.legal {i : Instr} {s t : State} (he : Effect i s t) (hs : s.Legal)
    (hf : s.fault = false ∨ i = .softReset ∨ ∃ r, i = .regRd r) : t.Legal := by
  cases i with
  | softReset =>
    obtain rfl := he
    exact resetAction_legal s
  | regWr r v =>
    obtain ⟨cmd, hw⟩ := he
    exact (regWritten_of_writeReg hw).legal hs (by simpa using hf)
  | memWr sp a v =>
    obtain ⟨hbw, hmw, ha, rfl⟩ := he
    exact withUnit_legal hs v hbw hmw ha
  | bwWrite n v => exact BwOnly.legal he hs
  | bwClear =>
    obtain rfl := he
    exact emptyWriter_legal hs
  | mwWrite n v =>
    obtain ⟨k, hroom, rfl⟩ := he
    simpa using maskWriter_legal hs (bs := bytesLE v k) (by simpa using hroom)
  | mwClear =>
    obtain rfl := he
    exact emptyMaskWriter_legal hs
  | dictPack =>
    obtain ⟨bytes, hroom, rfl⟩ := he
    exact serialization_legal hs hroom
  | dictUnpack =>
    obtain ⟨words, hroom, rfl⟩ := he
    exact dictionary_legal hs hroom
  | seqClear =>
    obtain ⟨hclosed, rfl⟩ := he
    exact clearedSequencer_legal hs hclosed
  | seqAdd ty p =>
    obtain ⟨hphase, op, f, hroom, rfl⟩ := he
    exact countedUse_legal hs hphase f hroom
  | seqBuild =>
    obtain ⟨hclosed, words, dd, p, hroom, hdd, -, havail, rfl⟩ := he
    exact builtSequencer_legal hs hclosed hroom hdd havail
  | seqFrameBegin =>
    obtain ⟨hphase, -, rfl⟩ := he
    exact openedFrame_legal hs hphase
  | seqEmit ty p =>
    obtain ⟨hopen, u, pend, op, hbw, rfl, hrun⟩ := he
    exact emitted_legal (hbw.legal hs) (hbw.encOpen.trans hopen) (hbw.pendingRun hrun)
  | seqFrameEnd =>
    obtain ⟨-, u, hbw, rfl⟩ := he
    exact closedFrame_legal (hbw.legal hs)
  | brAdvance | mrRead | cwResolve | streamNext =>
    obtain ⟨pos, rfl⟩ := he
    exact { hs with }
  | _ =>
    obtain rfl := he
    exact hs

theorem exec_keeps_legal {i : Instr} {s t : State} (hs : s.Legal) (h : exec i s = .next t) : t.Legal := by
  obtain ⟨u, v, rfl, he, hf⟩ | ⟨-, rfl⟩ | ⟨hf, e, a, b, rfl, -⟩ := exec_next_outcome h
  · exact (he.legal hs hf).completed v
  · exact hs.raised 0 0 (.inr (.inr rfl))
  · exact hs.raised a b (.inl hf)

theorem rejectCommand_keeps_legal {cmd : Word} {s t : State} (hs : s.Legal) (h : rejectCommand cmd s = .next t) :
    t.Legal := by
  obtain ⟨-, -, -, ho⟩ | ⟨-, ho⟩ := rejectCommand_cases cmd s <;> obtain rfl := Host.Outcome.next.inj (h.symm.trans ho)
  · rw [← raised_halted s 0 0]
    exact hs.raised 0 0 (.inr (.inr rfl))
  · rw [← raised_illegal]
    exact hs.raised cmd 0 (.inr (.inl rfl))

/-- Settles O59: each command's `Effect` keeps the nine rules, and so does each error that the block can raise. -/
theorem stepKeepsLegal : Obligations.StepKeepsLegal :=
  fun _ _ => step_keeps (fun _ _ hs => { hs with }) (fun _ _ _ => exec_keeps_legal)
    (fun _ _ _ => rejectCommand_keeps_legal)

/-- Settles O57: after power-on every length is 0, so each rule about written units speaks of none. -/
theorem resetIsLegal : Obligations.ResetIsLegal := by
  refine ⟨?_, ⟨nofun, nofun, nofun, nofun⟩⟩
  have h := resetAction_legal State.reset
  exact { h with encoder := closedEncoder_legal rfl rfl rfl }

end Sys2Proof.Machine

namespace Sys2Proof.Machine

open Sys2Proof

/-! # Block control (40_block_control.md)

The register map as a table, what REG_WR stores and refuses, and the window of MEM_RD and MEM_WR. -/

/-! ## Numbers as words -/

theorem natInfo_toNat {n : Nat} (h : n < 2 ^ 32) : (natInfo n).toNat = n := by
  rw [natInfo, BitVec.toNat_ofNat, Nat.mod_eq_of_lt h]

theorem units_lt (c : Config.UnitCapacity) : c.units < 2 ^ 32 := c.atMost.trans_lt (by decide)

/-- A value that fits n bits is not changed by passing through them. -/
theorem setWidth_setWidth_of_lt {n : Nat} {v : Word} (h : v.toNat < 2 ^ n) : (v.setWidth n).setWidth 32 = v := by
  apply BitVec.eq_of_toNat_eq
  rw [BitVec.toNat_setWidth, BitVec.toNat_setWidth, Nat.mod_eq_of_lt h, Nat.mod_eq_of_lt v.isLt]

/-! ## The register map -/

theorem statusWord_toNat (s : State) : s.statusWord.toNat = statusNat s := by
  have h := s.lastErr.bits.isLt
  simp only [State.statusWord, append_toNat, BitVec.toNat_ofBool, statusNat, State.seqBuilt, State.brExhausted,
    BitVec.toNat_ofNat]
  omega

/-- The table of Safety.lean holds, at each register's number, what the register reads as. -/
theorem registerTable_num (s : State) (r : Reg) : (registerTable s)[r.num.toNat]? = some (s.readReg r).toNat := by
  have hops : s.caps.optab.ops < 2 ^ 32 := s.caps.optab.atMost.trans_lt (by decide)
  cases r
  case status => exact congrArg some (statusWord_toNat s).symm
  case seqNops => exact congrArg some (BitVec.toNat_ofNat _ 32).symm
  case optabCap => exact congrArg some (natInfo_toNat hops).symm
  case brCap | bwCap | mrCap | mwCap | dictCap | serCap => exact congrArg some (natInfo_toNat (units_lt _)).symm
  case id | errA | errB | brPos | bwBits | mrPos | hopLimit => rfl
  all_goals exact congrArg some (BitVec.toNat_setWidth_of_le (by decide)).symm

/-- Settles O17: REG_RD returns what the register reads as, which the table holds. -/
theorem regRdReturnsRegister : Obligations.RegRdReturnsRegister := by
  intro s r
  refine ⟨_, registerTable_num s r, (s.readReg r).isLt, ?_⟩
  rw [BitVec.ofNat_toNat]
  exact exec_regRd r s

/-- Settles O14: the register table of the power-on state is the reset column. -/
theorem powerOnResetValues : Obligations.PowerOnResetValues :=
  ⟨fun r => (registerTable_num State.reset r).symm, rfl, rfl, rfl, rfl, rfl⟩

/-- Settles O15: the register table after the reset action is the reset column, over the capacities of the block. -/
theorem softResetRestoresResetState : Obligations.SoftResetRestoresResetState := by
  intro s
  refine ⟨_, exec_softReset s, fun r => (registerTable_num (s.resetAction.completed 0) r).symm, rfl, rfl, rfl, rfl, rfl,
    fun sp a => ?_, rfl, rfl⟩
  cases sp <;> rfl

/-- Settles O16: the command's own equation. -/
theorem nopDoesNothing : Obligations.NopDoesNothing :=
  fun _ hf => command_ready hf _

/-! ## REG_WR -/

/-- The command word of an instruction with an 8-bit operand, `base` being OPC in its place. -/
theorem cmdWord_of_byteOperand {i : Instr} {n : Byte} {base : Nat} (hbase : i.opcode.toNat * 2 ^ 24 = base)
    (h : i.operands = 0#16 ++ n) : i.cmdWord = BitVec.ofNat 32 (base + n.toNat) := by
  rw [i.cmdWord_eq, h, byteOperand_toNat, hbase]

theorem cmdWord_regWr (r : Reg) (v : Word) : (Instr.regWr r v).cmdWord = BitVec.ofNat 32 (0x02000000 + r.num.toNat) :=
  cmdWord_of_byteOperand (by simp [Instr.opcode]) rfl

theorem exec_regWr_stored {s t : State} {r : Reg} {v : Word} (hf : s.fault = false) (h : RegWritten v s r t) :
    exec (.regWr r v) s = .next (t.completed (v.setWidth 64)) := by
  simp only [exec, execRegWr, command_ready hf, writeReg_of_regWritten _ h, Attempt.bind_ok, Attempt.pure_eq, finish_ok]

theorem exec_regWr_refused {s : State} {r : Reg} {v x : Word} (hf : s.fault = false)
    (h : ∀ cmd, writeReg cmd r v s = raise .contract cmd x) :
    exec (.regWr r v) s = .next (contractState s (BitVec.ofNat 32 (0x02000000 + r.num.toNat)) x) := by
  simp only [exec, execRegWr, command_ready hf, h, Attempt.bind_raise, finish_raise, raised_contract, cmdWord_regWr]

/-- Settles O18: each value is one that `RegWritten` stores, or one that the register's check refuses. -/
theorem regWrConfiguration : Obligations.RegWrConfiguration := by
  intro s v hf
  simp only [BitVec.ofNat_toNat _ v]
  refine ⟨fun hlow hhigh => ?_, fun h => ?_, fun h => ?_, fun h => ?_, fun h hclosed => ?_, fun h => ?_⟩
  · exact exec_regWr_stored hf (.indexBits hlow hhigh)
  · exact exec_regWr_refused (r := .indexBits) hf fun cmd => by rw [writeReg, if_pos h]
  · exact exec_regWr_stored hf (.directLimit h)
  · exact exec_regWr_refused (r := .directLimit) hf fun cmd => by rw [writeReg, if_pos h]
  · exact exec_regWr_stored hf (.hTiles h hclosed)
  · refine exec_regWr_refused (r := .hTiles) hf fun cmd => ?_
    rw [writeReg]
    split
    next => rfl
    next hlow => rw [if_pos (h.resolve_left hlow)]

/-- Settles O19: as for the configuration registers, with the capacity as the bound. -/
theorem regWrLengths : Obligations.RegWrLengths := by
  intro s v hf
  simp only [BitVec.ofNat_toNat _ v]
  refine ⟨fun h => ?_, fun h => ?_, fun h => ?_, fun h => ?_, fun h => ?_, fun h => ?_, fun h => ?_, fun h => ?_⟩
  · exact exec_regWr_stored hf (.brLen h)
  · exact exec_regWr_refused (r := .brLen) hf fun cmd => by rw [writeReg, if_pos h]
  · exact exec_regWr_stored hf (.mrLen h)
  · exact exec_regWr_refused (r := .mrLen) hf fun cmd => by rw [writeReg, if_pos h]
  · exact exec_regWr_stored hf (.dictLen h)
  · exact exec_regWr_refused (r := .dictLen) hf fun cmd => by rw [writeReg, if_pos h]
  · exact exec_regWr_stored hf (.serLen h)
  · exact exec_regWr_refused (r := .serLen) hf fun cmd => by rw [writeReg, if_pos h]

/-- The registers that R105 does not list are refused whatever the value. -/
theorem writeReg_readOnly {r : Reg} (h : r.num.toNat ∉ [0x01, 0x04, 0x05, 0x06, 0x07, 0x0A, 0x0D, 0x0E]) (cmd v : Word)
    (s : State) : writeReg cmd r v s = raise .contract cmd (BitVec.ofNat 32 r.num.toNat) := by
  rw [BitVec.ofNat_toNat]
  cases r
  case status | indexBits | directLimit | hTiles | brLen | mrLen | dictLen | serLen => exact absurd (by decide) h
  all_goals rfl

/-- Settles O20: STATUS stores in its own way, and no other register outside R105's list stores anything. -/
theorem regWrStatusAndReadOnly : Obligations.RegWrStatusAndReadOnly := by
  intro s v hf
  rw [BitVec.ofNat_toNat _ v]
  exact ⟨exec_regWr_stored hf .status, fun r hr => exec_regWr_refused hf fun cmd => writeReg_readOnly hr cmd v s⟩

/-- Every register but STATUS reads as the value that REG_WR stored in it. -/
theorem RegWritten.readReg {v : Word} {r : Reg} {s t : State} (h : RegWritten v s r t) (hr : r ≠ .status) :
    t.readReg r = v := by
  cases h with
  | status => exact absurd rfl hr
  | indexBits | directLimit | hTiles => exact setWidth_setWidth_of_lt (by omega)
  | brLen hcap =>
    have := s.caps.br.atMost
    exact setWidth_setWidth_of_lt (by omega)
  | mrLen hcap =>
    have := s.caps.mr.atMost
    exact setWidth_setWidth_of_lt (by omega)
  | dictLen hcap =>
    have := s.caps.dict.atMost
    exact setWidth_setWidth_of_lt (by omega)
  | serLen hcap =>
    have := s.caps.ser.atMost
    exact setWidth_setWidth_of_lt (by omega)

/-- The outputs are in no register. -/
theorem State.readReg_completed (s : State) (v : DWord) (r : Reg) : (s.completed v).readReg r = s.readReg r := by
  cases r <;> rfl

/-- Settles O21: a REG_WR that completes has stored its value, which fits the register. -/
theorem regWrThenRegRd : Obligations.RegWrThenRegRd := by
  intro s t r v hr h hok
  obtain ⟨u, x, rfl, cmd, hw⟩ := effect_of_exec_ok h hok
  rw [exec_regRd, State.readReg_completed, (regWritten_of_writeReg hw).readReg hr, BitVec.ofNat_toNat]
  rfl

/-! ## MEM_RD and MEM_WR -/

/-- The command word of an instruction of format M, `base` being OPC in its place. -/
theorem cmdWord_of_memOperand {i : Instr} {sp : Space} {a : BitVec 20} {base : Nat}
    (hbase : i.opcode.toNat * 2 ^ 24 = base) (h : i.operands = sp.num ++ a) :
    i.cmdWord = BitVec.ofNat 32 (base + sp.num.toNat * 2 ^ 20 + a.toNat) := by
  rw [i.cmdWord_eq, h, memOperand_toNat, hbase, Nat.add_assoc]

theorem cmdWord_memRd (sp : Space) (a : BitVec 20) :
    (Instr.memRd sp a).cmdWord = BitVec.ofNat 32 (0x03000000 + sp.num.toNat * 2 ^ 20 + a.toNat) :=
  cmdWord_of_memOperand (by simp [Instr.opcode]) rfl

theorem cmdWord_memWr (sp : Space) (a : BitVec 20) (v : Word) :
    (Instr.memWr sp a v).cmdWord = BitVec.ofNat 32 (0x04000000 + sp.num.toNat * 2 ^ 20 + a.toNat) :=
  cmdWord_of_memOperand (by simp [Instr.opcode]) rfl

/-- Settles O22: the two bounds and the unit itself are looked at in that order. -/
theorem memRdReadsWindow : Obligations.MemRdReadsWindow := by
  intro s sp a hf
  simp only [exec, execMemRd, command_ready hf]
  refine ⟨fun hcap => ?_, fun hcap hlen => ?_, fun v hcap hlen hv => ?_, fun hcap hlen hv => ?_⟩
  · rw [if_pos hcap, finish_raise, raised_contract, cmdWord_memRd]
    rfl
  · rw [if_neg (by omega), if_pos hlen]
    rfl
  · rw [if_neg (by omega), if_neg (by omega), hv, BitVec.ofNat_toNat]
    rfl
  · rw [if_neg (by omega), if_neg (by omega), hv]
    rfl

/-- A unit of one space after a write to the same or to another unit. -/
theorem State.unitAt_withUnit (s : State) (sp sp' : Space) (a b : Nat) (v : Word) :
    (s.withUnit sp a v).unitAt sp' b =
      if sp' = sp ∧ b = a then some (if sp = .dict then v else BitVec.ofNat 32 (v.toNat % 2 ^ 8))
      else s.unitAt sp' b := by
  have hbyte : (v.setWidth 8).setWidth 32 = BitVec.ofNat 32 (v.toNat % 2 ^ 8) := by
    rw [← BitVec.ofNat_toNat, BitVec.toNat_setWidth]
  by_cases hsp : sp' = sp
  · subst hsp
    cases sp' <;> by_cases hb : b = a <;> simp [State.withUnit, State.unitAt, Memory.read_write, hb, hbyte]
  · rw [if_neg (fun h => hsp h.1)]
    cases sp <;> cases sp' <;> first | exact absurd rfl hsp | rfl

/-- The spaces that MEM_WR may write are the only fields it changes. -/
theorem State.withUnit_frame (s : State) {sp : Space} (a : Nat) (v : Word) (hbw : sp ≠ .bw) (hmw : sp ≠ .mw) :
    s.withUnit sp a v =
      { s with
        br := (s.withUnit sp a v).br
        mr := (s.withUnit sp a v).mr
        dict := (s.withUnit sp a v).dict
        ser := (s.withUnit sp a v).ser } := by
  cases sp with
  | bw => exact absurd rfl hbw
  | mw => exact absurd rfl hmw
  | br | mr | dict | ser => rfl

/-- Settles O23: the spaces of writers are refused first, then an address past the capacity, and any other unit is
written and read back by the law of units. -/
theorem memWrStoresOneUnit : Obligations.MemWrStoresOneUnit := by
  intro s sp a v hf
  simp only [exec, execMemWr, command_ready hf]
  refine ⟨fun hbw hmw hcap => ?_, fun hsp => ?_, fun hbw hmw hcap => ?_⟩
  · rw [if_neg (not_or.2 ⟨hbw, hmw⟩), if_neg (by omega)]
    refine ⟨_, rfl, ?_, fun sp' b hne => ?_, ?_⟩
    · exact (s.unitAt_withUnit sp sp a.toNat a.toNat v).trans (if_pos ⟨rfl, rfl⟩)
    · refine (s.unitAt_withUnit sp sp' a.toNat b v).trans (if_neg ?_)
      rintro ⟨rfl, rfl⟩
      simp at hne
    · rw [s.withUnit_frame a.toNat v hbw hmw]
      rfl
  · rw [if_pos hsp, finish_raise, raised_contract, cmdWord_memWr, spaceInfo,
      BitVec.ofNat_toNat]
  · rw [if_neg (not_or.2 ⟨hbw, hmw⟩), if_pos hcap, finish_raise, raised_contract,
      cmdWord_memWr]
    rfl

end Sys2Proof.Machine

namespace Sys2Proof.Machine

open Sys2Proof

/-! # The bit channel and the mask channel (41_bit_channel.md, 42_mask_channel.md)

Each command's equation on the operands that it accepts, and the CONTRACT or BUFFER_FULL that it raises on the
others. -/

/-! ## Widths that are refused -/

theorem widthUpTo_refused {limit : Nat} {n : Int} (cmd : Word) (h : n < 0 ∨ (limit : Int) < n) :
    widthUpTo limit cmd n = raise .contract cmd (BitVec.ofInt 32 n) := if_pos h

/-- The command word of an instruction of format W8, `base` being OPC in its place. -/
theorem cmdWord_of_width {i : Instr} {n : Int} {base : Nat} (hbase : i.opcode.toNat * 2 ^ 24 = base)
    (h : i.operands = 0#16 ++ BitVec.ofInt 8 n) : i.cmdWord = BitVec.ofNat 32 (base + (n % 256).toNat) := by
  rw [cmdWord_of_byteOperand hbase h, ofInt_width_toNat]

theorem cmdWord_bwWrite (n : Int) (v : Word) :
    (Instr.bwWrite n v).cmdWord = BitVec.ofNat 32 (0x10000000 + (n % 256).toNat) :=
  cmdWord_of_width (by simp [Instr.opcode]) rfl

theorem cmdWord_brRead (n : Int) : (Instr.brRead n).cmdWord = BitVec.ofNat 32 (0x18000000 + (n % 256).toNat) :=
  cmdWord_of_width (by simp [Instr.opcode]) rfl

theorem cmdWord_mwWrite (k : Int) (v : DWord) :
    (Instr.mwWrite k v).cmdWord = BitVec.ofNat 32 (0x20000000 + (k % 256).toNat) :=
  cmdWord_of_width (by simp [Instr.opcode]) rfl

theorem cmdWord_mrRead (k : Int) : (Instr.mrRead k).cmdWord = BitVec.ofNat 32 (0x28000000 + (k % 256).toNat) :=
  cmdWord_of_width (by simp [Instr.opcode]) rfl

theorem cmdWord_brAdvance (a : Int) :
    (Instr.brAdvance a).cmdWord = BitVec.ofNat 32 (0x19000000 + (a % 2 ^ 24).toNat) := by
  rw [Instr.cmdWord_eq, Instr.operands, ofInt_amount_toNat]
  simp [Instr.opcode]

/-- BUFFER_FULL neither halts nor stops the stream. -/
theorem raised_bufferFull (s : State) (a b : Word) : s.raised .bufferFull a b = reportState s .bufferFull a b :=
  raised_report s a b nofun rfl rfl

/-! ## The bit writer -/

/-- Settles O24: an `Appended` field, over the frame of the writer. -/
theorem bwWriteAppendsField : Obligations.BwWriteAppendsField := by
  intro s n v hf hn hw hroom
  obtain ⟨t, hexec, happ, hframe⟩ := exec_bwWrite_spec v hf hn hw hroom
  exact ⟨t, hexec, happ, by rw [BitVec.ofNat_toNat]; exact hframe⟩

/-- Settles O25: the width is checked first, then the room. -/
theorem bwWriteRefusals : Obligations.BwWriteRefusals := by
  intro s n v hf hlow hhigh
  simp only [exec, execBwWrite, command_ready hf]
  refine ⟨fun h => ?_, fun h0 h32 hroom => ?_⟩
  · rw [widthUpTo_refused (limit := maxBits) _ h, Attempt.bind_raise, finish_raise, raised_contract, cmdWord_bwWrite]
  · obtain ⟨k, rfl⟩ := Int.eq_ofNat_of_zero_le h0
    rw [widthUpTo_of_le _ (show k ≤ maxBits by unfold maxBits; omega), Attempt.bind_ok,
      putBits_full _ _ (by simpa using hroom), Attempt.bind_raise, finish_raise, raised_bufferFull]
    rfl

/-! ## The bit reader -/

/-- Settles O26: the number that a peek over a loaded reader gives has the stream's bits. -/
theorem brReadPeeksField : Obligations.BrReadPeeksField := by
  refine fun s hf => ⟨fun n hn hl => ⟨_, exec_brRead_spec hf hn hl, ?_⟩, fun n hlow hhigh h => ?_⟩
  · have hlt := streamField_lt s s.brPos.toNat n
    have hle : 2 ^ n ≤ 2 ^ 32 := Nat.pow_le_pow_right (by omega) hn
    have hval : (BitVec.ofNat 64 (streamField s s.brPos.toNat n)).toNat = streamField s s.brPos.toNat n := by
      rw [BitVec.toNat_ofNat]
      omega
    refine ⟨hval.trans_lt hlt, fun k hk => ?_⟩
    rw [BitVec.getLsbD, hval, streamField_testBit s _ n k hk]
  · simp only [exec, execBrRead, command_ready hf]
    rw [widthUpTo_refused (limit := maxBits) _ h, Attempt.bind_raise, finish_raise, raised_contract, cmdWord_brRead]

/-- Settles O27: the sign is checked first, then the new cursor. -/
theorem brAdvanceMovesCursor : Obligations.BrAdvanceMovesCursor := by
  intro s a hf hlow hhigh
  simp only [exec, execBrAdvance, command_ready hf]
  refine ⟨fun h0 hpos => ?_, fun h => ?_⟩
  · have hcursor : ¬ cursorMax < s.brPos.toNat + a.toNat := by unfold cursorMax; omega
    have hdout : (BitVec.ofNat 32 (s.brPos.toNat + a.toNat)).setWidth 64 =
        BitVec.ofNat 64 (s.brPos.toNat + a.toNat) := by
      rw [← BitVec.ofNat_toNat, BitVec.toNat_ofNat, Nat.mod_eq_of_lt hpos]
    rw [if_neg (Int.not_lt.2 h0), if_neg hcursor, hdout]
    rfl
  · rw [← cmdWord_brAdvance]
    split
    next => rw [finish_raise, raised_contract, signedInfo]
    next h0 =>
      have hcursor : cursorMax < s.brPos.toNat + a.toNat := by unfold cursorMax; omega
      rw [if_pos hcursor, finish_raise, raised_contract, signedInfo]

/-- Bit 2 of STATUS is BR_EXH (10_state.md R28). -/
theorem statusWord_brExh (s : State) : s.statusWord.getLsbD 2 = s.brExhausted := by
  simp only [State.statusWord, BitVec.getLsbD_append, BitVec.getLsbD_ofBool]
  simp

/-- Settles O28: the two commands' equations, and STATUS. -/
theorem bwClearAndBrExhausted : Obligations.BwClearAndBrExhausted := by
  intro s hf
  refine ⟨command_ready hf _, ?_, statusWord_brExh s⟩
  simp only [exec, execBrExhausted, command_ready hf, finish_ok, State.completed, State.brExhausted, decide_eq_true_eq]

/-! ## The mask channel -/

/-- Settles O30: the bytes written are read back by the law of units. -/
theorem mwWriteAppendsBytes : Obligations.MwWriteAppendsBytes := by
  intro s v hf
  refine ⟨fun k hk hroom => ⟨_, exec_mwWrite_spec v hf hk hroom, toNat_ofNat_of_le_units hroom, fun j hj => ?_,
    fun a ha => ?_, ?_⟩, fun k hlow hhigh h => ?_, fun k hk hfull => ?_⟩
  · rw [Memory.read_writeAll_at _ _ (by simpa using hj), getElem_bytesLE]
  · exact Memory.read_writeAll_before _ _ (by simpa using ha)
  · rw [BitVec.ofNat_toNat]
  · simp only [exec, execMwWrite, command_ready hf]
    rw [widthUpTo_refused (limit := maxMaskBytes) _ h, Attempt.bind_raise, finish_raise, raised_contract,
      cmdWord_mwWrite]
  · simp only [exec, execMwWrite, command_ready hf]
    rw [widthUpTo_of_le _ (show k ≤ maxMaskBytes from hk), Attempt.bind_ok, if_pos hfull, finish_raise,
      raised_bufferFull]
    rfl

/-- Twice the code of M2 to M16, and 0 for every other type, is the width of R120. -/
theorem maskBytes_eq (ty : CtrlType) : BitVec.ofNat 64 (maskBytes ty) =
    if 1 ≤ ty.code.toNat ∧ ty.code.toNat ≤ 4 then BitVec.ofNat 64 (2 * ty.code.toNat) else 0 := by
  cases ty <;> decide

/-- Settles O31: the two commands' equations, and the table of widths. -/
theorem mwClearAndMaskWidth : Obligations.MwClearAndMaskWidth := by
  intro s hf
  refine ⟨command_ready hf _, fun ty => ?_⟩
  rw [← maskBytes_eq]
  exact command_ready hf _

/-- Settles O32: the bytes that the reader answers stand for the result; the count is checked before the cursor. -/
theorem mrReadConsumesBytes : Obligations.MrReadConsumesBytes := by
  refine fun s hf => ⟨fun k hk hpos hl => ?_, fun k hlow hhigh h => ?_⟩
  · obtain ⟨bs, hbs⟩ := maskBytesFrom_loaded hl s.mrPos.toNat k
    obtain ⟨hlen, hread⟩ := maskBytesFrom_ok hbs
    have hlt := natOfLE_lt bs
    have hle : 2 ^ (8 * bs.length) ≤ 2 ^ 64 := Nat.pow_le_pow_right (by omega) (by omega)
    have hval : (BitVec.ofNat 64 (natOfLE bs)).toNat = natOfLE bs := by
      rw [BitVec.toNat_ofNat]
      omega
    refine ⟨_, exec_mrRead_spec hf hk (by unfold cursorMax; omega) hbs, ?_, fun j hj => ?_⟩
    · rw [hval, ← hlen]
      exact hlt
    · rw [hval, natOfLE_byte bs j (by omega)]
      exact hread j (by omega)
  · simp only [exec, execMrRead, command_ready hf, ← cmdWord_mrRead]
    by_cases hk : k < 0 ∨ (maxMaskBytes : Int) < k
    · rw [widthUpTo_refused _ hk, Attempt.bind_raise, finish_raise, raised_contract]
    · unfold maxMaskBytes at hk
      obtain ⟨n, rfl⟩ := Int.eq_ofNat_of_zero_le (show 0 ≤ k by omega)
      rw [widthUpTo_of_le _ (show n ≤ maxMaskBytes by unfold maxMaskBytes; omega), Attempt.bind_ok,
        if_pos (by unfold cursorMax; omega), finish_raise, raised_contract, signedInfo]

/-! # Control words (43_control_word.md R128 to R135)

The fields of a word as numbers; and that these commands answer the same from every state. -/

theorem controlWord_toNat (c : BitVec 4) (op : Op) : (controlWord c op).toNat = CwNat c.toNat op := by
  simp only [controlWord, append_toNat, CwNat, BitVec.toNat_ofNat]
  omega

theorem longWord_toNat (offset : BitVec 20) : (longWord offset).toNat = offset.toNat := by
  simp only [longWord, append_toNat, BitVec.toNat_ofNat]
  omega

theorem maxParam_lt_iff (p : Word) : maxParam < p ↔ 2 ^ 17 ≤ p.toNat := by
  have hmax : maxParam.toNat = 2 ^ 17 - 1 := by simp [maxParam]
  rw [BitVec.lt_def]
  omega

/-- A parameter of 17 bits names an op. -/
theorem opOf_of_lt {p : Word} (ty : CtrlType) (h : p.toNat < 2 ^ 17) :
    opOf ty p = some ⟨ty, BitVec.ofNat 17 p.toNat⟩ := by
  rw [opOf, if_neg (mt (maxParam_lt_iff p).1 (Nat.not_le.2 h)), BitVec.ofNat_toNat]

theorem opOf_of_ge {p : Word} (ty : CtrlType) (h : 2 ^ 17 ≤ p.toNat) : opOf ty p = none := by
  rw [opOf, if_pos ((maxParam_lt_iff p).2 h)]

theorem setWidth_64_eq {n : Nat} {w : Word} (h : w.toNat = n) : w.setWidth 64 = BitVec.ofNat 64 n := by
  rw [← h, BitVec.ofNat_toNat]

theorem cmdWord_cwOf (c : BitVec 4) (ty : CtrlType) (p : Word) :
    (Instr.cwOf c ty p).cmdWord = BitVec.ofNat 32 (0x30000000 + c.toNat * 2 ^ 20 + ty.code.toNat * 2 ^ 17) := by
  rw [Instr.cmdWord_eq, Instr.operands, controlOperand_toNat, Nat.add_assoc]
  simp [Instr.opcode]

theorem maxLongOffset_lt_iff (w : Word) : maxLongOffset < w ↔ 2 ^ 20 ≤ w.toNat := by
  have hmax : maxLongOffset.toNat = 2 ^ 20 - 1 := by simp [maxLongOffset]
  rw [BitVec.lt_def]
  omega

theorem cmdWord_cwLong (w : Word) : (Instr.cwLong w).cmdWord = 0x31000000 := by
  rw [Instr.cmdWord_eq]
  simp [Instr.opcode, Instr.operands]

theorem cmdWord_cwPacked (n : Byte) (w : Word) :
    (Instr.cwPacked n w).cmdWord = BitVec.ofNat 32 (0x37000000 + n.toNat) :=
  cmdWord_of_byteOperand (by simp [Instr.opcode]) rfl

/-- Settles O34: the operand's range decides, and the word built is the sum of its fields. -/
theorem cwConstructors : Obligations.CwConstructors := by
  intro s w hf
  refine ⟨fun c ty h => ?_, fun c ty h => ?_, fun h => ?_, fun h => ?_, fun n hn => ?_, ?_⟩
  · have hword : (controlWord c ⟨ty, BitVec.ofNat 17 w.toNat⟩).toNat =
        c.toNat * 2 ^ 20 + ty.code.toNat * 2 ^ 17 + w.toNat := by
      rw [controlWord_toNat, CwNat, BitVec.toNat_ofNat, Nat.mod_eq_of_lt h]
    simp only [exec, execCwOf, command_ready hf, opOf_of_lt ty h, finish_ok, setWidth_64_eq hword, State.completed]
  · simp only [exec, execCwOf, command_ready hf, opOf_of_ge ty h, finish_raise, raised_contract, cmdWord_cwOf]
  · have hword : (longWord (w.setWidth 20)).toNat = w.toNat := by
      rw [longWord_toNat, BitVec.toNat_setWidth, Nat.mod_eq_of_lt h]
    simp only [exec, execCwLong, command_ready hf, maxLongOffset_lt_iff, if_neg (Nat.not_le.2 h), finish_ok,
      setWidth_64_eq hword, State.completed]
  · simp only [exec, execCwLong, command_ready hf, maxLongOffset_lt_iff, if_pos h, finish_raise, raised_contract,
      cmdWord_cwLong]
  · simp only [exec, execCwPacked, command_ready hf, if_neg hn, finish_ok, setWidth_64_eq (packedWord_toNat w n),
      State.completed]
  · exact (command_ready hf _).trans (by rw [if_pos rfl, finish_raise, raised_contract, cmdWord_cwPacked]; rfl)

/-- Settles O35: each accessor's equation, with its field as a number. -/
theorem cwAccessors : Obligations.CwAccessors := by
  intro s w hf
  simp only [← countField_toNat, ← typeField_toNat, ← paramField_toNat, ← longField_toNat, BitVec.ofNat_toNat]
  refine ⟨command_ready hf _, command_ready hf _, command_ready hf _, command_ready hf _, ?_⟩
  have hlong := isLong_iff w
  rw [← countField_toNat] at hlong
  simp only [exec, execCwIslong, command_ready hf, finish_ok, State.completed, hlong]

/-- From every state that is not halted, a command of opcode 0x30 to 0x37 gives one value, or raises one CONTRACT. -/
theorem exec_controlWord (i : Instr) (hlow : 0x30 ≤ i.opcode.toNat) (hhigh : i.opcode.toNat ≤ 0x37) :
    (∃ v, ∀ s : State, s.fault = false → exec i s = .next (s.completed v)) ∨
    (∃ a b, ∀ s : State, s.fault = false → exec i s = .next (contractState s a b)) := by
  cases i with
  | cwOf c ty p =>
    cases hop : opOf ty p with
    | none =>
      refine .inr ⟨(Instr.cwOf c ty p).cmdWord, p, fun s hf => ?_⟩
      simp only [exec, execCwOf, command_ready hf, hop, finish_raise, raised_contract]
    | some op =>
      refine .inl ⟨(controlWord c op).setWidth 64, fun s hf => ?_⟩
      simp only [exec, execCwOf, command_ready hf, hop, finish_ok]
  | cwLong w =>
    by_cases h : maxLongOffset < w
    · refine .inr ⟨(Instr.cwLong w).cmdWord, w, fun s hf => ?_⟩
      simp only [exec, execCwLong, command_ready hf, if_pos h, finish_raise, raised_contract]
    · refine .inl ⟨(longWord (w.setWidth 20)).setWidth 64, fun s hf => ?_⟩
      simp only [exec, execCwLong, command_ready hf, if_neg h, finish_ok]
  | cwPacked n w =>
    by_cases h : n = 0
    · refine .inr ⟨(Instr.cwPacked n w).cmdWord, 0, fun s hf => ?_⟩
      simp only [exec, execCwPacked, command_ready hf, if_pos h, finish_raise, raised_contract]
    · refine .inl ⟨(packedWord w n).setWidth 64, fun s hf => ?_⟩
      simp only [exec, execCwPacked, command_ready hf, if_neg h, finish_ok]
  | cwCount | cwType | cwParam | cwLongoff | cwIslong => exact .inl ⟨_, fun s hf => command_ready hf _⟩
  | nop | regRd | regWr | memRd | memWr | softReset | bwWrite | bwClear | brRead | brAdvance | brExhausted | mwWrite
  | mwClear | mrRead | maskWidth => exact absurd hlow (by simp [Instr.opcode])
  | dictPack | dictUnpack | seqClear | seqAdd | seqBuild | seqPath | seqFrameBegin | seqEmit | seqFrameEnd | cwResolve
  | streamNext => exact absurd hhigh (by simp [Instr.opcode])

/-- Settles O13: one value or one CONTRACT for all states, each with its frame. -/
theorem controlWordCommandsReadNoState : Obligations.ControlWordCommandsReadNoState := by
  intro i s s' hlow hhigh hf hf'
  obtain ⟨v, h⟩ | ⟨a, b, h⟩ := exec_controlWord i hlow hhigh
  · exact ⟨_, _, h s hf, h s' hf', rfl, rfl, fun hne => absurd rfl hne, rfl⟩
  · exact ⟨_, _, h s hf, h s' hf', rfl, rfl, fun _ => ⟨rfl, rfl⟩, rfl⟩

/-! # SEQ_CLEAR and SEQ_FRAME_BEGIN (44_sequencer.md R143, R152) -/

/-- Settles O42: with no frame open nothing is refused. -/
theorem seqClearEmptiesSequencer : Obligations.SeqClearEmptiesSequencer := by
  intro s hf hclosed
  simp only [exec, execSeqClear, command_ready hf, hclosed, Bool.false_eq_true, if_false, finish_ok, State.completed]

/-- Settles O49: in phase BUILT with no frame open nothing is refused. -/
theorem frameBeginOpensFrame : Obligations.FrameBeginOpensFrame := by
  intro s hf hbuilt hclosed
  simp [exec, execSeqFrameBegin, command_ready hf, hbuilt, hclosed, State.completed]

end Sys2Proof.Machine

namespace Sys2Proof.Machine

open Sys2Proof

/-! # The serialized dictionary (43_control_word.md R136 to R141, 30_encoding.md R95)

DICT_PACK leaves the bytes of a serialization in SER and DICT_UNPACK reads words off them: each command's equation is
said once, and the round trip is that what the first leaves the second accepts, the packed words of the runs spelling
out the dictionary's low 24 bits. -/

/-! ## DICT_PACK -/

/-- Every word of the dictionary has been written and is one of d. -/
def DictHolds (s : State) (d : List Word) : Prop :=
  d.length = s.dictLen.toNat ∧ ∀ k (h : k < d.length), Memory.read s.dict k = some d[k]

theorem DictHolds.fetchUnits {s : State} {d : List Word} (h : DictHolds s d) :
    fetchUnits .dict s.dict 0 s.dictLen.toNat = .ok d :=
  fetchUnits_ok.2 ⟨h.1, fun k hk => by rw [Nat.zero_add, h.2 k hk]⟩

/-- DICT_PACK with room. -/
theorem exec_dictPack_spec {s : State} {d : List Word} (hf : s.fault = false) (hd : DictHolds s d)
    (hroom : 4 + 4 * (runs d).length ≤ s.caps.ser.units) :
    exec .dictPack s =
      .next { s with
        ser := Memory.writeAll s.ser 0 (serialize (runs d))
        serLen := BitVec.ofNat 21 (4 + 4 * (runs d).length)
        dout := (BitVec.ofNat 21 (4 + 4 * (runs d).length)).setWidth 64
        resp := .ok } := by
  simp only [exec, execDictPack, command_ready hf, hd.fetchUnits, Attempt.bind_ok, if_neg (Nat.not_lt.2 hroom),
    Attempt.pure_eq, finish_ok, State.completed]

/-- The packed word of a run. -/
def packedRun (r : Word × Nat) : Word := packedWord r.1 (BitVec.ofNat 8 r.2)

theorem packedRun_toNat {r : Word × Nat} (h : r.2 ≤ 255) :
    (packedRun r).toNat = r.2 * 2 ^ 24 + r.1.toNat % 2 ^ 24 := by
  rw [packedRun, packedWord_toNat, BitVec.toNat_ofNat]
  omega

theorem runs_count_bounds (d : List Word) : ∀ r ∈ runs d, 1 ≤ r.2 ∧ r.2 ≤ 255 := by
  obtain ⟨-, hbounds, -⟩ := runsAreMaximalGroups d
  exact hbounds

/-- Byte j of the count of a serialization. -/
theorem serialize_getElem?_count (rs : List (Word × Nat)) {j : Nat} (hj : j < 4) :
    (serialize rs)[j]? = some (BitVec.ofNat 8 ((natInfo (3 * rs.length)).toNat / 2 ^ (8 * j))) := by
  rw [serialize, List.getElem?_append_left (by simpa using hj), List.getElem?_eq_getElem (by simpa using hj),
    getElem_le32]

/-- Byte j of packed word k of a serialization. -/
theorem serialize_getElem?_run (rs : List (Word × Nat)) {k j : Nat} (hk : k < rs.length) (hj : j < 4) :
    (serialize rs)[4 + 4 * k + j]? = some (BitVec.ofNat 8 ((packedRun rs[k]).toNat / 2 ^ (8 * j))) := by
  have hpieces := getElem?_flatMap_const 4 (fun r => le32 (packedRun r)) rs (fun _ _ => le32_length _) k j hk hj
  rw [serialize, List.getElem?_append_right (by rw [le32_length]; omega), le32_length,
    show 4 + 4 * k + j - 4 = 4 * k + j by omega]
  refine hpieces.trans ?_
  rw [List.getElem?_eq_getElem (by simpa using hj), getElem_le32]

/-- SER holds the serialization from byte 0 on. -/
theorem read_serialized (m : List Host.Cell) (rs : List (Word × Nat)) {a : Nat} (ha : a < 4 + 4 * rs.length) :
    Memory.read (Memory.writeAll m 0 (serialize rs)) a = (serialize rs)[a]? := by
  rw [Memory.read_writeAll, serialize_length, if_pos (by omega), Nat.sub_zero]

/-- Settles O37: the bytes written are those of the serialization, and the room for all of them is checked first. -/
theorem dictPackWritesSerialization : Obligations.DictPackWritesSerialization := by
  intro s d hf hlen hread
  have hd : DictHolds s d := ⟨hlen, hread⟩
  refine ⟨fun hroom => ?_, fun hfull => ?_⟩
  · have hsize := toNat_ofNat_of_le_units hroom
    have hcap := s.caps.ser.atMost
    refine ⟨_, exec_dictPack_spec hf hd hroom, hsize, fun j hj => ?_, fun r hr j hj => ?_, fun a ha => ?_, ?_⟩
    · rw [read_serialized _ _ (by omega), serialize_getElem?_count _ hj, natInfo_toNat (by omega)]
    · have hle := (runs_count_bounds d _ (List.getElem_mem hr)).2
      rw [read_serialized _ _ (by omega), serialize_getElem?_run _ hr hj, packedRun_toNat hle]
    · exact Memory.read_writeAll_before _ _ (.inr (by rw [serialize_length]; omega))
    · rw [BitVec.ofNat_toNat]
  · simp only [exec, execDictPack, command_ready hf, hd.fetchUnits, Attempt.bind_ok, if_pos hfull, finish_raise,
      raised_bufferFull]
    rfl

/-! ## DICT_UNPACK -/

theorem serWord_of_serHolds {s : State} {a w : Nat} (hw : w < 2 ^ 32) (h : SerHolds s a w) :
    serWord s a = .ok (BitVec.ofNat 32 w) := serWord_ok hw h

/-- A count that passes checks 1 to 3 of R138. -/
theorem serCount_of_serHolds {s : State} {n : Nat} (h : SerHolds s 0 (3 * n)) (hlen : 4 + 4 * n ≤ s.serLen.toNat) :
    serCount s = .ok n := by
  have hlt := s.serLen.isLt
  have hcount : (BitVec.ofNat 32 (3 * n)).toNat = 3 * n := by
    rw [BitVec.toNat_ofNat]
    omega
  rw [serCount, if_neg (by omega), serWord_of_serHolds (by omega) h, Attempt.bind_ok, hcount, if_neg (by omega),
    if_neg (by omega), Nat.mul_div_cancel_left n (by omega)]
  rfl

theorem packedTimes_ne_zero_iff (p : Word) : packedTimes p ≠ 0 ↔ 2 ^ 24 ≤ p.toNat := by
  have hzero : packedTimes p = 0 ↔ (packedTimes p).toNat = 0 :=
    ⟨fun h => by rw [h]; rfl, fun h => BitVec.eq_of_toNat_eq h⟩
  rw [ne_eq, hzero, packedTimes_toNat]
  omega

/-- A well-formed serialization of the packed words ps stands in SER (30_encoding.md R95). -/
structure SerializationHolds (s : State) (ps : List Word) : Prop where
  count : SerHolds s 0 (3 * ps.length)
  words : ∀ k (h : k < ps.length), SerHolds s (4 + 4 * k) ps[k].toNat ∧ 2 ^ 24 ≤ ps[k].toNat
  length : 4 + 4 * ps.length ≤ s.serLen.toNat

theorem SerializationHolds.serRuns {s : State} {ps : List Word} (h : SerializationHolds s ps) :
    serRuns s 4 ps.length = .ok ps :=
  serRuns_ok fun k hk => ⟨(h.words k hk).1, (packedTimes_ne_zero_iff _).2 (h.words k hk).2⟩

/-- The spelled-out words, in the numbers of the obligations. -/
theorem unpackWords_eq (ps : List Word) :
    unpackWords ps =
      ps.flatMap fun p => List.replicate (p.toNat / 2 ^ 24) (BitVec.ofNat 32 (p.toNat % 2 ^ 24)) := by
  simp only [unpackWords, packedTimes_toNat, packedContent_eq]

/-- DICT_UNPACK of a well-formed serialization, with room. -/
theorem exec_dictUnpack_spec {s : State} {ps : List Word} (hf : s.fault = false) (h : SerializationHolds s ps)
    (hroom : (unpackWords ps).length ≤ s.caps.dict.units) :
    exec .dictUnpack s =
      .next { s with
        dict := Memory.writeAll s.dict 0 (unpackWords ps)
        dictLen := BitVec.ofNat 21 (unpackWords ps).length
        dout := (BitVec.ofNat 21 (unpackWords ps).length).setWidth 64
        resp := .ok } := by
  simp only [exec, execDictUnpack, command_ready hf, serCount_of_serHolds h.count h.length, h.serRuns, Attempt.bind_ok,
    if_neg (Nat.not_lt.2 hroom), Attempt.pure_eq, finish_ok, State.completed]

/-- Settles O38: the checks accept the serialization, and the words are written and read back by the law of units. -/
theorem dictUnpackReadsSerialization : Obligations.DictUnpackReadsSerialization := by
  intro s ps hf hcount hwords hlen d hd
  have h : SerializationHolds s ps := ⟨hcount, hwords, hlen⟩
  obtain rfl : d = unpackWords ps := hd.trans (unpackWords_eq ps).symm
  refine ⟨fun hroom => ?_, fun hfull => ?_⟩
  · refine ⟨_, exec_dictUnpack_spec hf h hroom, toNat_ofNat_of_le_units hroom, fun k hk => ?_, fun a ha => ?_, ?_⟩
    · have hread := Memory.read_writeAll_at s.dict (a := 0) (unpackWords ps) hk
      rwa [Nat.zero_add] at hread
    · exact Memory.read_writeAll_before _ _ (.inr (by omega))
    · rw [BitVec.ofNat_toNat]
  · simp only [exec, execDictUnpack, command_ready hf, serCount_of_serHolds h.count h.length, h.serRuns,
      Attempt.bind_ok, if_pos hfull, finish_raise, raised_bufferFull]
    rfl

/-! ## Malformed serializations -/

theorem raised_badPacked (s : State) (a b : Word) : s.raised .badPacked a b = reportState s .badPacked a b :=
  raised_report s a b nofun rfl rfl

/-- What the checks of the count raise, the command reports. -/
theorem exec_dictUnpack_of_serCount {s : State} {b : Word} (hf : s.fault = false)
    (h : serCount s = raise .badPacked 0 b) : exec .dictUnpack s = .next (reportState s .badPacked 0 b) := by
  simp only [exec, execDictUnpack, command_ready hf, h, Attempt.bind_raise, finish_raise, raised_badPacked]

/-- The first packed word with a repeat count of 0 is reported at its address. -/
theorem serRuns_zero_times {s : State} {a r n : Nat} {p : Nat → Nat}
    (hwords : ∀ k ≤ r, SerHolds s (a + 4 * k) (p k) ∧ p k < 2 ^ 32) (hbefore : ∀ k < r, 2 ^ 24 ≤ p k)
    (hzero : p r < 2 ^ 24) (hr : r < n) :
    serRuns s a n = raise .badPacked (natInfo (a + 4 * r)) (BitVec.ofNat 32 (p r)) := by
  induction n generalizing a r p with
  | zero => omega
  | succ n ih =>
    obtain ⟨hfirst, hlt⟩ := hwords 0 (Nat.zero_le r)
    have htimes := packedTimes_ne_zero_iff (BitVec.ofNat 32 (p 0))
    rw [BitVec.toNat_ofNat, Nat.mod_eq_of_lt hlt] at htimes
    rw [serRuns, serWord_of_serHolds (a := a) hlt hfirst, Attempt.bind_ok]
    cases r with
    | zero => rw [if_pos (not_not.1 fun hne => absurd (htimes.1 hne) (by omega))]; rfl
    | succ r =>
      have hrest := ih (a := a + 4) (r := r) (p := fun k => p (k + 1))
        (fun k hk => by rw [show a + 4 + 4 * k = a + 4 * (k + 1) by ring]; exact hwords (k + 1) (by omega))
        (fun k hk => hbefore (k + 1) (by omega)) hzero (by omega)
      rw [if_neg (htimes.2 (hbefore 0 (by omega))), hrest, show a + 4 + 4 * r = a + 4 * (r + 1) by ring]
      rfl

/-- Settles O39: the length, the count and the repeat counts are checked in this order. -/
theorem malformedSerializationIsReported : Obligations.MalformedSerializationIsReported := by
  intro s hf
  refine ⟨fun hshort => ?_, fun c hc hlen hcount hbad => ?_, fun R r p hcount hlen hr hwords hbefore hzero => ?_⟩
  · exact exec_dictUnpack_of_serCount hf (by rw [serCount, if_pos hshort]; rfl)
  · refine exec_dictUnpack_of_serCount hf ?_
    have hval : (BitVec.ofNat 32 c).toNat = c := by rw [BitVec.toNat_ofNat, Nat.mod_eq_of_lt hc]
    rw [serCount, if_neg (by omega), serWord_of_serHolds hc hcount, Attempt.bind_ok, hval]
    split
    next => rfl
    next hmul => rw [if_pos (hbad.resolve_left hmul)]
  · have hruns := serRuns_zero_times hwords hbefore hzero hr
    simp only [exec, execDictUnpack, command_ready hf, serCount_of_serHolds hcount hlen, hruns, Attempt.bind_ok,
      Attempt.bind_raise, finish_raise, raised_badPacked]
    rfl

/-! ## The round trip -/

/-- A word with bits [31:24] cleared. -/
def lowWord (w : Word) : Word := BitVec.ofNat 32 (w.toNat % 2 ^ 24)

theorem packedContent_packedRun {r : Word × Nat} (h : r.2 ≤ 255) : packedContent (packedRun r) = lowWord r.1 := by
  rw [packedContent_eq, packedRun_toNat h, lowWord]
  congr 1
  omega

theorem packedTimes_packedRun {r : Word × Nat} (h : r.2 ≤ 255) : (packedTimes (packedRun r)).toNat = r.2 := by
  rw [packedTimes_toNat, packedRun_toNat h]
  omega

/-- The packed words of the runs spell out the words with bits [31:24] cleared. -/
theorem unpackWords_runs (d : List Word) : unpackWords ((runs d).map packedRun) = d.map lowWord := by
  obtain ⟨hspell, hbounds, -⟩ := runsAreMaximalGroups d
  calc unpackWords ((runs d).map packedRun)
      = (runs d).flatMap fun r => List.replicate (packedTimes (packedRun r)).toNat (packedContent (packedRun r)) :=
        List.flatMap_map ..
    _ = (runs d).flatMap fun r => (List.replicate r.2 r.1).map lowWord := by
        refine List.flatMap_congr fun r hr => ?_
        have hle := (hbounds r hr).2
        rw [packedTimes_packedRun hle, packedContent_packedRun hle, List.map_replicate]
    _ = ((runs d).flatMap fun r => List.replicate r.2 r.1).map lowWord := (List.map_flatMap ..).symm
    _ = d.map lowWord := by rw [hspell]

/-- What DICT_PACK leaves is a well-formed serialization of the runs' packed words. -/
theorem serializationHolds_of_packed {t : State} {m : List Host.Cell} (d : List Word)
    (hser : t.ser = Memory.writeAll m 0 (serialize (runs d))) (hlen : t.serLen.toNat = 4 + 4 * (runs d).length)
    (hcap : 4 + 4 * (runs d).length ≤ 2 ^ 20) : SerializationHolds t ((runs d).map packedRun) where
  count j hj := by
    rw [Nat.zero_add, hser, read_serialized _ _ (by omega), serialize_getElem?_count _ hj, List.length_map,
      natInfo_toNat (by omega)]
  words k hk := by
    rw [List.length_map] at hk
    rw [List.getElem_map]
    refine ⟨fun j hj => ?_, ?_⟩
    · rw [hser, read_serialized _ _ (by omega), serialize_getElem?_run _ hk hj]
    · obtain ⟨hpos, hle⟩ := runs_count_bounds d _ (List.getElem_mem hk)
      rw [packedRun_toNat hle]
      omega
  length := by rw [List.length_map, hlen]

/-- Settles O40: DICT_PACK leaves a serialization whose spelled-out words are the dictionary's low 24 bits, so
DICT_UNPACK finds room for them and writes them back. -/
theorem packThenUnpackRestoresDictionary : Obligations.PackThenUnpackRestoresDictionary := by
  intro s d hf hlengths hlen hread hroom
  have hcap := s.caps.ser.atMost
  have hdict : d.length ≤ s.caps.dict.units := hlen.trans_le (hlengths .dict)
  refine ⟨_, _, exec_dictPack_spec hf ⟨hlen, hread⟩ hroom, rfl, exec_dictUnpack_spec hf
    (serializationHolds_of_packed d rfl (toNat_ofNat_of_le_units hroom) (by omega)) ?_, rfl, ?_, fun k hk => ?_⟩
  · rw [unpackWords_runs, List.length_map]
    exact hdict
  · rw [unpackWords_runs, List.length_map, hlen, BitVec.ofNat_toNat, BitVec.setWidth_eq]
  · have hk' : k < (d.map lowWord).length := by simpa using hk
    have hwritten := Memory.read_writeAll_at s.dict (a := 0) (d.map lowWord) hk'
    rw [Nat.zero_add, List.getElem_map] at hwritten
    rw [unpackWords_runs]
    exact hwritten

end Sys2Proof.Machine

namespace Sys2Proof.Machine

open Sys2Proof

/-! # The dictionary builder (44_sequencer.md R144 to R150)

The rank order is an insertion sort by a strict total order; the build's figures are those of R146 and R147, and the
layout is read at the index that R147 gives to each word. -/

/-! ## SEQ_ADD -/

theorem typeInfo_eq (ty : CtrlType) : typeInfo ty = BitVec.ofNat 32 ty.code.toNat :=
  (BitVec.ofNat_toNat 32 ty.code).symm

/-- SEQ_ADD of a parameter that names an op, in phase ACCUMULATE, with its two checks. -/
theorem exec_seqAdd {s : State} {ty : CtrlType} {p : Word} {op : Op} (hf : s.fault = false)
    (hphase : s.phase = .accumulate) (hop : opOf ty p = some op) :
    exec (.seqAdd ty p) s = finish s
      (if Table.find s.opt op = none ∧ s.opt.length = s.caps.optab.ops then
        raise .bufferFull 6 (natInfo s.caps.optab.ops)
      else if (Table.find s.opt op).getD 0 = 0xFFFFFFFF then raise .counterOverflow (typeInfo ty) p
      else .ok ({ s with opt := Table.set s.opt op ((Table.find s.opt op).getD 0 + 1) },
        ((Table.find s.opt op).getD 0 + 1).setWidth 64)) := by
  have hphase' : ¬ s.phase = .built := by simp [hphase]
  simp only [exec, execSeqAdd, command_ready hf, if_neg hphase', hop]
  rfl

/-- One more use, as a number. -/
theorem succ_eq_ofNat {f : Nat} {x : Word} (h : f = x.toNat) : x + 1 = BitVec.ofNat 32 (f + 1) := by
  apply BitVec.eq_of_toNat_eq
  rw [BitVec.toNat_add, BitVec.toNat_ofNat, h]
  rfl

/-- Settles O43: the checks in their order, then the laws of the table. -/
theorem seqAddCountsUse : Obligations.SeqAddCountsUse := by
  intro s ty p hf hphase
  refine ⟨fun h => ?_, ?_⟩
  · have hphase' : ¬ s.phase = .built := by simp [hphase]
    simp only [exec, execSeqAdd, command_ready hf, if_neg hphase', opOf_of_ge ty h, finish_raise]
    exact congrArg _ (raised_report s p _ nofun rfl rfl)
  · rintro op rfl h
    rw [exec_seqAdd hf hphase (opOf_of_lt ty h)]
    refine ⟨fun hnone hfull => ?_, fun hmax => ?_, fun f hwf hfreq hlt hroom => ?_⟩
    · rw [if_pos ⟨hnone, hfull⟩, finish_raise, raised_bufferFull]
      rfl
    · have hknown : Table.find s.opt ⟨ty, BitVec.ofNat 17 p.toNat⟩ ≠ none := by
        rw [hmax]
        exact nofun
      rw [if_neg (fun hc => hknown hc.1), hmax, Option.getD_some, if_pos rfl, finish_raise,
        typeInfo_eq]
      exact congrArg _ (raised_report s _ p nofun rfl rfl)
    · have hmax : (Table.find s.opt ⟨ty, BitVec.ofNat 17 p.toNat⟩).getD 0 ≠ 0xFFFFFFFF := by
        intro hc
        rw [hc] at hfreq
        exact absurd hfreq (Nat.ne_of_lt hlt)
      rw [if_neg (fun hc => hroom hc.1 hc.2), if_neg hmax, finish_ok, succ_eq_ofNat hfreq]
      refine ⟨_, rfl, Table.find_set_same _ _ _, fun o hne => Table.find_set_other _ _ hne,
        Table.length_set _ _ hwf, ?_⟩
      rw [setWidth_64_eq (n := f + 1) (by rw [BitVec.toNat_ofNat, Nat.mod_eq_of_lt (by omega)])]
      rfl

/-! ## The rank order -/

theorem Op.key_lt_iff (a b : Op) : a.key < b.key ↔
    a.param.toNat < b.param.toNat ∨
      (a.param.toNat = b.param.toNat ∧ a.type.code.toNat < b.type.code.toNat) := by
  have ha := a.type.code.isLt
  have hb := b.type.code.isLt
  unfold Op.key
  omega

theorem ranksBefore_iff (a b : Op × Word) : ranksBefore a b = true ↔
    b.2.toNat < a.2.toNat ∨ (a.2.toNat = b.2.toNat ∧ a.1.key < b.1.key) := by
  simp only [ranksBefore, Bool.or_eq_true, Bool.and_eq_true, decide_eq_true_eq, BitVec.lt_def, Op.before_iff,
    ← BitVec.toNat_inj]

theorem ranksBefore_trans {a b c : Op × Word} (h : ranksBefore a b = true) (h' : ranksBefore b c = true) :
    ranksBefore a c = true := by
  rw [ranksBefore_iff] at *
  omega

theorem ranksBefore_of_not {a b : Op × Word} (h : ¬ ranksBefore a b = true) (hne : a.1 ≠ b.1) :
    ranksBefore b a = true := by
  have hkey : a.1.key ≠ b.1.key := fun hk => hne (Op.key_inj hk)
  rw [ranksBefore_iff] at *
  omega

/-- An entry of a new op goes to its rank. -/
theorem insertRanked_pairwise {e : Op × Word} {l : List (Op × Word)} (hl : l.Pairwise (ranksBefore · ·))
    (hne : ∀ x ∈ l, e.1 ≠ x.1) : (insertRanked e l).Pairwise (ranksBefore · ·) := by
  induction l with
  | nil => exact List.pairwise_singleton _ _
  | cons x l ih =>
    obtain ⟨hx, hl⟩ := List.pairwise_cons.1 hl
    obtain ⟨hnex, hne⟩ := List.forall_mem_cons.1 hne
    rw [insertRanked]
    split
    next hbefore =>
      refine List.pairwise_cons.2 ⟨fun y hy => ?_, List.pairwise_cons.2 ⟨hx, hl⟩⟩
      obtain rfl | hy := List.mem_cons.1 hy
      · exact hbefore
      · exact ranksBefore_trans hbefore (hx y hy)
    next hbefore =>
      refine List.pairwise_cons.2 ⟨fun y hy => ?_, ih hl hne⟩
      obtain rfl | hy := List.mem_cons.1 ((insertRanked_perm e l).mem_iff.1 hy)
      · exact ranksBefore_of_not hbefore hnex
      · exact hx y hy

theorem rankOrder_perm (opt : List (Op × Word)) : (rankOrder opt).Perm opt := by
  induction opt with
  | nil => exact .refl _
  | cons e es ih => exact (insertRanked_perm e _).trans (ih.cons e)

theorem rankOrder_pairwise {opt : List (Op × Word)} (h : (opt.map Prod.fst).Nodup) :
    (rankOrder opt).Pairwise (ranksBefore · ·) := by
  induction opt with
  | nil => exact .nil
  | cons e es ih =>
    rw [List.map_cons, List.nodup_cons] at h
    obtain ⟨hnew, hrest⟩ := h
    refine insertRanked_pairwise (ih hrest) fun x hx heq => hnew ?_
    rw [heq]
    exact List.mem_map_of_mem (mem_rankOrder.1 hx)

/-- Settles O44: the insertion sort keeps the entries and puts each at its rank. -/
theorem rankOrderSortsByUse : Obligations.RankOrderSortsByUse := by
  refine fun opt h => ⟨rankOrder_perm opt, (rankOrder_pairwise h).imp fun {a b} hab => ?_⟩
  rwa [ranksBefore_iff, Op.key_lt_iff] at hab

/-! ## The figures of a build -/

theorem buildDirect_eq (s : State) : directSlots s.indexBits.toNat s.directLimit.toNat = BuildDirect s := rfl

theorem availableSlots_eq (s : State) : availableSlots s.indexBits.toNat s.directLimit.toNat =
    BuildDirect s + 16 * (2 ^ s.indexBits.toNat - BuildDirect s) := rfl

theorem blockCount_eq (n d : Nat) : blockCount n d = (n - d + 15) / 16 := by
  unfold blockCount blockSlots
  split <;> omega

/-- The words of a build: the ops of OPT in rank order, laid out with R147's figures. -/
def buildWords (s : State) : List Word :=
  layoutWords s.indexBits (min s.opt.length (BuildDirect s)) ((s.opt.length - BuildDirect s + 15) / 16)
    ((rankOrder s.opt).map Prod.fst)

theorem buildWords_length (s : State) :
    (buildWords s).length = s.opt.length + (s.opt.length - BuildDirect s + 15) / 16 := by
  rw [buildWords, layoutWords_length] <;> rw [List.length_map, rankOrder_length]
  exact min_le_left _ _

/-- SEQ_BUILD with no frame open, with its two capacity checks. -/
theorem exec_seqBuild {s : State} (hf : s.fault = false) (hclosed : s.encOpen = false) :
    exec .seqBuild s = finish s
      (if BuildDirect s + 16 * (2 ^ s.indexBits.toNat - BuildDirect s) < s.opt.length then
        raise .dictOverflow (natInfo s.opt.length)
          (natInfo (BuildDirect s + 16 * (2 ^ s.indexBits.toNat - BuildDirect s)))
      else if s.caps.dict.units < (buildWords s).length then raise .bufferFull 4 (natInfo s.caps.dict.units)
      else .ok ({ s with
        dict := Memory.writeAll s.dict 0 (buildWords s)
        dictLen := BitVec.ofNat 21 (buildWords s).length
        paths := buildPaths s.indexBits (min s.opt.length (BuildDirect s)) s.opt
        phase := .built
        seqIb := s.indexBits
        seqDirect := BitVec.ofNat 16 (min s.opt.length (BuildDirect s))
        seqBlocks := BitVec.ofNat 16 ((s.opt.length - BuildDirect s + 15) / 16) },
        BitVec.ofNat 64 (buildWords s).length)) := by
  have hopen : ¬ s.encOpen = true := by simp [hclosed]
  simp only [exec, execSeqBuild, command_ready hf, if_neg hopen, directCount_eq_min, blockCount_eq]
  rfl

/-- Settles O45: the ops are counted against Avail first, then the words against DICT_CAP. -/
theorem seqBuildCapacity : Obligations.SeqBuildCapacity := by
  rintro s n d hf hclosed rfl rfl
  rw [exec_seqBuild hf hclosed]
  refine ⟨fun hover => ?_, fun havail hfull => ?_⟩
  · rw [if_pos hover, finish_raise]
    exact congrArg _ (raised_report s _ _ nofun rfl rfl)
  · rw [if_neg (Nat.not_lt.2 havail), buildWords_length, if_pos hfull, finish_raise, raised_bufferFull]
    rfl

/-! ## The layout -/

theorem controlWord_eq (c : BitVec 4) (op : Op) : controlWord c op = BitVec.ofNat 32 (CwNat c.toNat op) := by
  rw [← controlWord_toNat, BitVec.ofNat_toNat, BitVec.setWidth_eq]

theorem longWord_eq {x : Nat} (h : x < 2 ^ 20) : longWord (BitVec.ofNat 20 x) = BitVec.ofNat 32 x := by
  apply BitVec.eq_of_toNat_eq
  rw [longWord_toNat, BitVec.toNat_ofNat, BitVec.toNat_ofNat]
  omega

section layout

variable (ib : BitVec 4) {dd p : Nat} (ops : List Op)

/-- A direct word stands at its op's rank. -/
theorem layoutWords_direct {k : Nat} (hk : k < ops.length) (hdd : k < dd) :
    (layoutWords ib dd p ops)[k]? = some (controlWord ib ops[k]) := by
  rw [layoutWords, List.getElem?_append_left (by simp; omega), List.getElem?_append_left (by simp; omega),
    List.getElem?_map, List.getElem?_take_of_lt hdd, List.getElem?_eq_getElem hk]
  rfl

/-- The pointer words stand after the direct words. -/
theorem layoutWords_pointer {b : Nat} (hdd : dd ≤ ops.length) (hb : b < p) :
    (layoutWords ib dd p ops)[dd + b]? = some (longWord (BitVec.ofNat 20 (dd + p + 16 * b))) := by
  have hlen : ((ops.take dd).map (controlWord ib)).length = dd := by simp [hdd]
  rw [layoutWords, List.getElem?_append_left (by simp; omega), List.getElem?_append_right (by omega), hlen,
    Nat.add_sub_cancel_left, List.getElem?_map, List.getElem?_range hb]
  rfl

/-- The extension words stand after the pointer words, in rank order. -/
theorem layoutWords_extension {k : Nat} (hk : k < ops.length) (hdd : dd ≤ k) :
    (layoutWords ib dd p ops)[p + k]? = some (controlWord 4 ops[k]) := by
  have hlen : ((ops.take dd).map (controlWord ib) ++
      (List.range p).map fun b => longWord (BitVec.ofNat 20 (dd + p + blockSlots * b))).length = dd + p := by
    simp
    omega
  rw [layoutWords, List.getElem?_append_right (by omega), hlen, List.getElem?_map, List.getElem?_drop,
    show dd + (p + k - (dd + p)) = k by omega, List.getElem?_eq_getElem hk]
  rfl

end layout

/-! ## The paths -/

/-- The rank order names no op twice. -/
theorem rankOrder_nodup {opt : List (Op × Word)} (h : Table.wf opt) : ((rankOrder opt).map Prod.fst).Nodup :=
  ((rankOrder_perm opt).map Prod.fst).nodup_iff.2 (Table.nodup h)

theorem mem_rankOrder_ops {opt : List (Op × Word)} {op : Op} :
    op ∈ (rankOrder opt).map Prod.fst ↔ op ∈ opt.map Prod.fst :=
  ((rankOrder_perm opt).map Prod.fst).mem_iff

/-- The op of rank k has the path of rank k. -/
theorem find_buildPaths {opt : List (Op × Word)} (hwf : Table.wf opt) (ib : BitVec 4) (dd : Nat) {k : Nat}
    (hk : k < ((rankOrder opt).map Prod.fst).length) :
    Table.find (buildPaths ib dd opt) ((rankOrder opt).map Prod.fst)[k] = some (pathOfRank ib dd k) := by
  have hmem : ((rankOrder opt).map Prod.fst)[k] ∈ opt.map Prod.fst := mem_rankOrder_ops.1 (List.getElem_mem hk)
  obtain ⟨e, he, hop⟩ := List.mem_map.1 hmem
  have hnodup : ((buildPaths ib dd opt).map Prod.fst).Nodup := by
    rw [buildPaths_ops]
    exact Table.nodup hwf
  refine Table.find_of_mem hnodup (List.mem_map.2 ⟨e, he, ?_⟩)
  rw [hop, (rankOrder_nodup hwf).idxOf_getElem]

theorem find_buildPaths_none {opt : List (Op × Word)} (ib : BitVec 4) (dd : Nat) {op : Op}
    (h : op ∉ (rankOrder opt).map Prod.fst) : Table.find (buildPaths ib dd opt) op = none := by
  rw [Table.find_none_iff, buildPaths_ops]
  exact fun hmem => h (mem_rankOrder_ops.2 hmem)

/-- Settles O46: the words written are read back at the indices of the layout, the paths found at the ops' ranks, and
every figure fits its register. -/
theorem seqBuildLaysOutDictionary : Obligations.SeqBuildLaysOutDictionary := by
  rintro s n d dd p ops hf hclosed hwf rfl rfl rfl rfl rfl havail hroom
  have hops : ((rankOrder s.opt).map Prod.fst).length = s.opt.length := by rw [List.length_map, rankOrder_length]
  have hlen := buildWords_length s
  have hroom' : (buildWords s).length ≤ s.caps.dict.units := hlen.trans_le hroom
  have hpow : 2 ^ s.indexBits.toNat ≤ 2 ^ 15 :=
    Nat.pow_le_pow_right (by omega) (by have := s.indexBits.isLt; omega)
  have hd : BuildDirect s ≤ 2 ^ s.indexBits.toNat := min_le_right _ _
  have hread {a : Nat} {w : Word} (h : (buildWords s)[a]? = some w) :
      Memory.read (Memory.writeAll s.dict 0 (buildWords s)) a = some w := by
    obtain ⟨ha, rfl⟩ := List.getElem?_eq_some_iff.1 h
    have hwritten := Memory.read_writeAll_at s.dict (a := 0) (buildWords s) ha
    rwa [Nat.zero_add] at hwritten
  refine ⟨_, (exec_seqBuild hf hclosed).trans (by
    rw [if_neg (Nat.not_lt.2 havail), if_neg (Nat.not_lt.2 hroom'), finish_ok]), ?_, fun k hk hkdd => ?_,
    fun b hb => ?_, fun k hk hkdd => ?_, fun a ha => ?_, fun k hk => ?_, fun op hop => ?_, ?_, ?_, ?_⟩
  · exact (toNat_ofNat_of_le_units hroom').trans hlen
  · rw [← controlWord_eq]
    exact hread (layoutWords_direct s.indexBits _ hk hkdd)
  · rw [← longWord_eq (by omega)]
    exact hread (layoutWords_pointer s.indexBits _ (by omega) hb)
  · exact (hread (layoutWords_extension s.indexBits _ hk hkdd)).trans (congrArg some (controlWord_eq 4 _))
  · exact Memory.read_writeAll_before _ _ (.inr (by omega))
  · exact find_buildPaths hwf _ _ hk
  · exact find_buildPaths_none _ _ hop
  · exact (BitVec.toNat_ofNat _ 16).trans (Nat.mod_eq_of_lt (by omega))
  · exact (BitVec.toNat_ofNat _ 16).trans (Nat.mod_eq_of_lt (by omega))
  · rw [hlen]
    rfl

/-! ## SEQ_PATH -/

/-- A path's fragments in the places of DOUT (R150). -/
theorem pathResult_extended (i : BitVec 15) (ib o : BitVec 4) :
    pathResult (.extended i ib o) = BitVec.ofNat 64 (2 ^ 24 + o.toNat * 2 ^ 16 + i.toNat) := by
  have ho := o.isLt
  have hi := i.isLt
  apply BitVec.eq_of_toNat_eq
  simp only [pathResult, append_toNat, BitVec.toNat_ofNat]
  omega

theorem raised_unknownOp (s : State) (a b : Word) : s.raised .unknownOp a b = reportState s .unknownOp a b :=
  raised_report s a b nofun rfl rfl

/-- Settles O47: the command answers the path that PATHS holds for the op. -/
theorem seqPathReturnsPath : Obligations.SeqPathReturnsPath := by
  intro s ty p hf hbuilt
  have hphase : ¬ s.phase ≠ .built := not_not.2 hbuilt
  simp only [exec, execSeqPath, command_ready hf, if_neg hphase]
  refine ⟨fun i ib hp hfind => ?_, fun i ib o hp hfind => ?_, fun h => ?_⟩
  · rw [opOf_of_lt ty hp, Option.bind_some, hfind, BitVec.ofNat_toNat]
    rfl
  · rw [opOf_of_lt ty hp, Option.bind_some, hfind, ← pathResult_extended i ib o]
    rfl
  · have hnone : (opOf ty p).bind (Table.find s.paths) = none := by
      by_cases hp : 2 ^ 17 ≤ p.toNat
      · rw [opOf_of_ge ty hp, Option.bind_none]
      · rw [opOf_of_lt ty (Nat.not_le.1 hp), Option.bind_some, h.resolve_left hp]
    rw [hnone, typeInfo_eq]
    exact congrArg _ (raised_unknownOp s _ p)

end Sys2Proof.Machine

namespace Sys2Proof.Machine

open Sys2Proof

/-! # The resolver (45_resolver.md R160 to R165)

Over a loaded reader a resolve is what the loop does from the end of its chain of pointers. CW_RESOLVE and STREAM_NEXT
pass an abort of it on; from a result CW_RESOLVE answers the word, and STREAM_NEXT looks at its type. -/

/-! ## The two commands around a resolve -/

theorem cmdWord_cwResolve : Instr.cwResolve.cmdWord = 0x48000000 := by
  rw [Instr.cmdWord_eq]
  simp [Instr.opcode, Instr.operands]

theorem cmdWord_streamNext : Instr.streamNext.cmdWord = 0x49000000 := by
  rw [Instr.cmdWord_eq]
  simp [Instr.opcode, Instr.operands]

theorem brExhausted_false {s : State} (h : s.brPos.toNat < 8 * s.brLen.toNat) : s.brExhausted = false := by
  simpa [State.brExhausted] using h

/-- CW_RESOLVE, or STREAM_NEXT before the end of the stream: the commands that resolve. -/
def Resolves (s : State) (i : Instr) : Prop :=
  i = .cwResolve ∨ (i = .streamNext ∧ s.brPos.toNat < 8 * s.brLen.toNat)

/-- An abort of the resolve is the command's. -/
theorem exec_of_resolve_error {s : State} {i : Instr} {e : Abort} (hf : s.fault = false) (hs : s.streamStop = false)
    (hi : Resolves s i) (h : resolve s i.cmdWord = .error e) : exec i s = finish s (.error e) := by
  have hs' : ¬ s.streamStop = true := by simp [hs]
  obtain rfl | ⟨rfl, hpos⟩ := hi
  · simp only [exec, execCwResolve, command_ready hf, if_neg hs', h, Attempt.bind_error]
  · have hend : ¬ s.brExhausted = true := by simp [brExhausted_false hpos]
    simp only [exec, execStreamNext, command_ready hf, if_neg hs', if_neg hend, h, Attempt.bind_error]

/-- DOUT of the two commands. -/
theorem resultWord_eq (h : Nat) (w : Word) :
    BitVec.ofNat 32 h ++ w = BitVec.ofNat 64 (h * 2 ^ 32 + w.toNat) := by
  have hw := w.isLt
  apply BitVec.eq_of_toNat_eq
  rw [append_toNat, BitVec.toNat_ofNat, BitVec.toNat_ofNat]
  omega

/-- CW_RESOLVE of a path that resolves. -/
theorem exec_cwResolve_ok {s : State} {w : Word} {pos h : Nat} (hf : s.fault = false) (hs : s.streamStop = false)
    (hr : resolve s Instr.cwResolve.cmdWord = .ok (w, pos, h)) :
    exec .cwResolve s =
      .next { s with
        brPos := BitVec.ofNat 32 pos
        dout := BitVec.ofNat 64 (h * 2 ^ 32 + w.toNat)
        resp := .ok } := by
  have hs' : ¬ s.streamStop = true := by simp [hs]
  rw [← resultWord_eq]
  simp only [exec, execCwResolve, command_ready hf, if_neg hs', hr, Attempt.bind_ok, Attempt.pure_eq, finish_ok,
    State.completed]

/-! ## The end of the chain -/

/-- A chain that ends at an operation word resolves to it. -/
theorem resolve_final {s : State} (hl : s.ReaderLoaded) (cmd : Word) {h pos frag idx : Nat} {w : Word}
    (hc : ResolveChain s h pos frag idx) (hh : h ≤ 100) (hw : dictAt s idx = some w)
    (hcount : w.toNat / 2 ^ 20 % 2 ^ 4 ≠ 0) (hpos : pos + w.toNat / 2 ^ 20 % 2 ^ 4 < 2 ^ 32) :
    resolve s cmd = .ok (w, pos + w.toNat / 2 ^ 20 % 2 ^ 4, h) := by
  rw [resolve_chain hl cmd hc hh, dictWord_some hw, Attempt.bind_ok, chase_final hcount,
    cursorPast_ok (by unfold cursorMax; omega)]
  simp only [Attempt.bind_ok, show 100 - (100 - h) = h by omega]

/-- A chain that ends at an operation word whose own fragment ends past the largest cursor. -/
theorem resolve_final_high {s : State} (hl : s.ReaderLoaded) (cmd : Word) {h pos frag idx : Nat} {w : Word}
    (hc : ResolveChain s h pos frag idx) (hh : h ≤ 100) (hw : dictAt s idx = some w)
    (hcount : w.toNat / 2 ^ 20 % 2 ^ 4 ≠ 0) (hpos : 2 ^ 32 ≤ pos + w.toNat / 2 ^ 20 % 2 ^ 4) :
    resolve s cmd = raise .contract cmd (natInfo pos) := by
  rw [resolve_chain hl cmd hc hh, dictWord_some hw, Attempt.bind_ok, chase_final hcount,
    cursorPast_high (by unfold cursorMax; omega)]
  rfl

/-- A chain that ends at an index past the dictionary. -/
theorem resolve_past {s : State} (hl : s.ReaderLoaded) (cmd : Word) {h pos frag idx : Nat}
    (hc : ResolveChain s h pos frag idx) (hh : h ≤ 100) (hidx : s.dictLen.toNat ≤ idx) :
    resolve s cmd = raise .indexRange (natInfo idx) (natInfo s.dictLen.toNat) := by
  rw [resolve_chain hl cmd hc hh, dictWord_past hidx]
  rfl

/-- A chain that ends at an unwritten word. -/
theorem resolve_unwritten {s : State} (hl : s.ReaderLoaded) (cmd : Word) {h pos frag idx : Nat}
    (hc : ResolveChain s h pos frag idx) (hh : h ≤ 100) (hidx : idx < s.dictLen.toNat)
    (hread : Memory.read s.dict idx = none) : resolve s cmd = .error (.unwritten .dict idx) := by
  rw [resolve_chain hl cmd hc hh, dictWord_unwritten hidx hread]
  rfl

/-- The 101st pointer. -/
theorem resolve_limit {s : State} (hl : s.ReaderLoaded) (cmd : Word) {pos frag idx : Nat} {w : Word}
    (hc : ResolveChain s 100 pos frag idx) (hw : dictAt s idx = some w) (hlong : w.toNat / 2 ^ 20 % 2 ^ 4 = 0) :
    resolve s cmd = raise .hopLimit (natInfo idx) 100 := by
  rw [resolve_chain hl cmd hc le_rfl, dictWord_some hw, Attempt.bind_ok, chase_limit hlong]
  rfl

/-- A pointer whose fragment ends past the largest cursor. -/
theorem resolve_pointer_high {s : State} (hl : s.ReaderLoaded) (cmd : Word) {h pos frag idx : Nat} {w : Word}
    (hc : ResolveChain s h pos frag idx) (hh : h < 100) (hw : dictAt s idx = some w)
    (hlong : w.toNat / 2 ^ 20 % 2 ^ 4 = 0) (hpos : 2 ^ 32 ≤ pos + frag) :
    resolve s cmd = raise .contract cmd (natInfo pos) := by
  obtain ⟨left, hleft⟩ := Nat.exists_eq_add_of_lt hh
  rw [resolve_chain hl cmd hc hh.le, dictWord_some hw, Attempt.bind_ok, show 100 - h = left + 1 by omega, chase,
    if_pos ((isLong_iff w).2 hlong), cursorPast_high (by unfold cursorMax; omega)]
  rfl

/-- Settles O54: the chain's word is the result. -/
theorem cwResolveFollowsChain : Obligations.CwResolveFollowsChain :=
  fun _ _ _ _ _ _ hf hs hl hc hh hw hcount hpos => exec_cwResolve_ok hf hs (resolve_final hl _ hc hh hw hcount hpos)

/-- Settles O55: each end of the chain is an abort of the resolve, which the command passes on. -/
theorem corruptPathIsReported : Obligations.CorruptPathIsReported := by
  intro s i cmd h pos frag idx hf hs hl hi hc
  have hres : Resolves s i := hi.imp And.left fun hn => ⟨hn.1, hn.2.2⟩
  obtain rfl : i.cmdWord = cmd := by
    obtain ⟨rfl, rfl⟩ | ⟨rfl, rfl, -⟩ := hi
    · exact cmdWord_cwResolve
    · exact cmdWord_streamNext
  refine ⟨fun hh hidx => ?_, fun w hh hw hlong => ?_, fun w hh hw hcount hpos => ?_, fun w hh hw hlong hpos => ?_⟩
  · rw [exec_of_resolve_error hf hs hres (resolve_past hl _ hc hh hidx), ← raised_corrupt _ _ _ rfl]
    rfl
  · subst hh
    rw [exec_of_resolve_error hf hs hres (resolve_limit hl _ hc hw hlong), ← raised_corrupt _ _ _ rfl]
    rfl
  · rw [exec_of_resolve_error hf hs hres (resolve_final_high hl _ hc hh hw hcount hpos), ← raised_contract]
    rfl
  · rw [exec_of_resolve_error hf hs hres (resolve_pointer_high hl _ hc hh hw hlong hpos), ← raised_contract]
    rfl

/-! ## STREAM_NEXT -/

/-- The type of a word, by its code. -/
theorem ofCode_typeField_eq_iff (w : Word) (t : CtrlType) :
    CtrlType.ofCode (typeField w) = t ↔ w.toNat / 2 ^ 17 % 2 ^ 3 = t.code.toNat := by
  rw [← typeField_toNat, BitVec.toNat_inj]
  exact ⟨fun h => by rw [← h, CtrlType.code_ofCode], fun h => by rw [h, CtrlType.ofCode_code]⟩

/-- STREAM_NEXT before the end of the stream, of a path that resolves. -/
theorem exec_streamNext_resolved {s : State} {w : Word} {pos h : Nat} (hf : s.fault = false)
    (hs : s.streamStop = false) (hpos : s.brPos.toNat < 8 * s.brLen.toNat)
    (hr : resolve s Instr.streamNext.cmdWord = .ok (w, pos, h)) :
    exec .streamNext s = finish s
      (if CtrlType.ofCode (typeField w) = .unk then raise .unknownType w s.brPos
      else skipRun s Instr.streamNext.cmdWord w pos >>= fun l =>
        .ok ({ s with brPos := BitVec.ofNat 32 l.2 }, BitVec.ofNat 32 l.1 ++ w)) := by
  have hs' : ¬ s.streamStop = true := by simp [hs]
  have hend : ¬ s.brExhausted = true := by simp [brExhausted_false hpos]
  simp only [exec, execStreamNext, command_ready hf, if_neg hs', if_neg hend, hr, Attempt.bind_ok]
  rfl

/-- The run length of a skip word over a loaded reader. -/
theorem skipRun_skip {s : State} (hl : s.ReaderLoaded) (cmd : Word) {w : Word} {pos : Nat}
    (hw : CtrlType.ofCode (typeField w) = .skip) (hpos : pos + 5 < 2 ^ 32) :
    skipRun s cmd w pos = .ok (streamField s pos 5, pos + 5) := by
  rw [skipRun, if_pos hw, skipLenBits, peekFrom_loaded hl, Attempt.bind_ok,
    cursorPast_ok (by unfold cursorMax; omega), Attempt.bind_ok, Attempt.pure_eq]

theorem skipRun_other (s : State) (cmd : Word) {w : Word} (pos : Nat) (hw : CtrlType.ofCode (typeField w) ≠ .skip) :
    skipRun s cmd w pos = .ok (0, pos) := if_neg hw

/-- Settles O56: the end of the stream is checked before the path, and the type of the word after it. -/
theorem streamNextReadsElement : Obligations.StreamNextReadsElement := by
  refine fun s hf hs => ⟨fun hend => ?_, fun h pos frag idx e w hpos hl hc hh hw hcount he => ?_⟩
  · have hs' : ¬ s.streamStop = true := by simp [hs]
    have hexh : s.brExhausted = true := by simpa [State.brExhausted] using hend
    simp only [exec, execStreamNext, command_ready hf, if_neg hs', if_pos hexh, finish_ok, State.completed]
    rfl
  · subst he
    have hres := fun hlt => resolve_final hl Instr.streamNext.cmdWord hc hh hw hcount hlt
    refine ⟨fun hskip hlt => ?_, fun hunk hlt => ?_, fun hskip hunk hlt => ?_⟩
    · have hskip' := (ofCode_typeField_eq_iff w .skip).2 hskip
      rw [exec_streamNext_resolved hf hs hpos (hres (by omega)), if_neg (by rw [hskip']; decide),
        skipRun_skip hl _ hskip' hlt, Attempt.bind_ok, resultWord_eq]
      rfl
    · rw [exec_streamNext_resolved hf hs hpos (hres hlt), if_pos ((ofCode_typeField_eq_iff w .unk).2 hunk),
        finish_raise, raised_corrupt _ _ _ rfl]
    · rw [exec_streamNext_resolved hf hs hpos (hres hlt), if_neg (mt (ofCode_typeField_eq_iff w .unk).1 hunk),
        skipRun_other _ _ _ (mt (ofCode_typeField_eq_iff w .skip).1 hskip), Attempt.bind_ok,
        resultWord_eq, Nat.zero_mul, Nat.zero_add]
      rfl

/-! # A built path resolves to its op (44_sequencer.md R158)

A successful build is one that the capacity checks of `seqBuildCapacity` let pass, so its dictionary and paths are those
of `seqBuildLaysOutDictionary`. The path of a direct op selects its word; that of another selects the pointer of its
block, and the offset the op's word in the block. -/

/-- What a successful SEQ_BUILD found: no frame open, and room for the ops and for the words. -/
theorem seqBuild_ok {s t : State} (h : exec .seqBuild s = .next t) (hok : t.resp = .ok) :
    s.fault = false ∧ s.encOpen = false ∧
      s.opt.length ≤ BuildDirect s + 16 * (2 ^ s.indexBits.toNat - BuildDirect s) ∧
      s.opt.length + (s.opt.length - BuildDirect s + 15) / 16 ≤ s.caps.dict.units := by
  obtain ⟨u, v, rfl, ⟨hclosed, -⟩, hf⟩ | ⟨-, rfl⟩ | ⟨-, e, a, b, rfl, hne, -⟩ := exec_next_outcome h
  · have hf : s.fault = false := by simpa using hf
    obtain ⟨hover, hfull⟩ := seqBuildCapacity s _ _ hf hclosed rfl rfl
    have havail : s.opt.length ≤ BuildDirect s + 16 * (2 ^ s.indexBits.toNat - BuildDirect s) := by
      by_contra hc
      have hresp := congrArg State.resp (Host.Outcome.next.inj (h.symm.trans (hover (by omega))))
      exact absurd hresp nofun
    refine ⟨hf, hclosed, havail, ?_⟩
    by_contra hc
    have hresp := congrArg State.resp (Host.Outcome.next.inj (h.symm.trans (hfull havail (by omega))))
    exact absurd hresp nofun
  · exact absurd hok nofun
  · exact absurd hok hne

/-- A stream that holds a field's bits from a cursor on gives the field there. -/
theorem streamField_of_fieldBits {s : State} {fs gs : List (Nat × Nat)} {pos v n : Nat}
    (h : ∀ k < fieldWidth (fs ++ ([(v, n)] ++ gs)),
      streamBit s (pos + k) = (fieldBits (fs ++ ([(v, n)] ++ gs))).getD k false) :
    streamField s (pos + fieldWidth fs) n = v % 2 ^ n := by
  refine streamField_eq_mod fun k hk => ?_
  have hwidth : fieldWidth (fs ++ ([(v, n)] ++ gs)) = fieldWidth fs + (n + fieldWidth gs) := by
    simp [fieldWidth_append]
  rw [Nat.add_assoc, h _ (by omega), fieldBits_getD_field fs gs hk]

/-- The fields of an op's word, as numbers. -/
theorem CwNat_fields {c : Nat} (op : Op) (hc : c < 2 ^ 4) :
    CwNat c op < 2 ^ 32 ∧ CwNat c op / 2 ^ 20 = c ∧ CwNat c op % 2 ^ 20 = CwNat 0 op := by
  have htype := op.type.code.isLt
  have hparam := op.param.isLt
  unfold CwNat
  omega

/-- What CW_RESOLVE answers for a path of `width` bits to the op's word, with its count c, after h pointers. -/
def ResolvesTo (u : State) (op : Op) (width c h : Nat) : Prop :=
  ∃ w : State, exec .cwResolve u = .next w ∧ w.resp = .ok ∧ w.brPos.toNat = u.brPos.toNat + width ∧
    w.dout.toNat % 2 ^ 20 = CwNat 0 op ∧ w.dout.toNat / 2 ^ 20 = c + h * 2 ^ 12

/-- A chain to the word of an op, whose own fragment ends the path. -/
theorem resolvesTo_of_chain {u : State} {op : Op} {h pos frag idx width c : Nat} (hf : u.fault = false)
    (hs : u.streamStop = false) (hl : u.ReaderLoaded) (hc : ResolveChain u h pos frag idx) (hh : h ≤ 100)
    (hw : dictAt u idx = some (BitVec.ofNat 32 (CwNat c op))) (hpos : 0 < c) (hlt : c < 2 ^ 4)
    (hend : pos + c = u.brPos.toNat + width) (hcursor : u.brPos.toNat + width < 2 ^ 32) :
    ResolvesTo u op width c h := by
  obtain ⟨hlt32, hcount, hlow⟩ := CwNat_fields op hlt
  have hword : (BitVec.ofNat 32 (CwNat c op)).toNat = CwNat c op := by
    rw [BitVec.toNat_ofNat, Nat.mod_eq_of_lt hlt32]
  have hcount' : (BitVec.ofNat 32 (CwNat c op)).toNat / 2 ^ 20 % 2 ^ 4 = c := by
    rw [hword, hcount, Nat.mod_eq_of_lt hlt]
  have hexec := cwResolveFollowsChain u h pos frag idx _ hf hs hl hc hh hw (by omega) (by omega)
  rw [hcount', hword] at hexec
  have hdout : (BitVec.ofNat 64 (h * 2 ^ 32 + CwNat c op)).toNat = h * 2 ^ 32 + CwNat c op := by
    rw [BitVec.toNat_ofNat]
    omega
  refine ⟨_, hexec, rfl, ?_, ?_, ?_⟩
  · exact (BitVec.toNat_ofNat _ 32).trans (by omega)
  · rw [hdout]
    omega
  · rw [hdout]
    omega

/-- The path of a direct op, over a stream that holds it and a dictionary with the op's word at its index. -/
theorem resolvesTo_direct {u : State} {op : Op} {i : BitVec 15} {ib : BitVec 4} (hf : u.fault = false)
    (hs : u.streamStop = false) (hl : u.ReaderLoaded) (hib : u.indexBits = ib) (hpos : 1 ≤ ib.toNat)
    (hi : i.toNat < 2 ^ ib.toNat) (hw : dictAt u i.toNat = some (BitVec.ofNat 32 (CwNat ib.toNat op)))
    (hcursor : u.brPos.toNat + fieldWidth (Path.direct i ib).frags < 2 ^ 32)
    (hbits : ∀ k < fieldWidth (Path.direct i ib).frags,
      streamBit u (u.brPos.toNat + k) = (fieldBits (Path.direct i ib).frags).getD k false) :
    ResolvesTo u op (fieldWidth (Path.direct i ib).frags) ib.toNat 0 := by
  have hindex : streamField u u.brPos.toNat ib.toNat = i.toNat :=
    (streamField_of_fieldBits (fs := []) (gs := []) hbits).trans (Nat.mod_eq_of_lt hi)
  have hchain : ResolveChain u 0 u.brPos.toNat ib.toNat i.toNat := by
    rw [ResolveChain, hib, hindex]
    exact .here _ _ _
  exact resolvesTo_of_chain hf hs hl hchain (by omega) hw (by omega) ib.isLt (by rw [Path.frags_width]) hcursor

/-- The path of another op, over a stream that holds it and a dictionary with the pointer of its block at the index and
the op's word in the block. -/
theorem resolvesTo_extended {u : State} {op : Op} {i : BitVec 15} {ib o : BitVec 4} {base : Nat} (hf : u.fault = false)
    (hs : u.streamStop = false) (hl : u.ReaderLoaded) (hib : u.indexBits = ib) (hi : i.toNat < 2 ^ ib.toNat)
    (hbase : base < 2 ^ 20) (hp : dictAt u i.toNat = some (BitVec.ofNat 32 base))
    (hw : dictAt u (base + o.toNat) = some (BitVec.ofNat 32 (CwNat 4 op)))
    (hcursor : u.brPos.toNat + fieldWidth (Path.extended i ib o).frags < 2 ^ 32)
    (hbits : ∀ k < fieldWidth (Path.extended i ib o).frags,
      streamBit u (u.brPos.toNat + k) = (fieldBits (Path.extended i ib o).frags).getD k false) :
    ResolvesTo u op (fieldWidth (Path.extended i ib o).frags) 4 1 := by
  have hwidth : fieldWidth (Path.extended i ib o).frags = ib.toNat + 4 := Path.frags_width _
  have hindex : streamField u u.brPos.toNat ib.toNat = i.toNat :=
    (streamField_of_fieldBits (fs := []) (gs := [(o.toNat, 4)]) hbits).trans (Nat.mod_eq_of_lt hi)
  have hoffset : streamField u (u.brPos.toNat + ib.toNat) 4 = o.toNat :=
    (streamField_of_fieldBits (fs := [(i.toNat, ib.toNat)]) (gs := []) hbits).trans (Nat.mod_eq_of_lt o.isLt)
  have hword : (BitVec.ofNat 32 base).toNat = base := by
    rw [BitVec.toNat_ofNat]
    omega
  have hchain : ResolveChain u 1 (u.brPos.toNat + ib.toNat) 4 (base + o.toNat) := by
    rw [ResolveChain, hib, hindex]
    refine .hop hp (by omega) (by unfold cursorMax; omega) ?_
    rw [hoffset, hword, Nat.mod_eq_of_lt hbase]
    exact .here _ _ _
  exact resolvesTo_of_chain hf hs hl hchain (by omega) hw (by omega) (by omega) (by omega) hcursor

/-- Settles O48: the op stands at some rank of the order; the layout puts its word, and the pointer of its block, where
the path of that rank leads. -/
theorem builtPathResolvesToItsOp : Obligations.BuiltPathResolvesToItsOp := by
  intro s t op f hlegal hexec hok hfind
  obtain ⟨hf, hclosed, havail, hroom⟩ := seqBuild_ok hexec hok
  obtain ⟨hwf, -⟩ := hlegal.sequencer
  obtain ⟨hib, -⟩ := hlegal.config
  obtain ⟨t', hexec', hlen, hdirect, hpointer, hext, -, hpaths, -, -, -, hframe⟩ :=
    seqBuildLaysOutDictionary s _ _ _ _ _ hf hclosed hwf rfl rfl rfl rfl rfl havail hroom
  obtain rfl : t = t' := Host.Outcome.next.inj (hexec.symm.trans hexec')
  have hseqIb : t.seqIb = s.indexBits := by rw [hframe]
  have hmem : op ∈ (rankOrder s.opt).map Prod.fst :=
    mem_rankOrder_ops.2 (List.mem_map_of_mem (Table.find_some_mem hfind))
  obtain ⟨k, hk, rfl⟩ := List.getElem_of_mem hmem
  have hkn : k < s.opt.length := by simpa [rankOrder_length] using hk
  have hpow : 2 ^ s.indexBits.toNat ≤ 2 ^ 15 :=
    Nat.pow_le_pow_right (by omega) (by have := s.indexBits.isLt; omega)
  have hd : BuildDirect s ≤ 2 ^ s.indexBits.toNat := min_le_right _ _
  refine ⟨_, hpaths k hk, fun u huf hus hul hdict hdlen hindex hcursor hbits => ?_⟩
  rw [hseqIb] at hindex
  have hdictAt {a : Nat} {w : Word} (ha : a < t.dictLen.toNat) (hr : Memory.read t.dict a = some w) :
      dictAt u a = some w := by
    rw [dictAt, hdlen, if_pos ha, hdict, hr]
  by_cases hkdd : k < min s.opt.length (BuildDirect s)
  · have hi : (BitVec.ofNat 15 k).toNat = k := by
      rw [BitVec.toNat_ofNat]
      omega
    rw [if_pos hkdd] at hcursor hbits ⊢
    exact resolvesTo_direct huf hus hul hindex hib (by omega) (by rw [hi]; exact hdictAt (by omega) (hdirect k hk hkdd))
      hcursor hbits
  · generalize hb : (k - min s.opt.length (BuildDirect s)) / 16 = b at hcursor hbits ⊢
    have hi : (BitVec.ofNat 15 (min s.opt.length (BuildDirect s) + b)).toNat =
        min s.opt.length (BuildDirect s) + b := by
      rw [BitVec.toNat_ofNat]
      omega
    have ho : (BitVec.ofNat 4 ((k - min s.opt.length (BuildDirect s)) % 16)).toNat =
        (k - min s.opt.length (BuildDirect s)) % 16 := by
      rw [BitVec.toNat_ofNat]
      omega
    rw [if_neg hkdd] at hcursor hbits ⊢
    refine resolvesTo_extended huf hus hul hindex (by omega) (base := min s.opt.length (BuildDirect s) +
      (s.opt.length - BuildDirect s + 15) / 16 + 16 * b) (by omega) ?_ ?_ hcursor hbits
    · rw [hi]
      exact hdictAt (by omega) (hpointer b (by omega))
    · rw [ho]
      refine hdictAt (by omega) (Eq.trans ?_ (hext k hk (by omega)))
      congr 1
      omega

end Sys2Proof.Machine

namespace Sys2Proof.Machine

open Sys2Proof

/-! # The frame encoder (44_sequencer.md R151 to R156)

What SEQ_EMIT and SEQ_FRAME_END write is a list of fragments put into the bit writer: `putFrags_spec` says what they
append where they fit, and `putFrags_full` that nothing is written where they do not. -/

/-! ## The pending run -/

/-- The fragments of the pending run's marker: none where no skip is pending (R153, R156). -/
def PendingFrags (s : State) (fs : List (Nat × Nat)) : Prop :=
  (s.encPend = 0 ∧ fs = []) ∨
  ∃ path, s.encPend ≠ 0 ∧ Table.find s.paths s.encSkipop = some path ∧ fs = path.frags ++ [(s.encPend.toNat, 5)]

/-- The pending run, with room. -/
theorem flushSkips_spec {s : State} {fs : List (Nat × Nat)} (hp : PendingFrags s fs) (hw : s.BitWriterLegal)
    (hroom : s.RoomFor (fieldWidth fs)) :
    ∃ t, flushSkips s = .ok t ∧ Appended s t fs ∧ t = { s with bw := t.bw, bwBits := t.bwBits, encPend := 0 } := by
  obtain ⟨hpend, rfl⟩ | ⟨path, hpend, hfind, rfl⟩ := hp
  · refine ⟨s, flushSkips_none hpend, .refl hw, ?_⟩
    rw [← hpend]
  · obtain ⟨t, hput, happ, hframe⟩ := putFrags_spec _ hw hroom
    refine ⟨{ t with encPend := 0 }, ?_, happ, ?_⟩
    · rw [flushSkips_some hpend hfind, hput, Attempt.bind_ok]
    · rw [hframe]

/-- The pending run, without room. -/
theorem flushSkips_full {s : State} {fs : List (Nat × Nat)} (hp : PendingFrags s fs) (hw : s.BitWriterLegal)
    (h0 : s.RoomFor 0) (hroom : ¬ s.RoomFor (fieldWidth fs)) :
    flushSkips s = raise .bufferFull 1 (natInfo s.caps.bw.units) := by
  obtain ⟨-, rfl⟩ | ⟨path, hpend, hfind, rfl⟩ := hp
  · exact absurd h0 hroom
  · rw [flushSkips_some hpend hfind, putFrags_full _ hw hroom h0]
    rfl

/-- A legal writer holds what it has written. -/
theorem State.Legal.roomFor_zero {s : State} (h : s.Legal) : s.RoomFor 0 := h.lengths .bw

/-! ## SEQ_FRAME_END -/

theorem exec_seqFrameEnd {s : State} (hf : s.fault = false) (hopen : s.encOpen = true) :
    exec .seqFrameEnd s = finish s (flushSkips s >>= fun t =>
      .ok ({ t with encPend := 0, encCol := 0, encOpen := false }, t.bwBits.setWidth 64)) := by
  have hopen' : ¬ (!s.encOpen) = true := by simp [hopen]
  simp only [exec, execSeqFrameEnd, command_ready hf, if_neg hopen']
  rfl

/-- Settles O50: the run is flushed, and the rest of the state set. -/
theorem frameEndFlushesAndCloses : Obligations.FrameEndFlushesAndCloses := by
  intro s path fs hlegal hf hopen hempty hpending hroom
  have hp : PendingFrags s fs := by
    by_cases hpend : s.encPend = 0
    · exact .inl ⟨hpend, hempty hpend⟩
    · exact .inr ⟨path, hpend, hpending hpend⟩
  obtain ⟨t, hflush, happ, hframe⟩ := flushSkips_spec hp hlegal.bitWriter hroom
  refine ⟨({ t with encPend := 0, encCol := 0, encOpen := false } : State).completed (t.bwBits.setWidth 64),
    (exec_seqFrameEnd hf hopen).trans (by rw [hflush, Attempt.bind_ok, finish_ok]), happ, ?_⟩
  rw [BitVec.ofNat_toNat, hframe]
  rfl

/-! ## SEQ_EMIT -/

/-- SEQ_EMIT of an op that has a path, while a frame is open. -/
theorem exec_seqEmit {s : State} {ty : CtrlType} {p : Word} (hf : s.fault = false) (hopen : s.encOpen = true)
    (hlt : p.toNat < 2 ^ 17) (hpath : Table.find s.paths ⟨ty, BitVec.ofNat 17 p.toNat⟩ ≠ none) :
    exec (.seqEmit ty p) s = finish s (emitOp ⟨ty, BitVec.ofNat 17 p.toNat⟩ s >>= fun t =>
      .ok (advanceColumn t, t.bwBits.setWidth 64)) := by
  have hopen' : ¬ (!s.encOpen) = true := by simp [hopen]
  simp only [exec, execSeqEmit, command_ready hf, if_neg hopen', opOf_of_lt ty hlt]
  rw [if_neg hpath]
  rfl

/-- An op without a path. -/
theorem exec_seqEmit_unknown {s : State} {ty : CtrlType} {p : Word} (hf : s.fault = false) (hopen : s.encOpen = true)
    (h : 2 ^ 17 ≤ p.toNat ∨ Table.find s.paths ⟨ty, BitVec.ofNat 17 p.toNat⟩ = none) :
    exec (.seqEmit ty p) s = .next (reportState s .unknownOp (BitVec.ofNat 32 ty.code.toNat) p) := by
  have hopen' : ¬ (!s.encOpen) = true := by simp [hopen]
  simp only [exec, execSeqEmit, command_ready hf, if_neg hopen', typeInfo_eq]
  by_cases hp : 2 ^ 17 ≤ p.toNat
  · rw [opOf_of_ge ty hp]
    exact congrArg _ (raised_unknownOp s _ p)
  · rw [opOf_of_lt ty (Nat.not_le.1 hp)]
    dsimp only
    rw [if_pos (h.resolve_left hp)]
    exact congrArg _ (raised_unknownOp s _ p)

/-- The next column, as a number. -/
theorem advanceColumn_encCol (s : State) : (advanceColumn s).encCol = BitVec.ofNat 16 (NextColumn s) := by
  have hz : s.hTiles = 0 ↔ s.hTiles.toNat = 0 := ⟨fun h => by rw [h]; rfl, fun h => BitVec.eq_of_toNat_eq h⟩
  by_cases h : s.hTiles = 0
  · rw [advanceColumn_encCol_unset h, NextColumn, if_pos (hz.1 h), BitVec.ofNat_toNat, BitVec.setWidth_eq]
  · rw [advanceColumn, if_neg h, NextColumn, if_neg (mt hz.2 h)]

/-- A state with the writer and the pending run of t, and the column after s: what SEQ_EMIT leaves of s. -/
theorem advanceColumn_of_frame {s t : State} {pend : BitVec 5} {op : Op}
    (h : t = { s with bw := t.bw, bwBits := t.bwBits, encPend := pend, encSkipop := op }) :
    (advanceColumn t).completed (t.bwBits.setWidth 64) =
      { s with
        bw := t.bw, bwBits := t.bwBits, encPend := pend, encSkipop := op
        encCol := BitVec.ofNat 16 (NextColumn s), dout := BitVec.ofNat 64 t.bwBits.toNat, resp := .ok } := by
  have hcol : NextColumn t = NextColumn s := by
    rw [h]
    rfl
  rw [BitVec.ofNat_toNat, advanceColumn_frame, advanceColumn_encCol, hcol, h]
  rfl

theorem emitOp_other {op : Op} (s : State) (h : op.type ≠ .skip) : emitOp op s = emitOther op s := if_neg h

theorem emitOp_skip {op : Op} (s : State) (h : op.type = .skip) : emitOp op s = emitSkip op s := if_pos h

/-- The pending run and then the path of an op that is no skip, with room. -/
theorem emitOther_spec {s : State} {op : Op} {path : Path} {fs : List (Nat × Nat)} (hp : PendingFrags s fs)
    (hfind : Table.find s.paths op = some path) (hw : s.BitWriterLegal)
    (hroom : s.RoomFor (fieldWidth fs + fieldWidth path.frags)) :
    ∃ t, emitOther op s = .ok t ∧ Appended s t (fs ++ path.frags) ∧
      t = { s with bw := t.bw, bwBits := t.bwBits, encPend := 0 } := by
  obtain ⟨t, hflush, happ, hframe⟩ := flushSkips_spec hp hw (hroom.mono (by omega))
  have hcaps : t.caps = s.caps := by rw [hframe]
  have hfind' : Table.find t.paths op = some path := by rw [hframe]; exact hfind
  obtain ⟨u, hput, happ', hframe'⟩ := putFrags_spec path.frags happ.bitWriterLegal ((happ.roomFor hcaps _).2 hroom)
  refine ⟨u, ?_, happ.trans happ', ?_⟩
  · rw [emitOther, hflush, Attempt.bind_ok, writePath_some hfind', hput]
  · rw [hframe', hframe]

/-- The same, without room. -/
theorem emitOther_full {s : State} {op : Op} {path : Path} {fs : List (Nat × Nat)} (hp : PendingFrags s fs)
    (hfind : Table.find s.paths op = some path) (hw : s.BitWriterLegal) (h0 : s.RoomFor 0)
    (hroom : ¬ s.RoomFor (fieldWidth fs + fieldWidth path.frags)) :
    emitOther op s = raise .bufferFull 1 (natInfo s.caps.bw.units) := by
  by_cases hfs : s.RoomFor (fieldWidth fs)
  · obtain ⟨t, hflush, happ, hframe⟩ := flushSkips_spec hp hw hfs
    have hcaps : t.caps = s.caps := by rw [hframe]
    have hfind' : Table.find t.paths op = some path := by rw [hframe]; exact hfind
    rw [emitOther, hflush, Attempt.bind_ok, writePath_some hfind', putFrags_full _ happ.bitWriterLegal
      (mt (happ.roomFor hcaps _).1 hroom) ((happ.roomFor hcaps 0).2 hfs), hcaps]
  · rw [emitOther, flushSkips_full hp hw h0 hfs, Attempt.bind_raise]

/-- Settles O51: the two parts make one append. -/
theorem emitWritesPendingThenPath : Obligations.EmitWritesPendingThenPath := by
  intro s ty p path skipPath fs hlegal hf hopen hty hlt hfind hempty hpending hroom
  have hp : ∃ gs, PendingFrags s gs ∧ fs = gs ++ path.frags := by
    by_cases hpend : s.encPend = 0
    · exact ⟨[], .inl ⟨hpend, rfl⟩, hempty hpend⟩
    · obtain ⟨hskip, hfs⟩ := hpending hpend
      exact ⟨_, .inr ⟨skipPath, hpend, hskip, rfl⟩, hfs⟩
  obtain ⟨gs, hgs, rfl⟩ := hp
  rw [fieldWidth_append] at hroom
  obtain ⟨t, hemit, happ, hframe⟩ := emitOther_spec hgs hfind hlegal.bitWriter hroom
  refine ⟨(advanceColumn t).completed (t.bwBits.setWidth 64),
    (exec_seqEmit hf hopen hlt (by rw [hfind]; exact nofun)).trans (by
    rw [emitOp_other s hty, hemit, Attempt.bind_ok, finish_ok]), ?_, ?_⟩
  · simpa [Appended] using happ
  · have hfull : t = { s with bw := t.bw, bwBits := t.bwBits, encPend := 0, encSkipop := s.encSkipop } := hframe
    rw [advanceColumn_of_frame hfull]

/-! ## Skips -/

/-- A marker of a run, with room, from a state that differs from s in the encoder's registers alone. -/
theorem marker_spec {s : State} {op : Op} {path : Path} (len : Nat) (pend : BitVec 5) (first : Op)
    (hfind : Table.find s.paths op = some path) (hw : s.BitWriterLegal)
    (hroom : s.RoomFor (fieldWidth (path.frags ++ [(len, 5)]))) :
    ∃ t, marker op len { s with encPend := pend, encSkipop := first } = .ok t ∧
      Appended s t (path.frags ++ [(len, 5)]) ∧
      t = { s with bw := t.bw, bwBits := t.bwBits, encPend := pend, encSkipop := first } := by
  have hfind' : Table.find ({ s with encPend := pend, encSkipop := first } : State).paths op = some path := hfind
  rw [marker_some hfind']
  exact putFrags_spec (s := { s with encPend := pend, encSkipop := first }) _ hw hroom

/-- While HTILES is unset a skip is its own marker, and no run is pending (R155). -/
theorem emitSkip_alone {s : State} {op : Op} {path : Path} (hz : s.hTiles = 0) (hpend : s.encPend = 0)
    (hfind : Table.find s.paths op = some path) (hw : s.BitWriterLegal)
    (hroom : s.RoomFor (fieldWidth (path.frags ++ [(1, 5)]))) :
    ∃ t, emitSkip op s = .ok t ∧ Appended s t (path.frags ++ [(1, 5)]) ∧
      t = { s with bw := t.bw, bwBits := t.bwBits, encPend := 0 } := by
  obtain ⟨t, hmark, happ, hframe⟩ := marker_spec 1 s.encPend s.encSkipop hfind hw hroom
  refine ⟨t, (if_pos hz).trans hmark, happ, ?_⟩
  rw [hpend] at hframe
  exact hframe

/-- A run that is complete: at the row end with L = 31, else at its 30th skip with L = 30 (R154). -/
theorem emitSkip_complete {s : State} {op first : Op} {path : Path} {len : Nat} (hz : s.hTiles ≠ 0)
    (hfirst : first = if s.encPend = 0 then op else s.encSkipop)
    (hlen : s.encCol.toNat + 1 = s.hTiles.toNat ∧ len = 31 ∨
      s.encCol.toNat + 1 ≠ s.hTiles.toNat ∧ s.encPend.toNat = 29 ∧ len = 30)
    (hfind : Table.find s.paths first = some path) (hw : s.BitWriterLegal)
    (hroom : s.RoomFor (fieldWidth (path.frags ++ [(len, 5)]))) :
    ∃ t, emitSkip op s = .ok t ∧ Appended s t (path.frags ++ [(len, 5)]) ∧
      t = { s with bw := t.bw, bwBits := t.bwBits, encPend := 0, encSkipop := first } := by
  obtain ⟨t, hmark, happ, hframe⟩ := marker_spec len (s.encPend + 1) first hfind hw hroom
  refine ⟨{ t with encPend := 0 }, ?_, happ, ?_⟩
  · have hpos : s.hTiles.toNat ≠ 0 := fun h => hz (BitVec.eq_of_toNat_eq h)
    rw [emitSkip, if_neg hz]
    dsimp only
    rw [← hfirst]
    obtain ⟨hcol, rfl⟩ | ⟨hcol, hpend, rfl⟩ := hlen
    · rw [if_pos (by omega), skipToRowEnd, hmark]
      rfl
    · rw [if_neg (by omega), if_pos (by rw [BitVec.toNat_add, hpend]; rfl), skipMaxRun, hmark]
      rfl
  · rw [hframe]

/-- A skip that neither ends the row nor fills the run stays pending, and nothing is written. -/
theorem emitSkip_pending {s : State} {op first : Op} (hz : s.hTiles ≠ 0)
    (hfirst : first = if s.encPend = 0 then op else s.encSkipop) (hcol : s.encCol.toNat + 1 ≠ s.hTiles.toNat)
    (hpend : s.encPend.toNat < 29) :
    emitSkip op s = .ok { s with encPend := s.encPend + 1, encSkipop := first } := by
  have hcol' : s.encCol.toNat ≠ s.hTiles.toNat - 1 := by
    have hpos : s.hTiles.toNat ≠ 0 := fun h => hz (BitVec.eq_of_toNat_eq h)
    omega
  have hrun : (s.encPend + 1).toNat ≠ skipMaxRun := by
    have hnext : (s.encPend + 1).toNat = s.encPend.toNat + 1 :=
      BitVec.toNat_add_of_lt (show s.encPend.toNat + 1 < 2 ^ 5 by omega)
    rw [hnext, skipMaxRun]
    omega
  rw [emitSkip, if_neg hz]
  dsimp only
  rw [if_neg hcol', if_neg hrun, ← hfirst]

/-- Settles O52: the four cases of R154 and R155. -/
theorem emitCoalescesSkips : Obligations.EmitCoalescesSkips := by
  intro s p first path fs pend hlegal hf hopen hlt hsome hfirst hfind hcases hroom
  have hw := hlegal.bitWriter
  have hexec := exec_seqEmit (ty := .skip) hf hopen hlt (Option.isSome_iff_ne_none.1 hsome)
  rw [emitOp_skip s rfl] at hexec
  suffices hskip : ∃ t, emitSkip ⟨.skip, BitVec.ofNat 17 p.toNat⟩ s = .ok t ∧ Appended s t fs ∧
      t = { s with bw := t.bw, bwBits := t.bwBits, encPend := BitVec.ofNat 5 pend,
                   encSkipop := if s.hTiles = 0 then s.encSkipop else first } by
    obtain ⟨t, hemit, happ, hframe⟩ := hskip
    refine ⟨(advanceColumn t).completed (t.bwBits.setWidth 64),
      hexec.trans (by rw [hemit, Attempt.bind_ok, finish_ok]), ?_, ?_⟩
    · simpa [Appended] using happ
    · rw [advanceColumn_of_frame hframe]
  obtain ⟨-, -, hmax, hunset, -, -⟩ := hlegal.encoder
  rcases hcases with ⟨hz, rfl, rfl⟩ | ⟨hz, hcol, rfl, rfl⟩ | ⟨hz, hcol, hrun, rfl, rfl⟩ | ⟨hz, hcol, hrun, rfl, rfl⟩
  · obtain ⟨hpend, -⟩ := hunset hz
    rw [if_pos hpend] at hfirst
    rw [if_pos hz]
    exact emitSkip_alone hz hpend (hfirst ▸ hfind) hw hroom
  · rw [if_neg hz]
    exact emitSkip_complete hz hfirst (.inl ⟨hcol, rfl⟩) hfind hw hroom
  · rw [if_neg hz]
    exact emitSkip_complete hz hfirst (.inr ⟨hcol, hrun, rfl⟩) hfind hw hroom
  · rw [if_neg hz]
    refine ⟨_, emitSkip_pending hz hfirst hcol (by omega), .refl hw, ?_⟩
    rw [BitVec.ofNat_add, BitVec.ofNat_toNat, BitVec.setWidth_eq]
    rfl

/-! ## Refusals -/

/-- A bitstream that does not fit, as the error it raises. -/
theorem finish_bwFull (s : State) :
    finish s (raise .bufferFull 1 (natInfo s.caps.bw.units)) =
      .next (reportState s .bufferFull 1 (BitVec.ofNat 32 s.caps.bw.units)) := by
  rw [finish_raise]
  exact congrArg _ (raised_bufferFull s _ _)

/-- SEQ_EMIT where what it writes does not fit. -/
theorem exec_seqEmit_full {s : State} {ty : CtrlType} {p : Word} (hf : s.fault = false) (hopen : s.encOpen = true)
    (hlt : p.toNat < 2 ^ 17) (hpath : Table.find s.paths ⟨ty, BitVec.ofNat 17 p.toNat⟩ ≠ none)
    (hemit : emitOp ⟨ty, BitVec.ofNat 17 p.toNat⟩ s = raise .bufferFull 1 (natInfo s.caps.bw.units)) :
    exec (.seqEmit ty p) s = .next (reportState s .bufferFull 1 (BitVec.ofNat 32 s.caps.bw.units)) := by
  rw [exec_seqEmit hf hopen hlt hpath, hemit, Attempt.bind_raise, finish_bwFull]

/-- Settles O53: what does not fit is the run, the path or the marker, and each part is put before it is written. -/
theorem encoderRefusals : Obligations.EncoderRefusals := by
  intro s ty p path skipPath hlegal hf hopen
  have hw := hlegal.bitWriter
  have h0 := hlegal.roomFor_zero
  have hmarker : fieldWidth (skipPath.frags ++ [(s.encPend.toNat, 5)]) = fieldWidth skipPath.frags + 5 := by
    simp [fieldWidth_append]
  refine ⟨exec_seqEmit_unknown hf hopen, ?noPending, ?pending, ?skip, ?frameEnd⟩
  case noPending =>
    intro hty hlt hpend hfind hroom
    refine exec_seqEmit_full hf hopen hlt (by rw [hfind]; exact nofun) ?_
    rw [emitOp_other s hty, emitOther_full (.inl ⟨hpend, rfl⟩) hfind hw h0 (by simpa using hroom)]
  case pending =>
    intro hty hlt hpend hskip hfind hroom
    refine exec_seqEmit_full hf hopen hlt (by rw [hfind]; exact nofun) ?_
    rw [emitOp_other s hty, emitOther_full (.inr ⟨skipPath, hpend, hskip, rfl⟩) hfind hw h0 (by rwa [hmarker])]
  case skip =>
    intro first hlt hsome hfirst hfind hnow hroom
    obtain ⟨-, -, -, hunset, -, -⟩ := hlegal.encoder
    refine exec_seqEmit_full hf hopen hlt (Option.isSome_iff_ne_none.1 hsome) ?_
    rw [emitOp_skip s rfl, emitSkip_full hfirst hfind (fun hz => (hunset hz).1) hnow hw h0 hroom]
  case frameEnd =>
    intro hpend hskip hroom
    rw [exec_seqFrameEnd hf hopen, flushSkips_full (.inr ⟨skipPath, hpend, hskip, rfl⟩) hw h0 (by rwa [hmarker]),
      Attempt.bind_raise, finish_bwFull]

end Sys2Proof.Machine

namespace Sys2Proof.Machine

open Sys2Proof

/-! # Where the model stops (20_memory.md R59, 93_implementation_defined.md U3)

A step is an answer or a stop at an unwritten unit below its length: `step_next_or_stops`. A legal, loaded block has no
such unit, so it always answers. -/

/-- A unit below a length register that nothing has written. -/
def UnwrittenBelowLength (s : State) (sp : Space) (a : Nat) : Prop := a < s.length sp ∧ s.unitAt sp a = none

/-- A unit that is written is no stop. -/
theorem unitAt_ne_none {w : Nat} {m : List (Nat × BitVec w)} {a : Nat} (f : BitVec w → Word)
    (h : (Memory.read m a).isSome) : (Memory.read m a).map f ≠ none := by
  obtain ⟨v, hv⟩ := Option.isSome_iff_exists.1 h
  rw [hv]
  exact nofun

/-- The bytes of the two writers are written in every legal block; those of the other spaces where it is loaded. -/
theorem State.Legal.all_written {s : State} (h : s.Legal) (hl : s.Loaded) (sp : Space) (a : Nat) :
    ¬ UnwrittenBelowLength s sp a := by
  obtain ⟨hbr, hmr, hdict, hser⟩ := hl
  obtain ⟨hbw, -⟩ := h.bitWriter
  rintro ⟨hlt, hnone⟩
  cases sp with
  | br => exact unitAt_ne_none _ (hbr a hlt) hnone
  | bw => exact unitAt_ne_none _ (hbw a hlt) hnone
  | mr => exact unitAt_ne_none _ (hmr a hlt) hnone
  | mw => exact unitAt_ne_none _ (h.maskWriter a hlt) hnone
  | dict => exact Option.isSome_iff_ne_none.1 (hdict a hlt) hnone
  | ser => exact unitAt_ne_none _ (hser a hlt) hnone

/-- An instruction is answered, or stops at an unwritten unit below its length. -/
theorem exec_next_or_stops (i : Instr) (s : State) :
    (∃ t, exec i s = .next t) ∨
    ∃ sp a, exec i s = .fault (.unwrittenUnit sp a) ∧ UnwrittenBelowLength s sp a := by
  by_cases hruns : s.fault = false ∨ i = .softReset ∨ ∃ r, i = .regRd r
  · obtain ⟨t, v, ho, -⟩ | ⟨e, a, b, ho, -⟩ | ⟨sp, a, ho, hunit⟩ := exec_answers i s hruns
    · exact .inl ⟨_, ho⟩
    · exact .inl ⟨_, ho⟩
    · exact .inr ⟨sp, a, ho, hunit⟩
  · obtain ⟨hfault, hreset, hread⟩ : s.fault = true ∧ i ≠ .softReset ∧ ∀ r, i ≠ .regRd r := by
      simpa using hruns
    exact .inl ⟨_, exec_halted i s hfault hreset hread⟩

/-- A step is an answer, or a stop at an unwritten unit below its length. -/
theorem step_next_or_stops (s : State) :
    (∃ t, step s = .next t) ∨ ∃ sp a, step s = .fault (.unwrittenUnit sp a) ∧ UnwrittenBelowLength s sp a := by
  obtain ⟨-, hidle⟩ | ⟨c, rest, -, ⟨i, -, hexec⟩ | ⟨r, -, hreject⟩⟩ := step_cases s
  · exact .inl ⟨_, hidle⟩
  · rw [hexec]
    exact exec_next_or_stops i { s with pending := rest }
  · obtain ⟨e, a, b, ho⟩ := rejectCommand_eq_raised c.cmd { s with pending := rest }
    exact .inl ⟨_, hreject.trans ho⟩

/-! ## Reads that meet an unwritten unit -/

theorem exec_brRead_unwritten {s : State} {n k : Nat} (hf : s.fault = false) (hn : n ≤ 32) (hk : k < n)
    (hend : s.brPos.toNat + k < 8 * s.brLen.toNat) (hread : Memory.read s.br ((s.brPos.toNat + k) / 8) = none) :
    ∃ a < s.brLen.toNat, Memory.read s.br a = none ∧ exec (.brRead n) s = .fault (.unwrittenUnit .br a) := by
  obtain ⟨a, ha, hnone, hpeek⟩ := peekFrom_unwritten hk hend hread
  refine ⟨a, ha, hnone, ?_⟩
  simp only [exec, execBrRead, command_ready hf, widthUpTo_of_le (limit := maxBits) _ hn, Attempt.bind_ok, hpeek,
    Attempt.bind_error, finish_unwritten]

theorem exec_mrRead_unwritten {s : State} {k j : Nat} (hf : s.fault = false) (hk : k ≤ 8)
    (hcursor : s.mrPos.toNat + k < 2 ^ 32) (hj : j < k) (hend : s.mrPos.toNat + j < s.mrLen.toNat)
    (hread : Memory.read s.mr (s.mrPos.toNat + j) = none) :
    ∃ a < s.mrLen.toNat, Memory.read s.mr a = none ∧ exec (.mrRead k) s = .fault (.unwrittenUnit .mr a) := by
  obtain ⟨a, ha, hnone, hbytes⟩ := maskBytesFrom_unwritten hj hend hread
  have hpast : ¬ cursorMax < s.mrPos.toNat + k := by
    unfold cursorMax
    omega
  refine ⟨a, ha, hnone, ?_⟩
  simp only [exec, execMrRead, command_ready hf, widthUpTo_of_le (limit := maxMaskBytes) _ hk, Attempt.bind_ok,
    if_neg hpast, hbytes, Attempt.bind_error, finish_unwritten]

theorem exec_dictPack_unwritten {s : State} {k : Nat} (hf : s.fault = false) (hk : k < s.dictLen.toNat)
    (hread : Memory.read s.dict k = none) :
    ∃ a < s.dictLen.toNat, Memory.read s.dict a = none ∧ exec .dictPack s = .fault (.unwrittenUnit .dict a) := by
  obtain ⟨a, -, ha, hnone, hfetch⟩ :=
    fetchUnits_unwritten (sp := .dict) (a := 0) hk ((Nat.zero_add k).symm ▸ hread)
  refine ⟨a, by omega, hnone, ?_⟩
  simp only [exec, execDictPack, command_ready hf, hfetch, Attempt.bind_error, finish_unwritten]

theorem exec_dictUnpack_unwritten {s : State} {k : Nat} (hf : s.fault = false) (hlen : 4 ≤ s.serLen.toNat) (hk : k < 4)
    (hread : Memory.read s.ser k = none) :
    ∃ a < s.serLen.toNat, Memory.read s.ser a = none ∧ exec .dictUnpack s = .fault (.unwrittenUnit .ser a) := by
  obtain ⟨a, -, ha, hnone, hfetch⟩ :=
    fetchUnits_unwritten (sp := .ser) (a := 0) hk ((Nat.zero_add k).symm ▸ hread)
  refine ⟨a, by omega, hnone, ?_⟩
  simp only [exec, execDictUnpack, command_ready hf, serCount, if_neg (Nat.not_lt.2 hlen), serWord, hfetch,
    Attempt.bind_error, finish_unwritten]

/-- Settles O60: `step_next_or_stops`, and one lemma per command that reads. -/
theorem loadedBlockNeverStops : Obligations.LoadedBlockNeverStops := by
  refine ⟨fun s hlegal hloaded => ?progress, fun s sp a hstop => ?stop, fun s r href => ?refused,
    fun _ _ _ => exec_brRead_unwritten, fun _ _ _ => exec_mrRead_unwritten, ?resolve,
    fun _ _ => exec_dictPack_unwritten, fun _ _ => exec_dictUnpack_unwritten⟩
  case progress =>
    obtain hnext | ⟨sp, a, -, hunit⟩ := step_next_or_stops s
    · exact hnext
    · exact absurd hunit (hlegal.all_written hloaded sp a)
  case stop =>
    obtain ⟨t, hnext⟩ | ⟨sp', a', hstop', hunit⟩ := step_next_or_stops s
    · rw [hnext] at hstop
      cases hstop
    · rw [hstop'] at hstop
      cases hstop
      exact hunit
  case refused =>
    obtain ⟨t, hnext⟩ | ⟨sp, a, hstop, -⟩ := step_next_or_stops s
    · rw [hnext] at href
      cases href
    · rw [hstop] at href
      cases href
  case resolve =>
    intro s i h pos frag idx hf hs hl hi hc hh hidx hread
    rw [exec_of_resolve_error hf hs hi (resolve_unwritten hl i.cmdWord hc hh hidx hread), finish_unwritten]

end Sys2Proof.Machine
